-- ==== Sys2Proof/Word.lean ====
section
/-! DEFINITION. The operation word (30_encoding.md R81) and the byte. -/

namespace Sys2Proof

/-- One 32-bit operation word (R81). -/
abbrev Word := BitVec 32

/-- One byte: a pattern byte (R15), a UART byte (R210), or a quarter of a stored operation word (R65). -/
abbrev Byte := BitVec 8

end Sys2Proof
end

