-- ==== Sys2Proof/Syntax.lean ====
section
/-! DEFINITION. The operation set of 30_encoding.md R80: one constructor per row of the opcode table. Operands are the
operand fields of R83 and R84 at their encoded width. -/

namespace Sys2Proof

/-- One operation of the block (R80). Each constructor names its row of R85 and the rule that gives its meaning. -/
inductive Instr where
  /-- `TICK n`, n counter ticks pass (R110). -/
  | tick (n : BitVec 24)
  /-- `ECHO.R`, the echo line goes high (R112). -/
  | echoR
  /-- `ECHO.F`, the echo line goes low (R113). -/
  | echoF
  /-- `RX b`, UART byte b arrives (R210). -/
  | rx (b : Byte)
  /-- `SVC.OVF`, overflow interrupt service (R114). -/
  | svcOvf
  /-- `SVC.CAP`, capture interrupt service (R116). -/
  | svcCap
  /-- `TRIG.REQ`, request a trigger pulse (R126). -/
  | trigReq
  /-- `TRIG.STEP`, next micro-step of the trigger emitter (R121 to R124). -/
  | trigStep
  /-- `TRIG.WAKE`, end of the 200 ms suspension (R125). -/
  | trigWake
  /-- `DIST.RD`, read the DistanceMailbox into RES (R128). -/
  | distRd
  /-- `DIST.CLR`, empty the DistanceMailbox (R129). -/
  | distClr
  /-- `CTL.SET m`, set CTL bits (R130). -/
  | ctlSet (m : BitVec 4)
  /-- `CTL.CLR m`, clear CTL bits (R131). -/
  | ctlClr (m : BitVec 4)
  /-- `FLG.CLR m`, clear FLG bits (R132). -/
  | flgClr (m : BitVec 2)
  /-- `CNT.RD`, read CNT into RES (R133). -/
  | cntRd
  /-- `CTL.RD`, read CTL into RES (R134). -/
  | ctlRd
  /-- `FLG.RD`, read FLG into RES (R135). -/
  | flgRd
  /-- `EXEC FWD`, execute Forward (R151). -/
  | execFwd
  /-- `EXEC REV`, execute Reverse (R152). -/
  | execRev
  /-- `EXEC RT`, execute RightTurn (R153). -/
  | execRt
  /-- `EXEC LT`, execute LeftTurn (R154). -/
  | execLt
  /-- `EXEC BRK`, execute Brake (R155). -/
  | execBrk
  /-- `EXEC STP`, execute Stop (R156). -/
  | execStp
  /-- `EXEC DNT`, execute Donut (R157). -/
  | execDnt
  /-- `SHIFT p`, serialize pattern byte p (R160). -/
  | shift (p : Byte)
  /-- `ENC.STEP`, next micro-step of the serializer (R162). -/
  | encStep
  /-- `LOCK r`, take resource r (R182). -/
  | lock (r : BitVec 3)
  /-- `UNLOCK r`, release resource r (R183). -/
  | unlock (r : BitVec 3)
  /-- `SVC.RX`, CommandIngest service (R211). -/
  | svcRx
deriving DecidableEq, Repr

end Sys2Proof
end

