-- ==== Sys2Proof/WellFormed.lean ====
section
/-! DEFINITION. Which terms of `Instr` are operations of R80: every operand field fits its sub-format by its type (R83); the one
check left is the resource id of `LOCK` and `UNLOCK` (R85: r at most 4; R66, R100: 5 to 7 are reserved). -/

namespace Sys2Proof

/-- A resource id that names a resource of 20_memory.md R61. -/
def resourceIdOk (r : BitVec 3) : Bool := decide (r.toNat ≤ 4)

/-- The term is an operation of R80. -/
def Instr.wellFormed : Instr → Bool
  | .tick _ => true
  | .echoR => true
  | .echoF => true
  | .rx _ => true
  | .svcOvf => true
  | .svcCap => true
  | .trigReq => true
  | .trigStep => true
  | .trigWake => true
  | .distRd => true
  | .distClr => true
  | .ctlSet _ => true
  | .ctlClr _ => true
  | .flgClr _ => true
  | .cntRd => true
  | .ctlRd => true
  | .flgRd => true
  | .execFwd => true
  | .execRev => true
  | .execRt => true
  | .execLt => true
  | .execBrk => true
  | .execStp => true
  | .execDnt => true
  | .shift _ => true
  | .encStep => true
  | .lock r => resourceIdOk r
  | .unlock r => resourceIdOk r
  | .svcRx => true

end Sys2Proof
end

