-- ==== Sys2Proof/Decode.lean ====
section
/-! DEFINITION. The operation word: decoder and encoder of 30_encoding.md R81 to R85 and R100, and the word's byte order
(20_memory.md R65). -/

namespace Sys2Proof

/-- Why a word is reserved (R100), or why no word could be read. -/
inductive DecodeError where
  /-- UNIT is 5 to 15. -/
  | reservedUnit
  /-- UNIT is defined and FN is not. -/
  | reservedFunction
  /-- ARG breaks its sub-format: a bit above the operand, `EXEC 7`, `LOCK` or `UNLOCK` 5 to 7. -/
  | badOperand
  /-- Fewer than four bytes. -/
  | tooShort
deriving DecidableEq, Repr

/-- UNIT, bits 31:28 (R81). -/
def unitField (w : Word) : BitVec 4 := w.extractLsb' 28 4

/-- FN, bits 27:24 (R81). -/
def fnField (w : Word) : BitVec 4 := w.extractLsb' 24 4

/-- ARG, bits 23:0 (R81). -/
def argField (w : Word) : BitVec 24 := w.extractLsb' 0 24

/-- Sub-format `A0` (R83): no operand. -/
def argNone (a : BitVec 24) (i : Instr) : Except DecodeError Instr :=
  if a = 0 then .ok i else .error .badOperand

/-- Sub-formats `A2`, `A3`, `A4`, `A8` (R83): the operand is the low `k` bits, every bit above is 0. -/
def argLow (k : Nat) (a : BitVec 24) (f : BitVec k → Except DecodeError Instr) : Except DecodeError Instr :=
  if a.toNat < 2 ^ k then f (a.setWidth k) else .error .badOperand

/-- UNIT 0, ENV (R85). -/
def decodeEnv (fn : BitVec 4) (a : BitVec 24) : Except DecodeError Instr :=
  match fn.toNat with
  | 1 => .ok (.tick a)
  | 2 => argNone a .echoR
  | 3 => argNone a .echoF
  | 4 => argLow 8 a fun b => .ok (.rx b)
  | _ => .error .reservedFunction

/-- UNIT 1, ECU (R85). -/
def decodeEcu (fn : BitVec 4) (a : BitVec 24) : Except DecodeError Instr :=
  match fn.toNat with
  | 0 => argNone a .svcOvf
  | 1 => argNone a .svcCap
  | 2 => argNone a .trigReq
  | 3 => argNone a .trigStep
  | 4 => argNone a .trigWake
  | 5 => argNone a .distRd
  | 6 => argNone a .distClr
  | 7 => argLow 4 a fun m => .ok (.ctlSet m)
  | 8 => argLow 4 a fun m => .ok (.ctlClr m)
  | 9 => argLow 2 a fun m => .ok (.flgClr m)
  | 10 => argNone a .cntRd
  | 11 => argNone a .ctlRd
  | 12 => argNone a .flgRd
  | _ => .error .reservedFunction

/-- The command code of `EXEC` (R91): 0 to 6 in the order of the data model, 7 reserved. -/
def decodeCommand (c : BitVec 3) : Except DecodeError Instr :=
  match c.toNat with
  | 0 => .ok .execFwd
  | 1 => .ok .execRev
  | 2 => .ok .execRt
  | 3 => .ok .execLt
  | 4 => .ok .execBrk
  | 5 => .ok .execStp
  | 6 => .ok .execDnt
  | _ => .error .badOperand

/-- UNIT 2, MPE (R85). -/
def decodeMpe (fn : BitVec 4) (a : BitVec 24) : Except DecodeError Instr :=
  match fn.toNat with
  | 0 => argLow 3 a decodeCommand
  | 1 => argLow 8 a fun p => .ok (.shift p)
  | 2 => argNone a .encStep
  | _ => .error .reservedFunction

/-- A resource id (R85: r at most 4). -/
def decodeResource (r : BitVec 3) (i : Instr) : Except DecodeError Instr :=
  if resourceIdOk r then .ok i else .error .badOperand

/-- UNIT 3, PCL (R85). -/
def decodePcl (fn : BitVec 4) (a : BitVec 24) : Except DecodeError Instr :=
  match fn.toNat with
  | 0 => argLow 3 a fun r => decodeResource r (.lock r)
  | 1 => argLow 3 a fun r => decodeResource r (.unlock r)
  | _ => .error .reservedFunction

/-- UNIT 4, HOST (R85). -/
def decodeHost (fn : BitVec 4) (a : BitVec 24) : Except DecodeError Instr :=
  match fn.toNat with
  | 0 => argNone a .svcRx
  | _ => .error .reservedFunction

/-- The decoder (R82): exact match on UNIT and FN, then the check of ARG; total on every word. -/
def decodeWord (w : Word) : Except DecodeError Instr :=
  match (unitField w).toNat with
  | 0 => decodeEnv (fnField w) (argField w)
  | 1 => decodeEcu (fnField w) (argField w)
  | 2 => decodeMpe (fnField w) (argField w)
  | 3 => decodePcl (fnField w) (argField w)
  | 4 => decodeHost (fnField w) (argField w)
  | _ => .error .reservedUnit

/-- Four bytes, byte 0 holding bits 7:0 (R65, R81). -/
def wordOfBytes (b0 b1 b2 b3 : Byte) : Word := b3 ++ b2 ++ b1 ++ b0

/-- The decoder on stored bytes: the operation and the bytes after it. -/
def decode : List Byte → Except DecodeError (Instr × List Byte)
  | b0 :: b1 :: b2 :: b3 :: rest =>
    match decodeWord (wordOfBytes b0 b1 b2 b3) with
    | .ok i => .ok (i, rest)
    | .error e => .error e
  | _ => .error .tooShort

/-- Byte `k` of a stored word, little-endian (R65). -/
def byteOf (w : Word) (k : Nat) : Byte := w.extractLsb' (8 * k) 8

/-- The bytes of a stored word, byte 0 first (R65). -/
def bytesOfWord (w : Word) : List Byte := [byteOf w 0, byteOf w 1, byteOf w 2, byteOf w 3]

/-- The fields of R81 put together. -/
def pack (unit fn : BitVec 4) (arg : BitVec 24) : Word := unit ++ fn ++ arg

/-- The encoder, from the opcode map of R85. -/
def encode : Instr → Word
  | .tick n => pack 0 1 n
  | .echoR => pack 0 2 0
  | .echoF => pack 0 3 0
  | .rx b => pack 0 4 (b.setWidth 24)
  | .svcOvf => pack 1 0 0
  | .svcCap => pack 1 1 0
  | .trigReq => pack 1 2 0
  | .trigStep => pack 1 3 0
  | .trigWake => pack 1 4 0
  | .distRd => pack 1 5 0
  | .distClr => pack 1 6 0
  | .ctlSet m => pack 1 7 (m.setWidth 24)
  | .ctlClr m => pack 1 8 (m.setWidth 24)
  | .flgClr m => pack 1 9 (m.setWidth 24)
  | .cntRd => pack 1 10 0
  | .ctlRd => pack 1 11 0
  | .flgRd => pack 1 12 0
  | .execFwd => pack 2 0 0
  | .execRev => pack 2 0 1
  | .execRt => pack 2 0 2
  | .execLt => pack 2 0 3
  | .execBrk => pack 2 0 4
  | .execStp => pack 2 0 5
  | .execDnt => pack 2 0 6
  | .shift p => pack 2 1 (p.setWidth 24)
  | .encStep => pack 2 2 0
  | .lock r => pack 3 0 (r.setWidth 24)
  | .unlock r => pack 3 1 (r.setWidth 24)
  | .svcRx => pack 4 0 0

/-- The operation as it is stored (R65). -/
def encodeBytes (i : Instr) : List Byte := bytesOfWord (encode i)

/-- The word whose low `nbits` bits are those of `w` and whose other bits are 0. -/
def tableWord (nbits w : Nat) : Word := BitVec.ofNat 32 (w % 2 ^ nbits)

/-- The operation the decoder reads from the stored bytes of a table word. -/
def decodeTableWord (nbits w : Nat) : Option Instr :=
  match decode (bytesOfWord (tableWord nbits w)) with
  | .ok (i, _) => some i
  | .error _ => none

end Sys2Proof
end

