-- ==== Sys2Proof/Config.lean ====
section
/-! DEFINITION. What is fixed for one machine (00_scope.md R12, 10_state.md R51): every decided parameter of R12 is a field of
`Params` whose default is R12's value; the OPEN values are opaque constants. The values of R12 that are the source's are named
constants of Machine/Tables.lean.
DESIGN CHOICE throughout in the form (logs 4, 5, 6, 21, 23); the default values are the spec's. -/

namespace Sys2Proof

/-- PRIO (R12, R180), the default of each agent. -/
structure Priorities where
  ovf : Fin 6 := 5
  cap : Fin 6 := 4
  uart : Fin 6 := 3
  trig : Fin 6 := 2
  nav : Fin 6 := 1
deriving DecidableEq, Repr

/-- CEIL (R12, R181), the default of each resource. -/
structure Ceilings where
  mode : Fin 6 := 3
  cmdmb : Fin 6 := 3
  distmb : Fin 6 := 4
  ovfcnt : Fin 6 := 5
  captmr : Fin 6 := 5
deriving DecidableEq, Repr

/-- OVF_RULE (R12, R115): the maximum is tested after the increment (default) or before it. -/
inductive OvfRule where
  | after
  | before
deriving DecidableEq, Repr

/-- The six operator bytes that R12 and R94 leave OPEN. -/
structure OpenBytes where
  toggle : Byte
  right : Byte
  left : Byte
  brake : Byte
  stop : Byte
  donut : Byte
deriving DecidableEq, Repr, Inhabited

/-- The eight byte values of R94 in the order of its text: BYTE_FORWARD and BYTE_REVERSE are the source's. -/
def OpenBytes.all (b : OpenBytes) : List Byte :=
  [0x42#8, 0x43#8, b.toggle, b.right, b.left, b.brake, b.stop, b.donut]

/-- R94's single constraint: the eight values are pairwise distinct. -/
def OpenBytes.admissible (b : OpenBytes) : Bool := decide b.all.Nodup

/-- Six bytes about which nothing is known (R94: OPEN; log 5). -/
opaque Config.openBytesDrawn : OpenBytes

/-- The OPEN operator bytes, constrained as R94 says and not otherwise: every admissible choice is a possible value,
because the drawn one is taken whenever it is admissible. The other branch only keeps the constraint true. -/
def Config.openBytes : OpenBytes :=
  if Config.openBytesDrawn.admissible then Config.openBytesDrawn else ⟨0, 1, 2, 3, 4, 5⟩

/-- `any(w)` of R16, one value for each width and draw (R118 with DIST_WIDTH; log 4). -/
opaque Config.anyDistance (w : Nat) : Nat → BitVec w

/-- The OPEN duties of the scanning actuator, 0 to 100 (R229; log 6). -/
opaque Config.scannerDutyRight : Fin 101
opaque Config.scannerDutyMiddle : Fin 101
opaque Config.scannerDutyLeft : Fin 101

/-- The decided and the OPEN parameters of R12 that the step relation reads (R51). The defaults are R12's (logs 21, 23). -/
structure Params where
  /-- OVF_WIDTH (R22, D3). -/
  ovfWidth : Nat := 16
  /-- DIST_WIDTH (R32, D7). -/
  distWidth : Nat := 32
  /-- PRIO (R180, D14). -/
  prio : Priorities := {}
  /-- CEIL (R181, D15). -/
  ceil : Ceilings := {}
  /-- LOCK_DEPTH (R43, R192, D16): the bound of LCKSTK. No operation tests it: R182 names no such condition, and R192 derives the
  bound from LOCK_HELD. -/
  lockDepth : Nat := 5
  /-- R115. -/
  ovfRule : OvfRule := .after
  /-- R138. -/
  captureSplit : Bool := false
  /-- R222. -/
  navExecUnderLock : Bool := false
  /-- R223. -/
  navReqEachPoll : Bool := true
  /-- R94. -/
  bytes : OpenBytes
deriving DecidableEq, Repr

/-- The parameters `exec` and `step` run with: R12's defaults and the OPEN bytes. -/
def Config.params : Params := { bytes := Config.openBytes }

end Sys2Proof
end

