-- ==== Sys2Proof/Machine/State.lean ====
section
/-! DEFINITION. The state of the block and of its documented host (10_state.md R20 to R50), as plain data, and the state
after startup (70_reset_and_hazards.md R270, R271). Pin levels: false = Low = 0, true = High = 1 (R95). -/

namespace Sys2Proof.Machine

/-- The agents that run on the one context (R10). -/
inductive Agent where
  | nav
  | trig
  | uart
  | cap
  | ovf
deriving DecidableEq, Repr

/-- The lock-protected resources (R61). -/
inductive Resource where
  | mode
  | cmdmb
  | distmb
  | ovfcnt
  | captmr
deriving DecidableEq, Repr

/-- The seven motion commands, in the order of R91. -/
inductive Command where
  | forward
  | reverse
  | rightTurn
  | leftTurn
  | brake
  | stop
  | donut
deriving DecidableEq, Repr

/-- EchoCaptureState (R24). -/
inductive EchoState where
  | idle
  | done
deriving DecidableEq, Repr

/-- The hidden position CAP_PH of the alternative CAPTURE_SPLIT = true (R138). -/
inductive CapPhase where
  | a
  | b
  | c
deriving DecidableEq, Repr

/-- TRIG_ST (R34). -/
inductive TrigState where
  | off
  | pending
  | run1
  | run2
  | run3
  | sleep
deriving DecidableEq, Repr

/-- ENC_PHASE (R38). -/
inductive EncPhase where
  | main
  | hold
  | zero
deriving DecidableEq, Repr

/-- The output pins (R60). -/
inductive Pin where
  | trigPin
  | data
  | clk
  | latch
deriving DecidableEq, Repr

/-- OperatingMode (R50). -/
inductive OpMode where
  | manual
  | auto
deriving DecidableEq, Repr

/-- ScanPosition (R50). -/
inductive ScanPos where
  | right
  | middle
  | left
deriving DecidableEq, Repr

/-- An effective priority, 0 to 5 (R42). -/
abbrev Prio := Fin 6

/-- A frame of ACT: the active agent and the effective priority to restore when it leaves (R41). -/
structure Frame where
  agent : Agent
  saved : Prio
deriving DecidableEq, Repr

/-- An entry of LCKSTK (R43). -/
structure LockEntry where
  agent : Agent
  res : Resource
  saved : Prio
deriving DecidableEq, Repr

/-- One pin write of PINTRACE (R45). -/
structure PinEvent where
  pin : Pin
  level : Bool
  time : Nat
deriving DecidableEq, Repr

/-- What the documented NavigationController still has to do in its current iteration (43_host_clients.md R220 to R230;
R251 calls it its place in the host loop). The granularity is the model's (log 12). -/
inductive NavAct where
  /-- Issue `LOCK r`. -/
  | lock (r : Resource)
  /-- Issue `UNLOCK r`. -/
  | unlock (r : Resource)
  /-- `m <- H.MODE` (R221). -/
  | readMode
  /-- `c <- H.CMDMB` (R222). -/
  | readCmd
  /-- `H.CMDMB <- None` (R222). -/
  | clearCmd
  /-- Issue `TRIG.REQ` (R223). -/
  | request
  /-- Issue `DIST.RD` (R223). -/
  | distRd
  /-- Look at RES and go on with a branch of the scan, or poll again (R223). -/
  | takeReading
  /-- Issue `DIST.CLR` (R227). -/
  | distClr
  /-- Issue `EXEC c`. -/
  | exec (c : Command)
  /-- Issue `ENC.STEP` until the encoder is free. -/
  | encRun
  /-- `H.DR <- d` (R224). -/
  | setDr (d : Nat)
  /-- `H.DL <- d` (R225). -/
  | setDl (d : Nat)
  /-- `scanner(pos)` (R229). -/
  | scanner (p : ScanPos)
  /-- Busy-wait of that many ticks (R228). -/
  | delay (n : Nat)
  /-- `H.SCAN <- pos`. -/
  | setScan (p : ScanPos)
  /-- `H.DEB <- b` (R222, R225, R226). -/
  | setDeb (b : Bool)
  /-- The decision of the Left branch (R225). -/
  | decideTurn
deriving DecidableEq, Repr

/-- What stands at the operation port (R262): an operation word, or the turn of the documented NavigationController to take
its next step. DESIGN CHOICE (logs 1, 12). -/
inductive PortItem where
  | word (w : Word)
  | navTurn
deriving DecidableEq, Repr

/-- The echo-capture unit: R21 to R34. -/
structure Ecu where
  /-- CNT (R21). -/
  cnt : BitVec 16
  /-- OVF (R22), a number below 2^OVF_WIDTH (log 21). -/
  ovf : Nat
  /-- T1 (R23). -/
  t1 : BitVec 16
  /-- T2 (R23). -/
  t2 : BitVec 16
  /-- ECS (R24). -/
  ecs : EchoState
  /-- CTL: CNTEN, CAPEN, OVFIE, POL from bit 0 (R25). -/
  ctl : BitVec 4
  /-- FLG: CAPF, OVFF from bit 0 (R25). -/
  flg : BitVec 2
  /-- ECHO (R31). -/
  echo : Bool
  /-- DISTMB (R32), a number below 2^DIST_WIDTH when full (log 21). -/
  distmb : Option Nat
  /-- TRIGPIN (R33). -/
  trigPin : Bool
  /-- TRIG_ST (R34). -/
  trigSt : TrigState
  /-- TRIG_DL (R34). -/
  trigDl : Nat
  /-- CAP_PH, of the alternative R138 only. -/
  capPh : CapPhase
  /-- The snapshot of OVF at position B, of the alternative R138 only. -/
  capOvf : Nat
deriving DecidableEq, Repr

/-- The motor-protocol encoder: R36 to R39. -/
structure Mpe where
  /-- DATA (R36). -/
  data : Bool
  /-- CLK (R36). -/
  clk : Bool
  /-- LATCH (R36). -/
  latch : Bool
  /-- ENC_BUSY (R37). -/
  busy : Bool
  /-- ENC_OWNER (R37). -/
  owner : Agent
  /-- ENC_CMD (R38). -/
  cmd : Option Command
  /-- ENC_PAT (R38). -/
  pat : Byte
  /-- ENC_PHASE (R38). -/
  phase : EncPhase
  /-- ENC_POS, 0 to 25 (R39). -/
  pos : Fin 26
  /-- ENC_DL (R39). -/
  dl : Nat
deriving DecidableEq, Repr

/-- The lock arbiter: R41 to R43. Stacks are written top first. -/
structure Pcl where
  /-- ACT (R41). -/
  act : List Frame
  /-- EPRI (R42). -/
  epri : Prio
  /-- LCKSTK (R43). -/
  lckstk : List LockEntry
deriving DecidableEq, Repr

/-- The host state `H.<name>` of R50, and NAV's place in its loop (R251). -/
structure HostSide where
  /-- H.MODE. -/
  mode : OpMode
  /-- H.CMDMB. -/
  cmdmb : Option Command
  /-- H.IND. -/
  ind : Bool
  /-- H.RXF. -/
  rxf : Bool
  /-- H.RXIE. -/
  rxie : Bool
  /-- H.RXBYTE. -/
  rxbyte : Byte
  /-- H.TXLOG, oldest first. -/
  txlog : List Byte
  /-- H.SCAN. -/
  scan : ScanPos
  /-- H.DEB. -/
  deb : Bool
  /-- H.DR, a number below 2^DIST_WIDTH (log 21). -/
  dr : Nat
  /-- H.DL, a number below 2^DIST_WIDTH (log 21). -/
  dl : Nat
  /-- H.SCANDUTY. -/
  scanDuty : Fin 101
  /-- The rest of NAV's iteration; empty at the head of the loop (R220, log 12). -/
  nav : List NavAct
  /-- The deadline of NAV's busy-wait (R228). -/
  navDl : Nat
deriving DecidableEq, Repr

/-- The whole state (R20), by unit; `stream` and `draws` are the model's own (logs 1, 4). -/
structure State where
  ecu : Ecu
  mpe : Mpe
  pcl : Pcl
  host : HostSide
  /-- NOW (R35). -/
  now : Nat
  /-- ERR (R48). -/
  err : BitVec 4
  /-- RES (R49), as the number read: DISTMB as it is, a register zero-extended; below 2^32 at the defaults (log 21). -/
  res : Option Nat
  /-- PINTRACE, oldest first (R45). -/
  pinTrace : List PinEvent
  /-- The operation port: what will be presented, next first (R262; log 1). -/
  stream : List PortItem
  /-- How many `any` values have been drawn (R16; log 4). -/
  draws : Nat
deriving DecidableEq, Repr

/-- The refusal codes of R241, which are next states of the machine and not stops of the model. -/
inductive RefusalCode where
  | illegalOp
  | notEnabled
  | lockCeiling
  | lockHeld
  | unlockOrder
  | notHolder
  | encBusy
  | leaveLocked
deriving DecidableEq, Repr

/-- No step faults: the block has no halted, stuck or fatal state (R244), so there is no constructor (log 10). -/
inductive Fault where
deriving DecidableEq, Repr

/-- Why the model gives a step no meaning. -/
inductive Refusal where
  /-- Raised by `exec` for an operation whose meaning is not written; safe: nothing can be proved of what it does. -/
  | notModelled (mnemonic : String)
deriving DecidableEq, Repr

/-- Startup (R270, R271). The values of T1, T2, TRIGPIN, TRIG_DL, DATA, LATCH, ENC_OWNER, ENC_PAT, ENC_PHASE, ENC_DL,
H.RXBYTE, H.DR, H.DL and H.SCANDUTY are a DESIGN CHOICE (log 3); so are those of the model's own fields (log 28). -/
def State.reset : State where
  ecu :=
    { cnt := 0, ovf := 0, t1 := 0, t2 := 0, ecs := .idle, ctl := 0b0101#4, flg := 0, echo := false, distmb := none,
      trigPin := false, trigSt := .off, trigDl := 0, capPh := .a, capOvf := 0 }
  mpe :=
    { data := false, clk := false, latch := false, busy := false, owner := .nav, cmd := none, pat := 0, phase := .main,
      pos := 0, dl := 0 }
  pcl := { act := [⟨.nav, 0⟩], epri := 1, lckstk := [] }
  host :=
    { mode := .manual, cmdmb := none, ind := false, rxf := false, rxie := true, rxbyte := 0, txlog := [], scan := .middle,
      deb := false, dr := 0, dl := 0, scanDuty := 0, nav := [], navDl := 0 }
  now := 0
  err := 0
  res := none
  pinTrace := []
  stream := []
  draws := 0

end Sys2Proof.Machine
end

