-- ==== Sys2Proof/Machine/Tables.lean ====
section
/-! DEFINITION. The constant tables and numbers of the spec: priorities and ceilings (42_lock_arbiter.md R180, R181), command
patterns and holds (30_encoding.md R90), enumeration codes (R91, R95, R241), durations (70_reset_and_hazards.md R290). -/

namespace Sys2Proof.Machine

/-- PRIO (R180), a table of the parameters (R51). Here and in every operation that reads a parameter, the argument `P` may be left
out and is then R12's defaults. -/
def prio (a : Agent) (P : Params := Config.params) : Prio :=
  match a with
  | .nav => P.prio.nav
  | .trig => P.prio.trig
  | .uart => P.prio.uart
  | .cap => P.prio.cap
  | .ovf => P.prio.ovf

/-- CEIL (R181), a table of the parameters (R51). -/
def ceil (r : Resource) (P : Params := Config.params) : Prio :=
  match r with
  | .mode => P.ceil.mode
  | .cmdmb => P.ceil.cmdmb
  | .distmb => P.ceil.distmb
  | .ovfcnt => P.ceil.ovfcnt
  | .captmr => P.ceil.captmr

/-- The four sources that can be entered (R185, R245), in the order of the default priorities. -/
def sources : List Agent := [.ovf, .cap, .uart, .trig]

/-- The pattern `P[0..7]` of a command in the source's index order (R90). -/
def patternList : Command → List Bool
  | .forward => [true, false, true, false, true, false, true, false]
  | .reverse => [false, true, false, true, false, true, false, true]
  | .rightTurn => [false, true, false, true, true, false, true, false]
  | .leftTurn => [true, false, true, false, false, true, false, true]
  | .brake => [false, true, false, true, false, true, false, true]
  | .stop => [false, false, false, false, false, false, false, false]
  | .donut => [false, true, false, true, true, false, true, false]

/-- The pattern byte of a list: bit `i` is `P[i]` (R15). -/
def patternByteOf (l : List Bool) : Byte :=
  l.foldr (fun b acc => (acc <<< 1) ||| (BitVec.ofBool b).setWidth 8) 0#8

/-- PATTERN(c) as a pattern byte (R90, R15). -/
def pattern (c : Command) : Byte := patternByteOf (patternList c)

/-- HOLD_MS of a transient command; none for a held one (R90). -/
def holdMs : Command → Option Nat
  | .forward => none
  | .reverse => none
  | .rightTurn => some 250
  | .leftTurn => some 250
  | .brake => some 200
  | .stop => none
  | .donut => some 2000

/-- The command code (R91). -/
def commandCode : Command → BitVec 3
  | .forward => 0
  | .reverse => 1
  | .rightTurn => 2
  | .leftTurn => 3
  | .brake => 4
  | .stop => 5
  | .donut => 6

/-- The number of an agent (R95: equal to the default priority). -/
def agentCode (a : Agent) : Nat := (prio a).val

/-- The resource id (R61, R95). -/
def resourceCode : Resource → BitVec 3
  | .mode => 0
  | .cmdmb => 1
  | .distmb => 2
  | .ovfcnt => 3
  | .captmr => 4

/-- The number of a state of the capture machine (R95). -/
def ecsCode : EchoState → Nat
  | .idle => 0
  | .done => 1

/-- The number of an encoder phase (R95). -/
def phaseCode : EncPhase → Nat
  | .main => 0
  | .hold => 1
  | .zero => 2

/-- The number of a state of the trigger emitter (R95). -/
def trigCode : TrigState → Nat
  | .off => 0
  | .pending => 1
  | .run1 => 2
  | .run2 => 3
  | .run3 => 4
  | .sleep => 5

/-- The number of an operating mode (R95). -/
def modeCode : OpMode → Nat
  | .manual => 0
  | .auto => 1

/-- The number of a scan position (R95). -/
def scanCode : ScanPos → Nat
  | .right => 0
  | .middle => 1
  | .left => 2

/-- The number of a level: Low 0, High 1; of a polarity: Rising 0, Falling 1 (R95). -/
def levelCode (b : Bool) : Nat := b.toNat

/-- The code of a refusal in ERR (R241). -/
def refusalCode : RefusalCode → BitVec 4
  | .illegalOp => 1
  | .notEnabled => 2
  | .lockCeiling => 3
  | .lockHeld => 4
  | .unlockOrder => 5
  | .notHolder => 6
  | .encBusy => 7
  | .leaveLocked => 8

/-- `ms(n)`: milliseconds in ticks (R17). -/
def ms (n : Nat) : Nat := 1000 * n

/-- TRIG_LOW_US (R12). -/
def trigLowUs : Nat := 2

/-- TRIG_HIGH_US (R12). -/
def trigHighUs : Nat := 10

/-- TRIG_SLEEP_MS (R12). -/
def trigSleepMs : Nat := 200

/-- BIT_DELAY_MS (R12). -/
def bitDelayMs : Nat := 5

/-- STOP_THRESHOLD, in centimetres (R12, R225, R226). -/
def stopThreshold : Nat := 20

/-- SETTLE_MS (R12). -/
def settleMs : Nat := 1000

/-- POST_DECISION_MS (R12). -/
def postDecisionMs : Nat := 500

/-- DIST_NUM and DIST_DEN (R12). -/
def distNum : Nat := 17

/-- DIST_DEN (R12). -/
def distDen : Nat := 1000

/-- OVF_MAX = 2^OVF_WIDTH − 1 (R12). -/
abbrev ovfMax (P : Params := Config.params) : Nat := 2 ^ P.ovfWidth - 1

end Sys2Proof.Machine
end

