-- ==== Sys2Proof/Machine/Flags.lean ====
section
/-! DEFINITION. The bits of CTL and FLG (10_state.md R25 to R30) and every rule that computes one: capture edges, rollovers,
polarity, set and clear masks. -/

namespace Sys2Proof.Machine

/-- CTL.CNTEN, bit 0 (R26). -/
def Ecu.cnten (e : Ecu) : Bool := e.ctl.getLsbD 0

/-- CTL.CAPEN, bit 1 (R27). -/
def Ecu.capen (e : Ecu) : Bool := e.ctl.getLsbD 1

/-- CTL.OVFIE, bit 2 (R28). -/
def Ecu.ovfie (e : Ecu) : Bool := e.ctl.getLsbD 2

/-- CTL.POL, bit 3: false = Rising, true = Falling (R29). -/
def Ecu.pol (e : Ecu) : Bool := e.ctl.getLsbD 3

/-- FLG.CAPF, bit 0 (R30). -/
def Ecu.capf (e : Ecu) : Bool := e.flg.getLsbD 0

/-- FLG.OVFF, bit 1 (R30). -/
def Ecu.ovff (e : Ecu) : Bool := e.flg.getLsbD 1

/-- CTL with CAPEN set (R117, R121). -/
def ctlArm (c : BitVec 4) : BitVec 4 := c ||| 0b0010#4

/-- CTL with CAPEN clear (R118). -/
def ctlDisarm (c : BitVec 4) : BitVec 4 := c &&& 0b1101#4

/-- CTL with POL inverted (R117, R118). -/
def ctlTurn (c : BitVec 4) : BitVec 4 := c ^^^ 0b1000#4

/-- FLG with CAPF set (R112, R113). -/
def flgSetCap (f : BitVec 2) : BitVec 2 := f ||| 0b01#2

/-- FLG with CAPF clear (R117, R118). -/
def flgClearCap (f : BitVec 2) : BitVec 2 := f &&& 0b10#2

/-- FLG with OVFF set (R110). -/
def flgSetOvf (f : BitVec 2) : BitVec 2 := f ||| 0b10#2

/-- FLG with OVFF clear (R114). -/
def flgClearOvf (f : BitVec 2) : BitVec 2 := f &&& 0b01#2

/-- A change of ECHO to `level` is a capture edge: capture is enabled and the polarity is that of the change (R27, R29). -/
def Ecu.isCaptureEdge (e : Ecu) (level : Bool) : Bool := e.capen && (e.pol == !level)

/-- The unit after a change of ECHO to `level` (R112, R113). -/
def Ecu.afterEdge (e : Ecu) (level : Bool) : Ecu :=
  { e with echo := level, flg := if e.isCaptureEdge level then flgSetCap e.flg else e.flg }

/-- The unit after one tick (R110): the literal text of the rule, used to say what `TICK n` is. -/
def Ecu.afterTick (e : Ecu) : Ecu :=
  if e.cnten then
    if e.cnt = 65535#16 then { e with cnt := 0, flg := flgSetOvf e.flg } else { e with cnt := e.cnt + 1 }
  else e

/-- The unit after `n` ticks in one computation: a rollover happened if CNT + n reached the modulus (R110; log 17). -/
def Ecu.afterTicks (e : Ecu) (n : Nat) : Ecu :=
  if e.cnten then
    { e with
      cnt := e.cnt + BitVec.ofNat 16 n
      flg := if 65536 ≤ e.cnt.toNat + n then flgSetOvf e.flg else e.flg }
  else e

end Sys2Proof.Machine
end

