-- ==== Sys2Proof/Machine/Operands.lean ====
section
/-! DEFINITION. What an operand stands for (30_encoding.md R83, R84): resource ids, pattern bits, masks, operator bytes, and
the zero extension of R49. -/

namespace Sys2Proof.Machine

/-- The resource an id names; 5 to 7 name none (R61, R66). -/
def resourceOfId (r : BitVec 3) : Option Resource :=
  match r.toNat with
  | 0 => some .mode
  | 1 => some .cmdmb
  | 2 => some .distmb
  | 3 => some .ovfcnt
  | 4 => some .captmr
  | _ => none

/-- `P[i]`, bit `i` of a pattern byte (R15). -/
def patternBit (p : Byte) (i : Nat) : Bool := p.getLsbD i

/-- `zext_32` (R14, R49). -/
def zext32 {n : Nat} (v : BitVec n) : BitVec 32 := v.setWidth 32

/-- `v | m` of `CTL.SET` (R130). -/
def maskSet {n : Nat} (v m : BitVec n) : BitVec n := v ||| m

/-- `v & ¬m` of `CTL.CLR` and `FLG.CLR` (R131, R132). -/
def maskClear {n : Nat} (v m : BitVec n) : BitVec n := v &&& ~~~m

/-- What an operator byte means (R94, R212). -/
inductive ByteClass where
  | toggle
  | command (c : Command)
  | unmapped
deriving DecidableEq, Repr

/-- The class of a byte under the byte values `t` (R94, R217). The two bytes the source gives are tested first, so that they
have their meaning whatever the OPEN bytes are; for admissible bytes the order does not matter (log 24). -/
def classifyByte (t : OpenBytes) (b : Byte) : ByteClass :=
  if b = 0x42#8 then .command .forward
  else if b = 0x43#8 then .command .reverse
  else if b = t.toggle then .toggle
  else if b = t.right then .command .rightTurn
  else if b = t.left then .command .leftTurn
  else if b = t.brake then .command .brake
  else if b = t.stop then .command .stop
  else if b = t.donut then .command .donut
  else .unmapped

/-- The duty of a scan position (R229: OPEN). -/
def scannerDuty : ScanPos → Fin 101
  | .right => Config.scannerDutyRight
  | .middle => Config.scannerDutyMiddle
  | .left => Config.scannerDutyLeft

end Sys2Proof.Machine
end

