-- ==== Sys2Proof/Machine/Ops.lean ====
section
/-! DEFINITION. The shared operations: refusal, pins, shared resources, pending and takeable sources, entry and leave of a
context (the block's exception entry and return), locks, and the guards every operation is written over. -/

namespace Sys2Proof.Machine

/-! ### Refusal and conclusion of a step -/

/-- `refuse(code)` (R240): ERR takes the code if it was 0; nothing else changes. -/
def refuse (c : RefusalCode) (s : State) : State :=
  { s with err := if s.err = 0 then refusalCode c else s.err }

/-- The outcome of an operation: its next state, or the refusal of the whole step (R240, R242). -/
def conclude (s : State) (r : Except RefusalCode State) : Host.Outcome State Fault Refusal :=
  match r with
  | .ok s' => .next s'
  | .error c => .next (refuse c s)

/-! ### Pins -/

/-- The level of a pin. -/
def setLevel (p : Pin) (b : Bool) (s : State) : State :=
  match p with
  | .trigPin => { s with ecu := { s.ecu with trigPin := b } }
  | .data => { s with mpe := { s.mpe with data := b } }
  | .clk => { s with mpe := { s.mpe with clk := b } }
  | .latch => { s with mpe := { s.mpe with latch := b } }

/-- `pin X <- b` (R16, R45): the level, and the record of the write with the time, also when the level does not change. -/
def drivePin (p : Pin) (b : Bool) (s : State) : State :=
  let s' := setLevel p b s
  { s' with pinTrace := s'.pinTrace ++ [⟨p, b, s.now⟩] }

/-! ### Shared resources -/

/-- The whole content of a shared resource (R61, R62). -/
inductive Content where
  | mode (m : OpMode) (ind : Bool)
  | cmdmb (c : Option Command)
  | distmb (d : Option Nat)
  | ovfcnt (v : Nat)
  | captmr (cnt : BitVec 16) (ctl : BitVec 4) (flg : BitVec 2)
deriving DecidableEq, Repr

/-- The resource a content belongs to (R61). -/
def Content.resource : Content → Resource
  | .mode _ _ => .mode
  | .cmdmb _ => .cmdmb
  | .distmb _ => .distmb
  | .ovfcnt _ => .ovfcnt
  | .captmr _ _ _ => .captmr

/-- `MemRead(r)` (R62). -/
def memRead (r : Resource) (s : State) : Content :=
  match r with
  | .mode => .mode s.host.mode s.host.ind
  | .cmdmb => .cmdmb s.host.cmdmb
  | .distmb => .distmb s.ecu.distmb
  | .ovfcnt => .ovfcnt s.ecu.ovf
  | .captmr => .captmr s.ecu.cnt s.ecu.ctl s.ecu.flg

/-- `MemWrite(r, v)` (R62): the whole content is replaced; a full mailbox is overwritten (R63). -/
def memWrite (c : Content) (s : State) : State :=
  match c with
  | .mode m b => { s with host := { s.host with mode := m, ind := b } }
  | .cmdmb v => { s with host := { s.host with cmdmb := v } }
  | .distmb v => { s with ecu := { s.ecu with distmb := v } }
  | .ovfcnt v => { s with ecu := { s.ecu with ovf := v } }
  | .captmr n c f => { s with ecu := { s.ecu with cnt := n, ctl := c, flg := f } }

/-! ### The running agent, pending and takeable sources -/

/-- RUN, the agent of the top frame (R41). ACT is never empty (R187); on an empty list NAV, the base context (log 8). -/
def run (s : State) : Agent :=
  match s.pcl.act with
  | f :: _ => f.agent
  | [] => .nav

/-- `pending(b)` (R44). -/
def pending (s : State) : Agent → Bool
  | .ovf => s.ecu.ovff && s.ecu.ovfie
  | .cap => s.ecu.capf
  | .uart => s.host.rxf && s.host.rxie
  | .trig => s.ecu.trigSt == .pending || (s.ecu.trigSt == .sleep && decide (s.ecu.trigDl ≤ s.now))
  | .nav => false

/-- Pending with a priority above EPRI (R185). -/
def contends (s : State) (b : Agent) (P : Params := Config.params) : Bool := pending s b && decide (s.pcl.epri < prio b P)

/-- Takeable (R185): it contends and no source of higher priority does. -/
def takeable (s : State) (b : Agent) (P : Params := Config.params) : Bool :=
  contends s b P && sources.all fun c => !(decide (prio b P < prio c P) && contends s c P)

/-- Some source is takeable (R186). -/
def anyTakeable (s : State) (P : Params := Config.params) : Bool := sources.any fun b => takeable s b P

/-! ### Entry and leave of a context -/

/-- Entry of agent `b` (R184, R251): the frame saves the preempted effective priority, EPRI becomes the priority of `b`. -/
def enter (b : Agent) (s : State) (P : Params := Config.params) : State :=
  { s with pcl := { s.pcl with act := ⟨b, s.pcl.epri⟩ :: s.pcl.act, epri := prio b P } }

/-- The agent holds some lock (R187). -/
def holdsAny (s : State) (b : Agent) : Bool := s.pcl.lckstk.any fun e => e.agent == b

/-- Leave of the running agent (R187, R252): refused while it holds a lock; otherwise its frame is popped and the saved
effective priority restored. NAV never leaves: with NAV on top nothing enables it (log 9). -/
def leave (s : State) : Except RefusalCode State :=
  match s.pcl.act with
  | ⟨.nav, _⟩ :: _ => .error .notEnabled
  | f :: rest =>
    if holdsAny s f.agent then .error .leaveLocked
    else .ok { s with pcl := { s.pcl with act := rest, epri := f.saved } }
  | [] => .error .notEnabled

/-- A service of source `b` (R184): enabled when `b` is takeable; entry, body and leave in the one step. -/
def serve (b : Agent) (body : State → Except RefusalCode State) (s : State) (P : Params := Config.params) :
    Except RefusalCode State :=
  if takeable s b P then
    match body (enter b s P) with
    | .ok s' => leave s'
    | .error c => .error c
  else .error .notEnabled

/-! ### Guards of the running agent's operations -/

/-- The running agent owns the operation in progress in the encoder: it has no enabled step but `ENC.STEP` (R37, R158;
log 7). -/
def ownerBlocked (s : State) : Bool := s.mpe.busy && (s.mpe.owner == run s)

/-- The running agent's own delay has not ended (R17): NAV's busy-wait (R228), or the wait of the emitter between its pin writes
(R122, R123). The encoder's waits are those of `ownerBlocked` and of `ENC.STEP`; a handler has none. -/
def waiting (s : State) : Bool :=
  match run s with
  | .nav => decide (s.now < s.host.navDl)
  | .trig => (s.ecu.trigSt == .run2 || s.ecu.trigSt == .run3) && decide (s.now < s.ecu.trigDl)
  | .uart => false
  | .cap => false
  | .ovf => false

/-- The running agent has no enabled step: a source is takeable (R186), or the agent's own delay lasts (R17, and U5 of
93_implementation_defined.md: the waiting agent has no enabled step before its deadline). DEDUCED: this holds of every operation
of the waiting agent, of `TRIG.REQ` and `LOCK` too, of which R126 and R182 name no such condition (log 29). -/
def heldOff (s : State) (P : Params := Config.params) : Bool := anyTakeable s P || waiting s

/-- The general enabling condition of an operation of the running agent (R186, R17, R37): it is not held off, and the agent is
not blocked in the encoder (logs 7, 29). -/
def asRunning (s : State) (k : Except RefusalCode State) (P : Params := Config.params) : Except RefusalCode State :=
  if heldOff s P || ownerBlocked s then .error .notEnabled else k

/-- HELD(r): the holder of `r`, read from LCKSTK (R43). -/
def heldBy (s : State) (r : Resource) : Option Agent :=
  (s.pcl.lckstk.find? fun e => e.res == r).map (·.agent)

/-- The holder check (R189). -/
def withHeld (s : State) (r : Resource) (k : Except RefusalCode State) : Except RefusalCode State :=
  if heldBy s r = some (run s) then k else .error .notHolder

/-- An operation of the running agent on a shared resource: enabling first, then the holder check (R242). -/
def onShared (s : State) (r : Resource) (k : State) (P : Params := Config.params) : Except RefusalCode State :=
  asRunning s (withHeld s r (.ok k)) P

/-! ### Locks -/

/-- The higher of two effective priorities. -/
def raise (e c : Prio) : Prio := if e < c then c else e

/-- The body of `LOCK r` (R182), checks in the order of its pseudocode (R242). -/
def acquire (r : Resource) (s : State) (P : Params := Config.params) : Except RefusalCode State :=
  if ceil r P < prio (run s) P then .error .lockCeiling
  else if (heldBy s r).isSome then .error .lockHeld
  else
    .ok { s with pcl := { s.pcl with
      lckstk := ⟨run s, r, s.pcl.epri⟩ :: s.pcl.lckstk
      epri := raise s.pcl.epri (ceil r P) } }

/-- The body of `UNLOCK r` (R183): only the most recent lock, and only by its holder. -/
def release (r : Resource) (s : State) : Except RefusalCode State :=
  match s.pcl.lckstk with
  | e :: rest =>
    if e.agent = run s ∧ e.res = r then
      .ok { s with pcl := { s.pcl with lckstk := rest, epri := e.saved } }
    else .error .unlockOrder
  | [] => .error .unlockOrder

/-- `LOCK r` by the running agent (R182, R186). -/
def lockOp (r : Resource) (s : State) (P : Params := Config.params) : Except RefusalCode State :=
  asRunning s (acquire r s P) P

/-- `UNLOCK r` by the running agent (R183, R186). -/
def unlockOp (r : Resource) (s : State) (P : Params := Config.params) : Except RefusalCode State :=
  asRunning s (release r s) P

/-! ### The operation port -/

/-- What the port presents next, and the state in which it is taken (R262; log 1). -/
def presented (s : State) : Option (PortItem × State) :=
  match s.stream with
  | x :: rest => some (x, { s with stream := rest })
  | [] => none

end Sys2Proof.Machine
end

