-- ==== Sys2Proof/Machine/Arbiter.lean ====
section
/-! DEFINITION. `LOCK` and `UNLOCK` (42_lock_arbiter.md R182, R183). -/

namespace Sys2Proof.Machine

/-- An operation on the resource an id names; an id of no resource is the reserved encoding of R100, and decoding is checked
before anything else (R242; log 16). -/
def onResourceId (r : BitVec 3) (k : Resource → Except RefusalCode State) : Except RefusalCode State :=
  match resourceOfId r with
  | some q => k q
  | none => .error .illegalOp

/-- `LOCK r` (R182). -/
def execLock (r : BitVec 3) (s : State) : Host.Outcome State Fault Refusal :=
  conclude s (onResourceId r fun q => lockOp q s)

/-- `UNLOCK r` (R183). -/
def execUnlock (r : BitVec 3) (s : State) : Host.Outcome State Fault Refusal :=
  conclude s (onResourceId r fun q => unlockOp q s)

end Sys2Proof.Machine
end

