-- ==== Sys2Proof/Machine/Capture.lean ====
section
/-! DEFINITION. The overflow and capture services (40_capture.md R114 to R120, R138). -/

namespace Sys2Proof.Machine

/-- `ovf_next(v)` (R115), under either OVF_RULE and any OVF_WIDTH. The sum has OVF_WIDTH bits; with the rule `after` OVF_MAX is
never stored (log 19). -/
def ovfNext (P : Params) (v : Nat) : Nat :=
  match P.ovfRule with
  | .after => if v + 1 = ovfMax P then 0 else (v + 1) % 2 ^ P.ovfWidth
  | .before => if v = ovfMax P then 0 else (v + 1) % 2 ^ P.ovfWidth

/-- The body of `SVC.OVF` (R114). -/
def countRollover (P : Params) (s : State) : State :=
  { s with ecu := { s.ecu with flg := flgClearOvf s.ecu.flg, ovf := ovfNext P s.ecu.ovf } }

/-- `SVC.OVF` under the parameters `P` (R114, R184). -/
def serviceOverflow (P : Params) (s : State) : Except RefusalCode State :=
  serve .ovf (fun t => .ok (countRollover P t)) s P

/-- `ELAPSED(t1, t2, ovf)`, over the integers (R119). -/
def elapsed (t1 t2 : BitVec 16) (ovf : Nat) : Int :=
  (t2.toNat : Int) + (ovf : Int) * 65536 - (t1.toNat : Int)

/-- `DIST(T)`, exact (R120). -/
def distanceOf (t : Nat) : Nat := distNum * t / distDen

/-- Publication of the Done arm (R118): the distance when the elapsed time is not negative and the distance fits, otherwise a
value about which nothing is known (log 4). The mailbox is overwritten either way (R63). -/
def publish (P : Params) (e : Int) (s : State) : State :=
  if 0 ≤ e ∧ distanceOf e.toNat < 2 ^ P.distWidth then memWrite (.distmb (some (distanceOf e.toNat))) s
  else { memWrite (.distmb (some (Config.anyDistance P.distWidth s.draws).toNat)) s with draws := s.draws + 1 }

/-- Idle arm of `SVC.CAP` (R117). -/
def idleArm (s : State) : State :=
  { s with ecu := { s.ecu with
      t1 := s.ecu.cnt
      ctl := ctlArm (ctlTurn s.ecu.ctl)
      ovf := 0
      ecs := .done
      flg := flgClearCap s.ecu.flg } }

/-- Done arm of `SVC.CAP` (R118). -/
def doneArm (P : Params) (s : State) : State :=
  publish P (elapsed s.ecu.t1 s.ecu.cnt s.ecu.ovf)
    { s with ecu := { s.ecu with
        t2 := s.ecu.cnt
        ctl := ctlDisarm (ctlTurn s.ecu.ctl)
        ecs := .idle
        flg := flgClearCap s.ecu.flg } }

/-- The arm the state of the capture machine selects (R116). -/
def captureArm (P : Params) (s : State) : State :=
  match s.ecu.ecs with
  | .idle => idleArm s
  | .done => doneArm P s

/-- Position A of the split service (R138): the accesses under CAPTMR. -/
def splitA (s : State) : State :=
  match s.ecu.ecs with
  | .idle =>
    { s with ecu := { s.ecu with
        t1 := s.ecu.cnt, ctl := ctlArm (ctlTurn s.ecu.ctl), flg := flgClearCap s.ecu.flg, capPh := .b } }
  | .done =>
    { s with ecu := { s.ecu with
        t2 := s.ecu.cnt, ctl := ctlDisarm (ctlTurn s.ecu.ctl), flg := flgClearCap s.ecu.flg, capPh := .b } }

/-- Position B of the split service (R138): the access under OVFCNT. -/
def splitB (s : State) : State :=
  match s.ecu.ecs with
  | .idle => { s with ecu := { s.ecu with ovf := 0, capPh := .c } }
  | .done => { s with ecu := { s.ecu with capOvf := s.ecu.ovf, capPh := .c } }

/-- Position C of the split service (R138): ECS toggles, and the Done arm publishes under DISTMB. -/
def splitC (P : Params) (s : State) : State :=
  match s.ecu.ecs with
  | .idle => { s with ecu := { s.ecu with ecs := .done, capPh := .a } }
  | .done => publish P (elapsed s.ecu.t1 s.ecu.t2 s.ecu.capOvf) { s with ecu := { s.ecu with ecs := .idle, capPh := .a } }

/-- `SVC.CAP` as three steps (R138): entered at A, left at C; at B and C the CAP handler is the running agent. -/
def serviceSplit (P : Params) (s : State) : Except RefusalCode State :=
  match s.ecu.capPh with
  | .a => if takeable s .cap P then .ok (splitA (enter .cap s P)) else .error .notEnabled
  | .b => if run s = .cap then asRunning s (.ok (splitB s)) P else .error .notEnabled
  | .c => if run s = .cap then asRunning s (leave (splitC P s)) P else .error .notEnabled

/-- `SVC.CAP` under the parameters `P` (R116, R138). -/
def serviceCapture (P : Params) (s : State) : Except RefusalCode State :=
  if P.captureSplit then serviceSplit P s else serve .cap (fun t => .ok (captureArm P t)) s P

/-- `SVC.OVF` (R114). -/
def execSvcOvf (s : State) : Host.Outcome State Fault Refusal := conclude s (serviceOverflow Config.params s)

/-- `SVC.CAP` (R116). -/
def execSvcCap (s : State) : Host.Outcome State Fault Refusal := conclude s (serviceCapture Config.params s)

end Sys2Proof.Machine
end

