-- ==== Sys2Proof/Machine/Control.lean ====
section
/-! DEFINITION. The operations on the DistanceMailbox and on the capture timer (40_capture.md R128 to R135, R140). -/

namespace Sys2Proof.Machine

/-- A read of CAPTMR into RES (R133 to R135): no side effect (R68). -/
def readTimer {n : Nat} (v : BitVec n) (s : State) (P : Params := Config.params) : Except RefusalCode State :=
  onShared s .captmr { s with res := some (zext32 v).toNat } P

/-- `DIST.RD` by the running agent (R128): the mailbox is not emptied (R64). -/
def readDistance (s : State) (P : Params := Config.params) : Except RefusalCode State :=
  onShared s .distmb { s with res := s.ecu.distmb } P

/-- `DIST.CLR` by the running agent (R129). -/
def clearDistance (s : State) (P : Params := Config.params) : Except RefusalCode State :=
  onShared s .distmb (memWrite (.distmb none) s) P

/-- A new value of CTL by the running agent (R130, R131): read-modify-write in the one step (R62). -/
def writeCtl (v : BitVec 4) (s : State) (P : Params := Config.params) : Except RefusalCode State :=
  onShared s .captmr (memWrite (.captmr s.ecu.cnt v s.ecu.flg) s) P

/-- A new value of FLG by the running agent (R132). -/
def writeFlg (v : BitVec 2) (s : State) (P : Params := Config.params) : Except RefusalCode State :=
  onShared s .captmr (memWrite (.captmr s.ecu.cnt s.ecu.ctl v) s) P

/-- `DIST.RD` (R128). -/
def execDistRd (s : State) : Host.Outcome State Fault Refusal := conclude s (readDistance s)

/-- `DIST.CLR` (R129). -/
def execDistClr (s : State) : Host.Outcome State Fault Refusal := conclude s (clearDistance s)

/-- `CTL.SET m` (R130). -/
def execCtlSet (m : BitVec 4) (s : State) : Host.Outcome State Fault Refusal :=
  conclude s (writeCtl (maskSet s.ecu.ctl m) s)

/-- `CTL.CLR m` (R131). -/
def execCtlClr (m : BitVec 4) (s : State) : Host.Outcome State Fault Refusal :=
  conclude s (writeCtl (maskClear s.ecu.ctl m) s)

/-- `FLG.CLR m` (R132). -/
def execFlgClr (m : BitVec 2) (s : State) : Host.Outcome State Fault Refusal :=
  conclude s (writeFlg (maskClear s.ecu.flg m) s)

/-- `CNT.RD` (R133). -/
def execCntRd (s : State) : Host.Outcome State Fault Refusal := conclude s (readTimer s.ecu.cnt s)

/-- `CTL.RD` (R134). -/
def execCtlRd (s : State) : Host.Outcome State Fault Refusal := conclude s (readTimer s.ecu.ctl s)

/-- `FLG.RD` (R135). -/
def execFlgRd (s : State) : Host.Outcome State Fault Refusal := conclude s (readTimer s.ecu.flg s)

end Sys2Proof.Machine
end

