-- ==== Sys2Proof/Machine/Encoder.lean ====
section
/-! DEFINITION. The motor-protocol encoder (41_encoder.md R150 to R166). -/

namespace Sys2Proof.Machine

/-- Acceptance of a serialization by the running agent (R158, R160): no pin is written. A busy encoder refuses with ENC_BUSY,
after the general condition (R242; logs 7, 29). -/
def acceptOp (cmd : Option Command) (pat : Byte) (s : State) (P : Params := Config.params) :
    Except RefusalCode State :=
  if heldOff s P then .error .notEnabled
  else if s.mpe.busy then .error .encBusy
  else
    .ok { s with mpe := { s.mpe with
      busy := true, owner := run s, cmd := cmd, pat := pat, phase := .main, pos := 0 } }

/-- `EXEC c` (R158). -/
def commandOp (c : Command) (s : State) (P : Params := Config.params) : Except RefusalCode State :=
  acceptOp (some c) (pattern c) s P

/-- What a position of the serializer does (R162). -/
inductive MicroStep where
  | latchLow
  | data (k : Nat)
  | clkHigh
  | clkLow
  | latchHigh
deriving DecidableEq, Repr

/-- The table of R162: position 0, then 1 + 3k, 2 + 3k, 3 + 3k for the k-th bit sent, then 25. -/
def microStep (pos : Fin 26) : MicroStep :=
  if pos.val = 0 then .latchLow
  else if pos.val = 25 then .latchHigh
  else match (pos.val - 1) % 3 with
    | 0 => .data ((pos.val - 1) / 3)
    | 1 => .clkHigh
    | _ => .clkLow

/-- The pin and level a micro-step writes; the k-th bit sent is `P[7 − k]`, inverted (R162, R92). -/
def microPin (pat : Byte) : MicroStep → Pin × Bool
  | .latchLow => (.latch, false)
  | .data k => (.data, !patternBit pat (7 - k))
  | .clkHigh => (.clk, true)
  | .clkLow => (.clk, false)
  | .latchHigh => (.latch, true)

/-- The micro-step waits for ENC_DL: every DATA write but the first, and the last micro-step (R162). -/
def microWaits : MicroStep → Bool
  | .latchLow => false
  | .data k => decide (0 < k)
  | .clkHigh => false
  | .clkLow => false
  | .latchHigh => true

/-- The deadline a micro-step sets: 5 ms after the falling clock edge (R162). -/
def microDeadline (now dl : Nat) : MicroStep → Nat
  | .latchLow => dl
  | .data _ => dl
  | .clkHigh => dl
  | .clkLow => now + ms bitDelayMs
  | .latchHigh => dl

/-- End of a serialization (R163): the hold of a transient command, or the end of the operation. -/
def endSerialization (s : State) : State :=
  match s.mpe.phase, s.mpe.cmd.bind holdMs with
  | .main, some h => { s with mpe := { s.mpe with phase := .hold, dl := s.now + ms h, pos := 0 } }
  | _, _ => { s with mpe := { s.mpe with busy := false, cmd := none, pos := 0 } }

/-- One micro-step of phase Main or Zero (R162): the pin write, then the next position or the end (R163). -/
def serialStep (s : State) : Except RefusalCode State :=
  let m := microStep s.mpe.pos
  if microWaits m && decide (s.now < s.mpe.dl) then .error .notEnabled
  else
    let t := drivePin (microPin s.mpe.pat m).1 (microPin s.mpe.pat m).2 s
    if s.mpe.pos.val = 25 then .ok (endSerialization t)
    else .ok { t with mpe := { t.mpe with pos := s.mpe.pos + 1, dl := microDeadline s.now s.mpe.dl m } }

/-- The step out of the hold (R163): no pin is written. -/
def endHold (s : State) : Except RefusalCode State :=
  if s.now < s.mpe.dl then .error .notEnabled
  else .ok { s with mpe := { s.mpe with phase := .zero, pat := 0, pos := 0 } }

/-- `ENC.STEP` by the encoder's owner (R162, R163). -/
def encoderStep (s : State) (P : Params := Config.params) : Except RefusalCode State :=
  if s.mpe.busy = true ∧ s.mpe.owner = run s ∧ heldOff s P = false then
    match s.mpe.phase with
    | .main => serialStep s
    | .zero => serialStep s
    | .hold => endHold s
  else .error .notEnabled

/-- `EXEC FWD` (R151). -/
def execExecFwd (s : State) : Host.Outcome State Fault Refusal := conclude s (commandOp .forward s)

/-- `EXEC REV` (R152). -/
def execExecRev (s : State) : Host.Outcome State Fault Refusal := conclude s (commandOp .reverse s)

/-- `EXEC RT` (R153). -/
def execExecRt (s : State) : Host.Outcome State Fault Refusal := conclude s (commandOp .rightTurn s)

/-- `EXEC LT` (R154). -/
def execExecLt (s : State) : Host.Outcome State Fault Refusal := conclude s (commandOp .leftTurn s)

/-- `EXEC BRK` (R155). -/
def execExecBrk (s : State) : Host.Outcome State Fault Refusal := conclude s (commandOp .brake s)

/-- `EXEC STP` (R156). -/
def execExecStp (s : State) : Host.Outcome State Fault Refusal := conclude s (commandOp .stop s)

/-- `EXEC DNT` (R157). -/
def execExecDnt (s : State) : Host.Outcome State Fault Refusal := conclude s (commandOp .donut s)

/-- `SHIFT p` (R160). -/
def execShift (p : Byte) (s : State) : Host.Outcome State Fault Refusal := conclude s (acceptOp none p s)

/-- `ENC.STEP` (R162). -/
def execEncStep (s : State) : Host.Outcome State Fault Refusal := conclude s (encoderStep s)

end Sys2Proof.Machine
end

