-- ==== Sys2Proof/Machine/Environment.lean ====
section
/-! DEFINITION. The environment events (40_capture.md section 1, 43_host_clients.md R210). None is ever held by an agent, a lock
or a priority (R186). -/

namespace Sys2Proof.Machine

/-- `n` ticks pass (R110). -/
def elapse (n : Nat) (s : State) : State :=
  { s with now := s.now + n, ecu := s.ecu.afterTicks n }

/-- One tick passes: the body that R110 repeats `n` times. -/
def elapseOne (s : State) : State :=
  { s with now := s.now + 1, ecu := s.ecu.afterTick }

/-- A change of the echo line to `level`; the line has to be at the other level (R112, R113). -/
def echoChange (level : Bool) (s : State) : Except RefusalCode State :=
  if s.ecu.echo = level then .error .notEnabled else .ok { s with ecu := s.ecu.afterEdge level }

/-- `TICK n` (R110). -/
def execTick (n : BitVec 24) (s : State) : Host.Outcome State Fault Refusal :=
  .next (elapse n.toNat s)

/-- `ECHO.R` (R112). -/
def execEchoR (s : State) : Host.Outcome State Fault Refusal := conclude s (echoChange true s)

/-- `ECHO.F` (R113). -/
def execEchoF (s : State) : Host.Outcome State Fault Refusal := conclude s (echoChange false s)

/-- `RX b` (R210): a later byte replaces an unserved one. -/
def execRx (b : Byte) (s : State) : Host.Outcome State Fault Refusal :=
  .next { s with host := { s.host with rxbyte := b, rxf := true } }

end Sys2Proof.Machine
end

