-- ==== Sys2Proof/Machine/Host.lean ====
section
/-! DEFINITION. CommandIngest, the UART handler (43_host_clients.md R211 to R217). -/

namespace Sys2Proof.Machine

/-- `decode(b)` (R212, R214, R215). -/
def decodeOperator (t : OpenBytes) (b : Byte) (s : State) : State :=
  match classifyByte t b with
  | .toggle =>
    match s.host.mode with
    | .auto => memWrite (.cmdmb (some .brake)) (memWrite (.mode .manual false) s)
    | .manual => memWrite (.mode .auto true) s
  | .command c =>
    match s.host.mode with
    | .manual => memWrite (.cmdmb (some c)) s
    | .auto => s
  | .unmapped => s

/-- The first part of the handler (R211): receive interrupts off, the byte taken and echoed (R216). -/
def receiveByte (s : State) : State :=
  { s with host := { s.host with rxie := false, rxf := false, txlog := s.host.txlog ++ [s.host.rxbyte] } }

/-- The decode under the shared-state lock, taken as the locks of MODE and CMDMB (R211, R213; log 18). -/
def decodeLocked (P : Params) (b : Byte) (s : State) : Except RefusalCode State :=
  match acquire .mode s P with
  | .error c => .error c
  | .ok s1 =>
    match acquire .cmdmb s1 P with
    | .error c => .error c
    | .ok s2 =>
      match release .cmdmb (decodeOperator P.bytes b s2) with
      | .error c => .error c
      | .ok s3 => release .mode s3

/-- The body of `SVC.RX` (R211): the byte is echoed, decoded under lock, and receive interrupts are enabled again. -/
def ingest (P : Params) (s : State) : Except RefusalCode State :=
  match decodeLocked P s.host.rxbyte (receiveByte s) with
  | .ok s' => .ok { s' with host := { s'.host with rxie := true } }
  | .error c => .error c

/-- `SVC.RX` under the parameters `P` (R211, R184). -/
def serviceUart (P : Params) (s : State) : Except RefusalCode State := serve .uart (ingest P) s P

/-- `SVC.RX` (R211). -/
def execSvcRx (s : State) : Host.Outcome State Fault Refusal := conclude s (serviceUart Config.params s)

end Sys2Proof.Machine
end

