-- ==== Sys2Proof/Machine/Trigger.lean ====
section
/-! DEFINITION. The trigger emitter (40_capture.md R121 to R126). -/

namespace Sys2Proof.Machine

/-- The body of `TRIG.REQ` (R126): a request to a busy emitter is a no-op. -/
def requestPulse (s : State) : State :=
  match s.ecu.trigSt with
  | .off => { s with ecu := { s.ecu with trigSt := .pending } }
  | .pending => s
  | .run1 => s
  | .run2 => s
  | .run3 => s
  | .sleep => s

/-- `TRIG.REQ` by the running agent (R126, R186). -/
def requestOp (s : State) (P : Params := Config.params) : Except RefusalCode State :=
  asRunning s (.ok (requestPulse s)) P

/-- First micro-step (R121): the TRIG task is entered and arms capture. The critical section on CAPTMR begins and ends inside
the step and is exempt from the lock rules (R189, log 25). -/
def startPulse (s : State) (P : Params := Config.params) : Except RefusalCode State :=
  if takeable s .trig P then
    let t := enter .trig s P
    .ok { t with ecu := { t.ecu with ctl := ctlArm t.ecu.ctl, trigSt := .run1 } }
  else .error .notEnabled

/-- A pin write of the emitter, the deadline after it, and its next position (R122 to R124). -/
def pulseEdge (level : Bool) (wait : Nat) (next : TrigState) (s : State) : State :=
  let t := drivePin .trigPin level s
  { t with ecu := { t.ecu with trigDl := s.now + wait, trigSt := next } }

/-- A micro-step of the running TRIG task (R122 to R124): RUN = TRIG, no source takeable, deadline `dl` reached. -/
def asEmitter (s : State) (dl : Nat) (k : Except RefusalCode State) (P : Params := Config.params) :
    Except RefusalCode State :=
  if run s = .trig ∧ dl ≤ s.now then asRunning s k P else .error .notEnabled

/-- `TRIG.STEP` (R121 to R124), by the state of the emitter. -/
def emitterStep (s : State) (P : Params := Config.params) : Except RefusalCode State :=
  match s.ecu.trigSt with
  | .off => .error .notEnabled
  | .pending => startPulse s P
  | .run1 => asEmitter s 0 (.ok (pulseEdge false trigLowUs .run2 s)) P
  | .run2 => asEmitter s s.ecu.trigDl (.ok (pulseEdge true trigHighUs .run3 s)) P
  | .run3 => asEmitter s s.ecu.trigDl (leave (pulseEdge false (ms trigSleepMs) .sleep s)) P
  | .sleep => .error .notEnabled

/-- `TRIG.WAKE` (R125): the task resumes and ends inside the step. -/
def wakeOp (s : State) (P : Params := Config.params) : Except RefusalCode State :=
  if s.ecu.trigSt = .sleep then
    serve .trig (fun t => .ok { t with ecu := { t.ecu with trigSt := .off } }) s P
  else .error .notEnabled

/-- `TRIG.REQ` (R126). -/
def execTrigReq (s : State) : Host.Outcome State Fault Refusal := conclude s (requestOp s)

/-- `TRIG.STEP` (R121). -/
def execTrigStep (s : State) : Host.Outcome State Fault Refusal := conclude s (emitterStep s)

/-- `TRIG.WAKE` (R125). -/
def execTrigWake (s : State) : Host.Outcome State Fault Refusal := conclude s (wakeOp s)

end Sys2Proof.Machine
end

