-- ==== Sys2Proof/Machine/Dispatch.lean ====
section
/-! DEFINITION. One arm per operation of 30_encoding.md R80. -/

namespace Sys2Proof.Machine

def exec (i : Instr) (s : State) : Host.Outcome State Fault Refusal :=
  match i with
  | .tick n => Sys2Proof.Machine.execTick n s
  | .echoR => Sys2Proof.Machine.execEchoR s
  | .echoF => Sys2Proof.Machine.execEchoF s
  | .rx b => Sys2Proof.Machine.execRx b s
  | .svcOvf => Sys2Proof.Machine.execSvcOvf s
  | .svcCap => Sys2Proof.Machine.execSvcCap s
  | .trigReq => Sys2Proof.Machine.execTrigReq s
  | .trigStep => Sys2Proof.Machine.execTrigStep s
  | .trigWake => Sys2Proof.Machine.execTrigWake s
  | .distRd => Sys2Proof.Machine.execDistRd s
  | .distClr => Sys2Proof.Machine.execDistClr s
  | .ctlSet m => Sys2Proof.Machine.execCtlSet m s
  | .ctlClr m => Sys2Proof.Machine.execCtlClr m s
  | .flgClr m => Sys2Proof.Machine.execFlgClr m s
  | .cntRd => Sys2Proof.Machine.execCntRd s
  | .ctlRd => Sys2Proof.Machine.execCtlRd s
  | .flgRd => Sys2Proof.Machine.execFlgRd s
  | .execFwd => Sys2Proof.Machine.execExecFwd s
  | .execRev => Sys2Proof.Machine.execExecRev s
  | .execRt => Sys2Proof.Machine.execExecRt s
  | .execLt => Sys2Proof.Machine.execExecLt s
  | .execBrk => Sys2Proof.Machine.execExecBrk s
  | .execStp => Sys2Proof.Machine.execExecStp s
  | .execDnt => Sys2Proof.Machine.execExecDnt s
  | .shift p => Sys2Proof.Machine.execShift p s
  | .encStep => Sys2Proof.Machine.execEncStep s
  | .lock r => Sys2Proof.Machine.execLock r s
  | .unlock r => Sys2Proof.Machine.execUnlock r s
  | .svcRx => Sys2Proof.Machine.execSvcRx s

end Sys2Proof.Machine
end

