-- ==== Sys2Proof/Machine/Navigation.lean ====
section
/-! DEFINITION. The documented NavigationController (43_host_clients.md R220 to R230) as steps of NAV. Each turn takes one step
of the loop: a block operation, or one host access. The granularity is DEDUCED from programs P5 and P8 of the test vectors
(log 12). -/

namespace Sys2Proof.Machine

/-- `EXEC c` and its `ENC.STEP`s to the end. -/
def navExec (c : Command) : List NavAct := [.exec c, .encRun]

/-- Start of an iteration (R221). -/
def navIteration : List NavAct := [.lock .mode, .readMode]

/-- The polling of the Auto branch (R223). -/
def navPoll : List NavAct := [.lock .distmb, .distRd, .unlock .distmb, .takeReading]

/-- The branch the mode read selects (R222, R223). -/
def navBranch : OpMode → List NavAct
  | .manual => [.lock .cmdmb, .readCmd]
  | .auto => .request :: navPoll

/-- The execution of a drained command (R222): the debounce flag is cleared by every command but Forward. -/
def navRunCommand (k : Command) : List NavAct :=
  navExec k ++ (if k = .forward then [] else [.setDeb false])

/-- After `c <- H.CMDMB` (R222), with the lock released before the `EXEC` or held across it. -/
def navManual (underLock : Bool) : Option Command → List NavAct
  | none => [.unlock .cmdmb]
  | some k =>
    if underLock then navRunCommand k ++ [.clearCmd, .unlock .cmdmb]
    else .unlock .cmdmb :: (navRunCommand k ++ [.lock .cmdmb, .clearCmd, .unlock .cmdmb])

/-- End of every Auto iteration (R227). -/
def navFinish : List NavAct := [.lock .distmb, .distClr, .unlock .distmb]

/-- A scanner move and its settle (R224 to R226, R229). -/
def navMove (p : ScanPos) : List NavAct := [.scanner p, .delay (ms settleMs), .setScan p]

/-- The branch of the scan position with the reading `d` (R224 to R226). -/
def navScan (deb : Bool) (d : Nat) : ScanPos → List NavAct
  | .right => .setDr d :: navMove .left
  | .left => .setDl d :: (navMove .middle ++ [.decideTurn])
  | .middle =>
    if d ≤ stopThreshold then navExec .brake ++ (.setDeb false :: navMove .right)
    else if deb then []
    else navExec .forward ++ [.setDeb true]

/-- After a poll (R223): the branch of the scan and the end of the iteration, or another poll. -/
def navReading (eachPoll deb : Bool) (scan : ScanPos) : Option Nat → List NavAct
  | some d => navScan deb d scan ++ navFinish
  | none => if eachPoll then .request :: navPoll else navPoll

/-- The decision of the Left branch (R225). -/
def navTurn (dr dl : Nat) : List NavAct :=
  (if stopThreshold < max dr dl then
      (if dl < dr then navExec .rightTurn else navExec .leftTurn)
    else navExec .reverse ++ navExec .rightTurn)
    ++ [.setDeb false, .delay (ms postDecisionMs)]

/-- The reading an action holds (R224, R225). -/
def NavAct.reading : NavAct → Option Nat
  | .setDr d => some d
  | .setDl d => some d
  | .lock _ => none
  | .unlock _ => none
  | .readMode => none
  | .readCmd => none
  | .clearCmd => none
  | .request => none
  | .distRd => none
  | .takeReading => none
  | .distClr => none
  | .exec _ => none
  | .encRun => none
  | .scanner _ => none
  | .delay _ => none
  | .setScan _ => none
  | .setDeb _ => none
  | .decideTurn => none

/-- The next action of NAV and what follows it; an exhausted iteration starts the next (R220). -/
def navNext (s : State) : NavAct × List NavAct :=
  match s.host.nav with
  | a :: rest => (a, rest)
  | [] => (.lock .mode, [.readMode])

/-- NAV goes on with `rest`. -/
def navGo (rest : List NavAct) (s : State) : State := { s with host := { s.host with nav := rest } }

/-- A block operation of NAV: on success NAV goes on, on a refusal it stays where it is (log 14). -/
def navIssue (rest : List NavAct) (r : Except RefusalCode State) : Except RefusalCode State :=
  match r with
  | .ok s => .ok (navGo rest s)
  | .error c => .error c

/-- One action of NAV. Its own host accesses wait like its operations (R186); those to MODE and CMDMB need the lock (R189).
DESIGN CHOICE (log 30): an `ENC.STEP` presented as a word while NAV runs is a step of the same agent, so it may make micro-steps of
NAV's `EXEC`; when NAV's operation is over, however its last micro-step came, the turn at `encRun` goes on. -/
def navDo (P : Params) (a : NavAct) (rest : List NavAct) (s : State) : Except RefusalCode State :=
  match a with
  | .lock r => navIssue rest (lockOp r s P)
  | .unlock r => navIssue rest (unlockOp r s P)
  | .readMode => onShared s .mode (navGo (.unlock .mode :: (navBranch s.host.mode ++ rest)) s) P
  | .readCmd => onShared s .cmdmb (navGo (navManual P.navExecUnderLock s.host.cmdmb ++ rest) s) P
  | .clearCmd => onShared s .cmdmb (navGo rest (memWrite (.cmdmb none) s)) P
  | .request => navIssue rest (requestOp s P)
  | .distRd => navIssue rest (readDistance s P)
  | .takeReading =>
    asRunning s (.ok (navGo (navReading P.navReqEachPoll s.host.deb s.host.scan s.res ++ rest) s)) P
  | .distClr => navIssue rest (clearDistance s P)
  | .exec c => navIssue rest (commandOp c s P)
  | .encRun =>
    if ownerBlocked s then
      match encoderStep s P with
      | .ok t => .ok (if t.mpe.busy then t else navGo rest t)
      | .error c => .error c
    else asRunning s (.ok (navGo rest s)) P
  | .setDr d => asRunning s (.ok (navGo rest { s with host := { s.host with dr := d } })) P
  | .setDl d => asRunning s (.ok (navGo rest { s with host := { s.host with dl := d } })) P
  | .scanner p => asRunning s (.ok (navGo rest { s with host := { s.host with scanDuty := scannerDuty p } })) P
  | .delay n => asRunning s (.ok (navGo rest { s with host := { s.host with navDl := s.now + n } })) P
  | .setScan p => asRunning s (.ok (navGo rest { s with host := { s.host with scan := p } })) P
  | .setDeb b => asRunning s (.ok (navGo rest { s with host := { s.host with deb := b } })) P
  | .decideTurn => asRunning s (.ok (navGo (navTurn s.host.dr s.host.dl ++ rest) s)) P

/-- NAV's turn under the parameters `P` (R220): NAV is the running agent. That its busy-wait is over (R228, R17) is the general
condition of each action (`heldOff`). -/
def navStep (P : Params) (s : State) : Except RefusalCode State :=
  if run s = .nav then navDo P (navNext s).1 (navNext s).2 s
  else .error .notEnabled

/-- NAV's turn (R220). -/
def navTurnStep (s : State) : Host.Outcome State Fault Refusal := conclude s (navStep Config.params s)

end Sys2Proof.Machine
end

