-- ==== Sys2Proof/Machine/Step.lean ====
section
/-! DEFINITION. One step: what the operation port presents is taken (60_exceptions.md R262; log 1). -/

namespace Sys2Proof.Machine

/-- One step. An operation word is decoded and executed; a reserved word is refused with ILLEGAL_OP and changes only ERR (R100,
R241); a turn of the documented NAV takes its next step (R220). With nothing presented nothing happens (log 2). -/
def step (s : State) : Host.Outcome State Fault Refusal :=
  match presented s with
  | none => .next s
  | some (.navTurn, t) => navTurnStep t
  | some (.word w, t) =>
    match decodeWord w with
    | .ok i => exec i t
    | .error _ => .next (refuse .illegalOp t)

/-- The state with an operation word presented next; everything else, the rest of the port's queue included, is unchanged. -/
def State.withFetchWord (s : State) (nbits w : Nat) : State :=
  { s with stream := .word (tableWord nbits w) :: s.stream }

end Sys2Proof.Machine
end

