-- ==== Sys2Proof/Machine/Driver.lean ====
section
/-! DEFINITION. The external driver chip of 10_state.md R40: not part of the block and not in `State`, a function of the pin
writes. PRESUMED (log 20): the spec marks it as general knowledge, not from its source. -/

namespace Sys2Proof.Machine

/-- The chip: shift register, output register, and the levels it last saw on CLK and LATCH. Stage `k` is list element `k`. -/
structure DriverChip where
  sr : List Bool
  out : List Bool
  clk : Bool
  latch : Bool
  data : Bool
deriving DecidableEq, Repr

/-- The chip sees one pin write (R40): shift on a rising CLK, transfer on a rising LATCH. -/
def DriverChip.see (d : DriverChip) (p : Pin) (b : Bool) : DriverChip :=
  match p with
  | .trigPin => d
  | .data => { d with data := b }
  | .clk => if b && !d.clk then { d with clk := b, sr := d.data :: d.sr.dropLast } else { d with clk := b }
  | .latch => if b && !d.latch then { d with latch := b, out := d.sr } else { d with latch := b }

/-- The chip after a list of pin writes. -/
def DriverChip.seeAll (d : DriverChip) (l : List (Pin × Bool)) : DriverChip :=
  l.foldl (fun c x => c.see x.1 x.2) d

/-- The chip after the pin writes of a state, from the chip's own power-up state `d` (R272). -/
def driverAfter (d : DriverChip) (s : State) : DriverChip :=
  d.seeAll (s.pinTrace.map fun e => (e.pin, e.level))

/-- Driver input `k` is active when output `k` is 0 (R40). -/
def DriverChip.active (d : DriverChip) (k : Nat) : Bool := d.out[k]? == some false

end Sys2Proof.Machine
end

