-- ==== Sys2Proof/Machine/Variants.lean ====
section
/-! DEFINITION. The machine under any choice of the parameters of 00_scope.md R12 (R51: they are parameters of the step relation;
logs 21, 23): widths, priority and ceiling tables, rule variants and OPEN bytes. `exec`, `step` and `State.reset` are these at R12's
defaults. -/

namespace Sys2Proof.Machine

/-- `exec` under the parameters `P`: the operations that read a parameter take `P`, every other is `exec`'s. -/
def execUnder (P : Params) (i : Instr) (s : State) : Host.Outcome State Fault Refusal :=
  match i with
  | .tick n => exec (.tick n) s
  | .echoR => exec .echoR s
  | .echoF => exec .echoF s
  | .rx b => exec (.rx b) s
  | .svcOvf => conclude s (serviceOverflow P s)
  | .svcCap => conclude s (serviceCapture P s)
  | .trigReq => conclude s (requestOp s P)
  | .trigStep => conclude s (emitterStep s P)
  | .trigWake => conclude s (wakeOp s P)
  | .distRd => conclude s (readDistance s P)
  | .distClr => conclude s (clearDistance s P)
  | .ctlSet m => conclude s (writeCtl (maskSet s.ecu.ctl m) s P)
  | .ctlClr m => conclude s (writeCtl (maskClear s.ecu.ctl m) s P)
  | .flgClr m => conclude s (writeFlg (maskClear s.ecu.flg m) s P)
  | .cntRd => conclude s (readTimer s.ecu.cnt s P)
  | .ctlRd => conclude s (readTimer s.ecu.ctl s P)
  | .flgRd => conclude s (readTimer s.ecu.flg s P)
  | .execFwd => conclude s (commandOp .forward s P)
  | .execRev => conclude s (commandOp .reverse s P)
  | .execRt => conclude s (commandOp .rightTurn s P)
  | .execLt => conclude s (commandOp .leftTurn s P)
  | .execBrk => conclude s (commandOp .brake s P)
  | .execStp => conclude s (commandOp .stop s P)
  | .execDnt => conclude s (commandOp .donut s P)
  | .shift p => conclude s (acceptOp none p s P)
  | .encStep => conclude s (encoderStep s P)
  | .lock r => conclude s (onResourceId r fun q => lockOp q s P)
  | .unlock r => conclude s (onResourceId r fun q => unlockOp q s P)
  | .svcRx => conclude s (serviceUart P s)

/-- `step` under the parameters `P`. -/
def stepUnder (P : Params) (s : State) : Host.Outcome State Fault Refusal :=
  match presented s with
  | none => .next s
  | some (.navTurn, t) => conclude t (navStep P t)
  | some (.word w, t) =>
    match decodeWord w with
    | .ok i => execUnder P i t
    | .error _ => .next (refuse .illegalOp t)

/-- Startup under the parameters `P`. DEDUCED (log 21): EPRI is NAV's own priority, the 1 of R42 at the defaults ("NAV running, no
lock held"). No other value of R271 depends on a parameter. -/
def resetUnder (P : Params) : State :=
  { State.reset with pcl := { State.reset.pcl with epri := prio .nav P } }

end Sys2Proof.Machine
end

