-- ==== Sys2Proof/Machine/Pseudo.lean ====
section
/-! DEFINITION. The pseudo-operations of 30_encoding.md R104 and the trace text of R103: expansions to lists of operations,
and the lists issued from a state, split at the rollovers of the counter. -/

namespace Sys2Proof.Machine

/-- A pseudo-operation (R104). -/
inductive Pseudo where
  | arm
  | disarm
  | polRise
  | polFall
  | waitUs (n : Nat)
  | waitMs (n : Nat)
  | shiftRun
  | execRun (c : Command)
  | trigRun
deriving DecidableEq, Repr

/-- The largest operand of `TICK` (R84). -/
def maxTick : Nat := 16777215

/-- `t` ticks as `TICK`s: one when the operand field holds `t`, otherwise full ones and the rest (R104; log 27). -/
def tickOps (t : Nat) : List Instr :=
  List.replicate (t / maxTick) (.tick (BitVec.ofNat 24 maxTick)) ++
    (if t % maxTick = 0 ∧ t ≠ 0 then [] else [.tick (BitVec.ofNat 24 (t % maxTick))])

/-- `EXEC c` (R91). -/
def execOf : Command → Instr
  | .forward => .execFwd
  | .reverse => .execRev
  | .rightTurn => .execRt
  | .leftTurn => .execLt
  | .brake => .execBrk
  | .stop => .execStp
  | .donut => .execDnt

/-- `SHIFT.RUN` (R104): 26 `ENC.STEP`s and 40 000 ticks. -/
def shiftRunOps : List Instr :=
  List.replicate 4 .encStep ++
    (List.replicate 7 [Instr.tick 5000, .encStep, .encStep, .encStep]).flatten ++
    [.tick 5000, .encStep]

/-- The expansions of R104. -/
def Pseudo.expand : Pseudo → List Instr
  | .arm => [.ctlSet 0x2]
  | .disarm => [.ctlClr 0x2]
  | .polRise => [.ctlClr 0x8]
  | .polFall => [.ctlSet 0x8]
  | .waitUs n => tickOps n
  | .waitMs n => tickOps (ms n)
  | .shiftRun => shiftRunOps
  | .execRun c =>
    execOf c :: (shiftRunOps ++
      (match holdMs c with
        | some h => tickOps (ms h) ++ (.encStep :: shiftRunOps)
        | none => []))
  | .trigRun => [.trigStep, .trigStep, .tick 2, .trigStep, .tick 10, .trigStep]

/-- The state after one operation; a refusal is a next state (R240), and no step stops (R244). -/
def opAfter (i : Instr) (s : State) (P : Params := Config.params) : State :=
  match execUnder P i s with
  | .next t => t
  | .fault _ => s
  | .refused _ => s

/-- The state after operations issued one after the other. -/
def stateAfter (l : List Instr) (s : State) (P : Params := Config.params) : State := l.foldl (fun u i => opAfter i u P) s

/-- How many rollovers `TICK t` crosses in a state: none while the counter does not count (R110, R26). -/
def rolloversIn (t : Nat) (s : State) : Nat := if s.ecu.cnten then (s.ecu.cnt.toNat + t) / 65536 else 0

/-- The service that follows a rollover: `SVC.OVF` when the overflow service is takeable there (R104, R185), none otherwise. -/
def overflowAfter (s : State) (P : Params := Config.params) : List Instr := if takeable s .ovf P then [.svcOvf] else []

/-- `TICK t` from a state, split at its first `r` rollovers, each followed by the overflow service when that is takeable (R104, last
sentence). -/
def splitTick : Nat → Nat → State → (P : Params := Config.params) → List Instr
  | 0, t, _, _ => tickOps t
  | r + 1, t, s, P =>
    let first := tickOps (65536 - s.ecu.cnt.toNat)
    let service := overflowAfter (stateAfter first s P) P
    let rest := t - (65536 - s.ecu.cnt.toNat)
    first ++ service ++ (if rest = 0 then [] else splitTick r rest (stateAfter (first ++ service) s P) P)

/-- An expansion issued from a state: each `TICK` that crosses a rollover is split there (R104). The other operations stand as they
are; the state runs along, because an operation of the expansion may change what the counter and the overflow service do. -/
def splitAtRollovers : List Instr → State → (P : Params := Config.params) → List Instr
  | [], _, _ => []
  | i :: rest, s, P =>
    let here :=
      match i with
      | .tick n => splitTick (rolloversIn n.toNat s) n.toNat s P
      | i => [i]
    here ++ splitAtRollovers rest (stateAfter here s P) P

/-- The operations a pseudo-operation stands for when it is issued in a state (R104). -/
def Pseudo.issue (p : Pseudo) (s : State) (P : Params := Config.params) : List Instr := splitAtRollovers p.expand s P

/-- A hexadecimal operand of a trace line (R103). -/
def hexText (n : Nat) : String := "0x" ++ String.ofList (Nat.toDigits 16 n)

/-- A resource name of a trace line (R103); an id of no resource is written as its number, as the spec writes `LOCK 5`. -/
def resourceText (r : BitVec 3) : String :=
  match r.toNat with
  | 0 => "MODE"
  | 1 => "CMDMB"
  | 2 => "DISTMB"
  | 3 => "OVFCNT"
  | 4 => "CAPTMR"
  | n => toString n

/-- The line of a trace that writes an operation (R103). -/
def traceLine : Instr → String
  | .tick n => "TICK " ++ toString n.toNat
  | .echoR => "ECHO.R"
  | .echoF => "ECHO.F"
  | .rx b => "RX " ++ hexText b.toNat
  | .svcOvf => "SVC.OVF"
  | .svcCap => "SVC.CAP"
  | .trigReq => "TRIG.REQ"
  | .trigStep => "TRIG.STEP"
  | .trigWake => "TRIG.WAKE"
  | .distRd => "DIST.RD"
  | .distClr => "DIST.CLR"
  | .ctlSet m => "CTL.SET " ++ hexText m.toNat
  | .ctlClr m => "CTL.CLR " ++ hexText m.toNat
  | .flgClr m => "FLG.CLR " ++ hexText m.toNat
  | .cntRd => "CNT.RD"
  | .ctlRd => "CTL.RD"
  | .flgRd => "FLG.RD"
  | .execFwd => "EXEC FWD"
  | .execRev => "EXEC REV"
  | .execRt => "EXEC RT"
  | .execLt => "EXEC LT"
  | .execBrk => "EXEC BRK"
  | .execStp => "EXEC STP"
  | .execDnt => "EXEC DNT"
  | .shift p => "SHIFT " ++ hexText p.toNat
  | .encStep => "ENC.STEP"
  | .lock r => "LOCK " ++ resourceText r
  | .unlock r => "UNLOCK " ++ resourceText r
  | .svcRx => "SVC.RX"

end Sys2Proof.Machine
end

