-- ==== Sys2Proof/Safety.lean ====
section
/-! DEFINITION. The terms claims are stated in: runs of operations, the invariants, the extended counter of a measurement, and
the script of an encoder operation. -/

namespace Sys2Proof.Machine

/-! ### Runs -/

/-- The state after a list of operations, each run by `exec`. -/
def execAll : List Instr → State → Option State
  | [], s => some s
  | i :: rest, s =>
    match exec i s with
    | .next t => execAll rest t
    | .fault _ => none
    | .refused _ => none

/-- The refusal of R240 with a code of R241, written out: ERR takes the code if it was 0, and nothing else changes. -/
def refusedWith (code : BitVec 4) (s : State) : State := { s with err := if s.err = 0 then code else s.err }

/-- The enabling condition shared by the operations of the running agent (R186, R17, R37): no source is takeable, the
agent's own delay is over, and the agent has no operation in progress in the encoder. -/
abbrev agentFree (s : State) (P : Params := Config.params) : Prop := heldOff s P = false ∧ ownerBlocked s = false

/-- The running agent holds the lock of `r` (R189). -/
abbrev holds (s : State) (r : Resource) : Prop := heldBy s r = some (run s)

/-- The encoder's owner is the running agent, an operation is in progress, no source is takeable
and the agent's own delay is over (R162, R17). -/
abbrev encoderTurn (s : State) : Prop := s.mpe.busy = true ∧ s.mpe.owner = run s ∧ heldOff s = false

/-! ### Reserved words, from the text of R100 -/

/-- UNIT, FN and ARG of a word as numbers (R81). -/
def wordUnit (w : Word) : Nat := w.toNat / 2 ^ 28
def wordFn (w : Word) : Nat := w.toNat / 2 ^ 24 % 16
def wordArg (w : Word) : Nat := w.toNat % 2 ^ 24

/-- The word selects a row whose sub-format is `A0` (R85). -/
def wordTakesNoOperand (w : Word) : Bool :=
  (wordUnit w == 0 && (wordFn w == 2 || wordFn w == 3)) ||
  (wordUnit w == 1 && (wordFn w ≤ 6 || wordFn w == 10 || wordFn w == 11 || wordFn w == 12)) ||
  (wordUnit w == 2 && wordFn w == 2) || (wordUnit w == 4 && wordFn w == 0)

/-- The reserved words of R100. -/
def reservedWord (w : Word) : Bool :=
  5 ≤ wordUnit w ||
  (wordUnit w == 0 && (wordFn w == 0 || 5 ≤ wordFn w)) || (wordUnit w == 1 && 13 ≤ wordFn w) ||
  (wordUnit w == 2 && 3 ≤ wordFn w) || (wordUnit w == 3 && 2 ≤ wordFn w) || (wordUnit w == 4 && 1 ≤ wordFn w) ||
  (wordTakesNoOperand w && wordArg w != 0) ||
  (((wordUnit w == 0 && wordFn w == 4) || (wordUnit w == 2 && wordFn w == 1)) && 256 ≤ wordArg w) ||
  (wordUnit w == 1 && (wordFn w == 7 || wordFn w == 8) && 16 ≤ wordArg w) ||
  (wordUnit w == 1 && wordFn w == 9 && 4 ≤ wordArg w) ||
  (wordUnit w == 2 && wordFn w == 0 && 7 ≤ wordArg w) ||
  (wordUnit w == 3 && (wordFn w == 0 || wordFn w == 1) && 5 ≤ wordArg w)

/-! ### The arbiter's invariant -/

/-- TRIG_ST is a Run state: the TRIG task is on the context stack (R184). -/
def TrigState.isRun : TrigState → Bool
  | .off => false
  | .pending => false
  | .run1 => true
  | .run2 => true
  | .run3 => true
  | .sleep => false

/-- ACT between two steps: NAV alone, or the TRIG task above it exactly while the emitter runs (R41, R184, R187). -/
def contextOk (s : State) : Bool :=
  match s.pcl.act with
  | [⟨.nav, 0⟩] => !s.ecu.trigSt.isRun
  | [⟨.trig, 1⟩, ⟨.nav, 0⟩] => s.ecu.trigSt.isRun
  | _ => false

/-- The locks are all those of agent `a`, and each saved EPRI is the one before its lock: from `base` up to `e` (R182, R192). -/
def lockChain (a : Agent) (base : Prio) : List LockEntry → Prio → Bool
  | [], e => e == base
  | x :: rest, e => x.agent == a && (e == raise x.saved (ceil x.res)) && lockChain a base rest x.saved

/-- No resource stands twice in LCKSTK (R43). -/
def locksDistinct (s : State) : Bool := decide (s.pcl.lckstk.map (·.res)).Nodup

/-- The arbiter between two steps (R41 to R43, R192). -/
def arbiterOk (s : State) : Bool :=
  contextOk s && lockChain (run s) (prio (run s)) s.pcl.lckstk s.pcl.epri && locksDistinct s

/-! ### The encoder's invariant -/

/-- Between a falling and a rising LATCH (R165). -/
def Mpe.inFrame (m : Mpe) : Bool :=
  m.busy && (m.phase == .main || m.phase == .zero) && decide (0 < m.pos.val)

/-- The encoder between two steps: idle state (R37), the hold (R163), the closing frame (R163), CLK high only between its two
writes (R161), LATCH low inside a frame (R165). -/
def encoderOk (s : State) : Bool :=
  (s.mpe.busy || (s.mpe.cmd.isNone && s.mpe.pos == 0)) &&
  (!(s.mpe.busy && s.mpe.phase == .hold) || (s.mpe.pos == 0 && (s.mpe.cmd.bind holdMs).isSome)) &&
  (!(s.mpe.busy && s.mpe.phase == .zero) || (s.mpe.pat == 0 && (s.mpe.cmd.bind holdMs).isSome)) &&
  (s.mpe.clk == (s.mpe.inFrame && decide (s.mpe.pos.val % 3 = 0))) &&
  (!s.mpe.inFrame || !s.mpe.latch)

/-- ERR is 0 or a code of R241. -/
def errOk (s : State) : Bool := decide (s.err.toNat ≤ 8)

/-! ### The widths (R22, R32, R49, R50) -/

/-- OVF stays below OVF_MAX under the default rule (R22, R115). -/
def ovfOk (s : State) : Bool := decide (s.ecu.ovf < ovfMax)

/-- A distance fits DIST_WIDTH (R32). -/
def distanceFits (d : Nat) : Bool := decide (d < 2 ^ Config.params.distWidth)

/-- Every number that R20 and R50 give a parameter's width is below it, a reading that NAV still has to store included (R224, R225),
and RES holds 32 bits (R49). -/
def widthsOk (s : State) : Bool :=
  ovfOk s && s.ecu.distmb.all distanceFits && s.res.all (fun v => decide (v < 2 ^ 32)) && distanceFits s.host.dr &&
    distanceFits s.host.dl && s.host.nav.all fun a => a.reading.all distanceFits

/-- The invariant of the block. -/
def stateOk (s : State) : Bool := arbiterOk s && encoderOk s && errOk s && widthsOk s

/-! ### The extended counter of a measurement (R119) -/

/-- OVF and CNT as one number, a rollover not yet served included. -/
def extended (s : State) : Nat :=
  s.ecu.ovf * 65536 + s.ecu.cnt.toNat + (if s.ecu.ovff then 65536 else 0)

/-- The operation, at this state, keeps R119's premises: no rollover is lost (R281), counting and the overflow interrupt stay
enabled, OVF stays below its maximum, and no other capture service runs. -/
def countsAt (s : State) : Instr → Bool
  | .tick n =>
    decide (s.ecu.cnt.toNat + n.toNat < 65536) ||
      (!s.ecu.ovff && decide (s.ecu.cnt.toNat + n.toNat < 131072))
  | .echoR => true
  | .echoF => true
  | .rx _ => true
  | .svcOvf => decide (s.ecu.ovf + 1 < ovfMax)
  | .svcCap => false
  | .trigReq => true
  | .trigStep => true
  | .trigWake => true
  | .distRd => true
  | .distClr => true
  | .ctlSet _ => true
  | .ctlClr m => !m.getLsbD 0 && !m.getLsbD 2
  | .flgClr m => !m.getLsbD 1
  | .cntRd => true
  | .ctlRd => true
  | .flgRd => true
  | .execFwd => true
  | .execRev => true
  | .execRt => true
  | .execLt => true
  | .execBrk => true
  | .execStp => true
  | .execDnt => true
  | .shift _ => true
  | .encStep => true
  | .lock _ => true
  | .unlock _ => true
  | .svcRx => true

/-- A run in which every operation keeps R119's premises. -/
def countedRun : List Instr → State → Option State
  | [], s => some s
  | i :: rest, s =>
    if countsAt s i then
      match exec i s with
      | .next t => countedRun rest t
      | .fault _ => none
      | .refused _ => none
    else none

/-! ### The script of an encoder operation (R162 to R165) -/

/-- The 26 pin writes of one serialization, written from R162's text. -/
def frameWrites (p : Byte) : List (Pin × Bool) :=
  (.latch, false) ::
    ((List.range 8).flatMap fun k => [(.data, !p.getLsbD (7 - k)), (.clk, true), (.clk, false)]) ++
    [(.latch, true)]

/-- All pin writes of an operation: one frame, and the all-zero frame after it for a transient command (R163, R164). -/
def scriptWrites (cmd : Option Command) (p : Byte) : List (Pin × Bool) :=
  frameWrites p ++ (if (cmd.bind holdMs).isSome then frameWrites 0 else [])

/-- How many writes of the script have been made: `total` once the operation is over. -/
def scriptDone (total : Nat) (m : Mpe) : Nat :=
  if m.busy then
    match m.phase with
    | .main => m.pos.val
    | .hold => 26
    | .zero => 26 + m.pos.val
  else total

/-- The shortest time of an operation from its first pin write, in ticks (R164). -/
def minTicks (cmd : Option Command) : Nat :=
  match cmd.bind holdMs with
  | none => 40000
  | some h => 80000 + ms h

/-- The pin writes of the encoder in PINTRACE. -/
def encoderWrites (s : State) : List (Pin × Bool) :=
  (s.pinTrace.filter fun e => e.pin != .trigPin).map fun e => (e.pin, e.level)

/-- The operation starts no serialization. -/
def startsNone : Instr → Bool
  | .tick _ => true
  | .echoR => true
  | .echoF => true
  | .rx _ => true
  | .svcOvf => true
  | .svcCap => true
  | .trigReq => true
  | .trigStep => true
  | .trigWake => true
  | .distRd => true
  | .distClr => true
  | .ctlSet _ => true
  | .ctlClr _ => true
  | .flgClr _ => true
  | .cntRd => true
  | .ctlRd => true
  | .flgRd => true
  | .execFwd => false
  | .execRev => false
  | .execRt => false
  | .execLt => false
  | .execBrk => false
  | .execStp => false
  | .execDnt => false
  | .shift _ => false
  | .encStep => true
  | .lock _ => true
  | .unlock _ => true
  | .svcRx => true

end Sys2Proof.Machine
end

