-- ==== Sys2Proof/Certificates/Slice0/Obligations.lean ====
section
/-! DEFINITION. The statements for the provers. Refusals are written `refusedWith <code>` with the code of 60_exceptions.md R241:
1 ILLEGAL_OP, 2 NOT_ENABLED, 3 LOCK_CEILING, 4 LOCK_HELD, 5 UNLOCK_ORDER, 6 NOT_HOLDER, 7 ENC_BUSY, 8 LEAVE_LOCKED. A statement
of an operation's result gives the whole next state, so it is the operation's frame as well. -/

open Sys2Proof Sys2Proof.Machine

/-! ### Encoding -/

/-- R81 to R85: the decoder reads every operation back from its word, with every operand. -/
def Obligations.DecodeOfEncodeIsIdentity : Prop :=
  ∀ i : Instr, i.wellFormed = true → decodeWord (encode i) = .ok i

/-- R82: an operation is read from its own word only, and what is read is an operation of R80. -/
def Obligations.EncodeOfDecodeIsIdentity : Prop :=
  ∀ (w : Word) (i : Instr), decodeWord w = .ok i → i.wellFormed = true ∧ encode i = w

/-- Words written out from R85 (section 2.10 of the test vectors), one or more of every unit. -/
def Obligations.WrittenOutWordsDecode : Prop :=
  decodeWord 0x010003DC#32 = .ok (.tick 988) ∧ decodeWord 0x02000000#32 = .ok .echoR ∧
  decodeWord 0x04000042#32 = .ok (.rx 0x42) ∧ decodeWord 0x11000000#32 = .ok .svcCap ∧
  decodeWord 0x13000000#32 = .ok .trigStep ∧ decodeWord 0x1700000A#32 = .ok (.ctlSet 0xA) ∧
  decodeWord 0x19000003#32 = .ok (.flgClr 3) ∧ decodeWord 0x20000006#32 = .ok .execDnt ∧
  decodeWord 0x210000A5#32 = .ok (.shift 0xA5) ∧ decodeWord 0x30000004#32 = .ok (.lock 4) ∧
  decodeWord 0x31000000#32 = .ok (.unlock 0) ∧ decodeWord 0x40000000#32 = .ok .svcRx

/-- R100: the reserved words are the listed ones, and each is refused with ILLEGAL_OP, changing only ERR. That
the port gives up the word is the model's (log 1, DESIGN CHOICE). -/
def Obligations.ReservedWordsAreRefusedWithIllegalOp : Prop :=
  ∀ w : Word,
    (reservedWord w = true ↔ ∀ i, decodeWord w ≠ .ok i) ∧
    ∀ (s : State) (rest : List PortItem), reservedWord w = true → s.stream = .word w :: rest →
      step s = .next (refusedWith 1 { s with stream := rest })

/-- R65, R81: an operation stored as four little-endian bytes is read back, and the bytes after it are left. -/
def Obligations.StoredOperationReadsBack : Prop :=
  ∀ (i : Instr) (rest : List Byte), i.wellFormed = true → decode (encodeBytes i ++ rest) = .ok (i, rest)

/-! ### The step -/

/-- A step takes what the port presents: an operation word runs its operation, NAV's turn runs NAV's next step, and nothing
presented leaves the state (the port is the model's, logs 1, 2 and 12; R262 gives the operation word its place). -/
def Obligations.StepRunsWhatThePortPresents : Prop :=
  ∀ (s : State) (rest : List PortItem),
    (∀ (w : Word) (i : Instr), s.stream = .word w :: rest → decodeWord w = .ok i →
      step s = exec i { s with stream := rest }) ∧
    (s.stream = .navTurn :: rest → step s = navTurnStep { s with stream := rest }) ∧
    (s.stream = [] → step s = .next s)

/-- Every operation of R80, presented as its own word, is the one the very next step runs, at the state as it was. -/
def Obligations.PresentedOperationRunsNext : Prop :=
  ∀ (i : Instr) (s : State), i.wellFormed = true → step (s.withFetchWord 32 (encode i).toNat) = exec i s

/-- R244: the block never stops; every step from every state has a next state. -/
def Obligations.StepNeverStops : Prop :=
  ∀ s : State, ∃ t, step s = .next t

/-! ### Environment events -/

/-- R110: `TICK n` and its word; it is the single tick of the rule, n times, whatever agent runs and whatever is locked. -/
def Obligations.TickRepeatsTheSingleTick : Prop :=
  ∀ (n : BitVec 24) (s : State),
    encode (.tick n) = 0x01000000#32 ||| n.setWidth 32 ∧
    exec (.tick n) s = .next
      ((fun t : State =>
        { t with
          now := t.now + 1
          ecu :=
            if t.ecu.ctl.getLsbD 0 = true then
              (if t.ecu.cnt = 65535#16 then { t.ecu with cnt := 0, flg := t.ecu.flg ||| 0b10#2 }
                else { t.ecu with cnt := t.ecu.cnt + 1 })
            else t.ecu })^[n.toNat] s)

/-- R112: `ECHO.R` raises the line and sets CAPF exactly for an enabled capture of rising edges; refused when the line is high. -/
def Obligations.EchoRiseIsCapturedWhenArmed : Prop :=
  encode .echoR = 0x02000000#32 ∧ ∀ s : State,
    (s.ecu.echo = false →
      exec .echoR s = .next { s with ecu := { s.ecu with
        echo := true
        flg := if s.ecu.ctl.getLsbD 1 = true ∧ s.ecu.ctl.getLsbD 3 = false then s.ecu.flg ||| 0b01#2
          else s.ecu.flg } }) ∧
    (s.ecu.echo = true → exec .echoR s = .next (refusedWith 2 s))

/-- R113: `ECHO.F` lowers the line and sets CAPF exactly for an enabled capture of falling edges; refused when the line is low. -/
def Obligations.EchoFallIsCapturedWhenArmed : Prop :=
  encode .echoF = 0x03000000#32 ∧ ∀ s : State,
    (s.ecu.echo = true →
      exec .echoF s = .next { s with ecu := { s.ecu with
        echo := false
        flg := if s.ecu.ctl.getLsbD 1 = true ∧ s.ecu.ctl.getLsbD 3 = true then s.ecu.flg ||| 0b01#2
          else s.ecu.flg } }) ∧
    (s.ecu.echo = false → exec .echoF s = .next (refusedWith 2 s))

/-- R210: `RX b` is always enabled, for every byte value, and replaces an unserved byte. -/
def Obligations.ReceivedByteReplacesTheEarlier : Prop :=
  ∀ (b : Byte) (s : State),
    encode (.rx b) = 0x04000000#32 ||| b.setWidth 32 ∧
    exec (.rx b) s = .next { s with host := { s.host with rxbyte := b, rxf := true } }

/-- R101: `TICK 0` changes nothing; the zero masks change nothing and are still subject to the holder check. -/
def Obligations.HintsChangeNothing : Prop :=
  ∀ s : State,
    decodeWord 0x01000000#32 = .ok (.tick 0) ∧ exec (.tick 0) s = .next s ∧
    (agentFree s → holds s .captmr →
      exec (.ctlSet 0) s = .next s ∧ exec (.ctlClr 0) s = .next s ∧ exec (.flgClr 0) s = .next s) ∧
    (agentFree s → ¬ holds s .captmr →
      exec (.ctlSet 0) s = .next (refusedWith 6 s) ∧ exec (.ctlClr 0) s = .next (refusedWith 6 s) ∧
      exec (.flgClr 0) s = .next (refusedWith 6 s))

/-! ### Overflow and capture services -/

/-- R114: `SVC.OVF` runs when the overflow interrupt is takeable: OVFF is cleared and OVF updated, ACT and EPRI are the same
after as before; otherwise NOT_ENABLED. (The premise on locks is R187's, for the leave inside the step.) -/
def Obligations.OverflowServiceCountsOneRollover : Prop :=
  ∀ s : State,
    (s.ecu.flg.getLsbD 1 = true → s.ecu.ctl.getLsbD 2 = true → s.pcl.epri < 5 → holdsAny s .ovf = false →
      exec .svcOvf s = .next { s with ecu := { s.ecu with
        flg := s.ecu.flg &&& 0b01#2, ovf := ovfNext Config.params s.ecu.ovf } }) ∧
    (¬ (s.ecu.flg.getLsbD 1 = true ∧ s.ecu.ctl.getLsbD 2 = true ∧ s.pcl.epri < 5) →
      exec .svcOvf s = .next (refusedWith 2 s))

/-- R115: `ovf_next` over the integers under both rules, for every OVF_WIDTH; the default is `after` with 16 bits. Under `after` the
counter takes the values 0 to OVF_MAX − 1 and is back at 0 after OVF_MAX rollovers. -/
def Obligations.OverflowCounterNeverStoresItsMaximum : Prop :=
  Config.params.ovfRule = .after ∧ Config.params.ovfWidth = 16 ∧ ovfMax = 65535 ∧
  ∀ P : Params,
    (P.ovfRule = .after →
      (∀ v : Nat, v < 2 ^ P.ovfWidth - 1 → ovfNext P v = if v + 1 = 2 ^ P.ovfWidth - 1 then 0 else v + 1) ∧
      (∀ k : Nat, k < 2 ^ P.ovfWidth - 1 → (ovfNext P)^[k] 0 = k) ∧
      (ovfNext P)^[2 ^ P.ovfWidth - 1] 0 = 0) ∧
    (P.ovfRule = .before → ∀ v : Nat, v < 2 ^ P.ovfWidth →
      ovfNext P v = (if v = 2 ^ P.ovfWidth - 1 then 0 else v + 1) ∧ ovfNext P v = (v + 1) % 2 ^ P.ovfWidth)

/-- R116, R211, R250, the conditions alone: the capture interrupt is takeable exactly when CAPF is set, EPRI is below 4 and the overflow interrupt is
not takeable; the UART interrupt when RXF and RXIE are set, EPRI is below 3 and neither of the two is takeable; a service whose
source is not takeable is refused. -/
def Obligations.ServicesWaitForHigherInterrupts : Prop :=
  ∀ s : State,
    (takeable s .cap = true ↔
      s.ecu.flg.getLsbD 0 = true ∧ s.pcl.epri < 4 ∧ takeable s .ovf = false) ∧
    (takeable s .cap = false → exec .svcCap s = .next (refusedWith 2 s)) ∧
    (takeable s .uart = true ↔
      s.host.rxf = true ∧ s.host.rxie = true ∧ s.pcl.epri < 3 ∧ takeable s .ovf = false ∧ takeable s .cap = false) ∧
    (takeable s .uart = false → exec .svcRx s = .next (refusedWith 2 s))

/-- R117: the Idle arm of `SVC.CAP`. -/
def Obligations.IdleArmStartsAMeasurement : Prop :=
  ∀ s : State, takeable s .cap = true → holdsAny s .cap = false → s.ecu.ecs = .idle →
    exec .svcCap s = .next { s with ecu := { s.ecu with
      t1 := s.ecu.cnt
      ctl := (s.ecu.ctl ^^^ 0b1000#4) ||| 0b0010#4
      ovf := 0
      ecs := .done
      flg := s.ecu.flg &&& 0b10#2 } }

/-- R118: the Done arm of `SVC.CAP`. A distance is published in every case; where the elapsed time is negative, or the distance
does not fit, it is a free value (log 4): the statement holds whatever the opaque constant is. -/
def Obligations.DoneArmPublishesTheDistance : Prop :=
  ∀ s : State, takeable s .cap = true → holdsAny s .cap = false → s.ecu.ecs = .done →
    let e : Int := (s.ecu.cnt.toNat : Int) + (s.ecu.ovf : Int) * 65536 - (s.ecu.t1.toNat : Int)
    let d : Nat := 17 * e.toNat / 1000
    exec .svcCap s = .next { s with
      ecu := { s.ecu with
        t2 := s.ecu.cnt
        ctl := (s.ecu.ctl ^^^ 0b1000#4) &&& 0b1101#4
        ecs := .idle
        flg := s.ecu.flg &&& 0b10#2
        distmb := some (if 0 ≤ e ∧ d < 2 ^ 32 then d else (Config.anyDistance 32 s.draws).toNat) }
      draws := if 0 ≤ e ∧ d < 2 ^ 32 then s.draws else s.draws + 1 }

/-- R138: under CAPTURE_SPLIT = true the service is three steps, entered at A and left at C, whose middle step is the only access
to OVF. At C the elapsed time may be negative in every run (R138), and the published distance is then a free value (log 4), as where it
does not fit DIST_WIDTH. The statement is over all parameters: the widths, PRIO and CEIL are those of `P` too. Where
the phase and the snapshot of OVF are held, and when B and C are enabled, is the model's (log 15). -/
def Obligations.SplitCaptureRunsInThreeSteps : Prop :=
  ∀ (P : Params) (s : State), P.captureSplit = true →
    (s.ecu.capPh = .a → takeable s .cap P = true →
      execUnder P .svcCap s = .next { s with
        pcl := { s.pcl with act := ⟨.cap, s.pcl.epri⟩ :: s.pcl.act, epri := prio .cap P }
        ecu := { s.ecu with
          t1 := if s.ecu.ecs = .idle then s.ecu.cnt else s.ecu.t1
          t2 := if s.ecu.ecs = .done then s.ecu.cnt else s.ecu.t2
          ctl := if s.ecu.ecs = .idle then (s.ecu.ctl ^^^ 0b1000#4) ||| 0b0010#4
            else (s.ecu.ctl ^^^ 0b1000#4) &&& 0b1101#4
          flg := s.ecu.flg &&& 0b10#2
          capPh := .b } }) ∧
    (s.ecu.capPh = .a → takeable s .cap P = false → execUnder P .svcCap s = .next (refusedWith 2 s)) ∧
    (s.ecu.capPh = .b → run s = .cap → agentFree s P →
      execUnder P .svcCap s = .next { s with ecu := { s.ecu with
        ovf := if s.ecu.ecs = .idle then 0 else s.ecu.ovf
        capOvf := if s.ecu.ecs = .done then s.ecu.ovf else s.ecu.capOvf
        capPh := .c } }) ∧
    (s.ecu.capPh = .b ∨ s.ecu.capPh = .c → ¬ (run s = .cap ∧ agentFree s P) →
      execUnder P .svcCap s = .next (refusedWith 2 s)) ∧
    (s.ecu.capPh = .c → s.ecu.ecs = .idle → agentFree s P → holdsAny s .cap = false →
      ∀ e rest, s.pcl.act = ⟨.cap, e⟩ :: rest →
        execUnder P .svcCap s = .next { s with
          pcl := { s.pcl with act := rest, epri := e }
          ecu := { s.ecu with ecs := .done, capPh := .a } }) ∧
    (s.ecu.capPh = .c → s.ecu.ecs = .done → agentFree s P → holdsAny s .cap = false →
      ∀ e rest, s.pcl.act = ⟨.cap, e⟩ :: rest →
        let T : Int := (s.ecu.t2.toNat : Int) + (s.ecu.capOvf : Int) * 65536 - (s.ecu.t1.toNat : Int)
        let d : Nat := 17 * T.toNat / 1000
        execUnder P .svcCap s = .next { s with
          pcl := { s.pcl with act := rest, epri := e }
          ecu := { s.ecu with
            ecs := .idle
            capPh := .a
            distmb := some (if 0 ≤ T ∧ d < 2 ^ P.distWidth then d else (Config.anyDistance P.distWidth s.draws).toNat) }
          draws := if 0 ≤ T ∧ d < 2 ^ P.distWidth then s.draws else s.draws + 1 }) ∧
    (s.ecu.capPh = .c → run s = .cap → agentFree s P → holdsAny s .cap = true →
      execUnder P .svcCap s = .next (refusedWith 8 s))

/-- R119: the bounds of ELAPSED for the values OVF can hold under the rule `after`, and when it is negative. -/
def Obligations.ElapsedIsNegativeOnlyWithoutRollover : Prop :=
  ∀ (t1 t2 : BitVec 16) (ovf : Nat), ovf < ovfMax →
    -65535 ≤ elapsed t1 t2 ovf ∧ elapsed t1 t2 ovf ≤ 4294901759 ∧
    (elapsed t1 t2 ovf < 0 ↔ ovf = 0 ∧ t2.toNat < t1.toNat)

/-- R120: the conversion is the exact floor of 17 T / 1000, monotone, with the boundary values of the rule. -/
def Obligations.DistanceIsTheExactFloor : Prop :=
  (∀ t : Nat, 1000 * distanceOf t ≤ 17 * t ∧ 17 * t < 1000 * (distanceOf t + 1)) ∧
  (∀ t u : Nat, t ≤ u → distanceOf t ≤ distanceOf u) ∧
  (∀ t : Nat, 20 < distanceOf t ↔ 1236 ≤ t) ∧
  distanceOf 0 = 0 ∧ distanceOf 58 = 0 ∧ distanceOf 59 = 1 ∧ distanceOf 65036 = 1105 ∧ distanceOf 4294901759 = 73013329 ∧ 73013329 < 2 ^ 27

/-- R119, R139: over any run in which no rollover is lost, counting and the overflow interrupt stay enabled, the overflow counter
stays below its maximum and no other capture service runs (`countedRun`), the second service publishes the distance of the time
between the two services. -/
def Obligations.MeasuredDistanceIsTheTimeBetweenServices : Prop :=
  ∀ (s₀ s₁ s₂ : State) (ops : List Instr),
    arbiterOk s₀ = true → s₀.ecu.ecs = .idle → takeable s₀ .cap = true →
    s₀.ecu.cnten = true → s₀.ecu.ovfie = true →
    exec .svcCap s₀ = .next s₁ → countedRun ops s₁ = some s₂ → takeable s₂ .cap = true →
    ∃ s₃, exec .svcCap s₂ = .next s₃ ∧
      s₃.ecu.distmb = some (17 * (s₂.now - s₁.now) / 1000)

/-- R24, R137: only `SVC.CAP` changes ECS, with CAPF set before and clear after; and only an edge of the selected polarity, with
capture enabled, sets CAPF; a turn of NAV (log 12) does neither. -/
def Obligations.CaptureStateAlternatesOnEdges : Prop :=
  (∀ (i : Instr) (s t : State), exec i s = .next t →
    (t.ecu.ecs ≠ s.ecu.ecs → i = .svcCap ∧ s.ecu.capf = true ∧ t.ecu.capf = false) ∧
    (s.ecu.capf = false → t.ecu.capf = true →
      s.ecu.capen = true ∧ ((i = .echoR ∧ s.ecu.pol = false) ∨ (i = .echoF ∧ s.ecu.pol = true)))) ∧
  ∀ s t : State, navTurnStep s = .next t → t.ecu.ecs = s.ecu.ecs ∧ t.ecu.capf = s.ecu.capf

/-- R29: while nothing but `SVC.CAP` writes POL, the polarity is Rising exactly in state Idle; a turn of NAV
(log 12) writes neither. -/
def Obligations.PolarityFollowsTheCaptureState : Prop :=
  (∀ (i : Instr) (s t : State),
    (∀ m, i = .ctlSet m → m.getLsbD 3 = false) → (∀ m, i = .ctlClr m → m.getLsbD 3 = false) →
    exec i s = .next t → (s.ecu.pol = false ↔ s.ecu.ecs = .idle) → (t.ecu.pol = false ↔ t.ecu.ecs = .idle)) ∧
  ∀ s t : State, navTurnStep s = .next t → t.ecu.pol = s.ecu.pol ∧ t.ecu.ecs = s.ecu.ecs

/-! ### Trigger emitter -/

/-- R126: a request starts the emitter from Off and is a no-op while it is busy. R186: while a source is takeable it is refused. That
it is refused as well while the agent's own delay lasts is not R126's, which names no condition but R186's: DEDUCED (log 29). NAV's
turn at its request is the same, and NAV goes on (log 12). -/
def Obligations.TriggerRequestIsIdempotent : Prop :=
  ∀ s : State,
    (agentFree s → s.ecu.trigSt = .off →
      exec .trigReq s = .next { s with ecu := { s.ecu with trigSt := .pending } }) ∧
    (agentFree s → s.ecu.trigSt ≠ .off → exec .trigReq s = .next s) ∧
    (heldOff s = true → exec .trigReq s = .next (refusedWith 2 s)) ∧
    (∀ rest, run s = .nav → agentFree s → s.host.nav = .request :: rest →
      navTurnStep s = .next { s with
        ecu := { s.ecu with trigSt := if s.ecu.trigSt = .off then .pending else s.ecu.trigSt }
        host := { s.host with nav := rest } })

/-- R121: the first micro-step enters the TRIG task and arms capture; POL, ECS and every pin are left. -/
def Obligations.TriggerStartEntersAndArms : Prop :=
  ∀ s : State, takeable s .trig = true → s.ecu.trigSt = .pending →
    exec .trigStep s = .next { s with
      pcl := { s.pcl with act := ⟨.trig, s.pcl.epri⟩ :: s.pcl.act, epri := 2 }
      ecu := { s.ecu with ctl := s.ecu.ctl ||| 0b0010#4, trigSt := .run1 } }

/-- R122, R123, R124: low for at least 2 ticks, high for at least 10, low again, then the 200 ms suspension and the leave. -/
def Obligations.TriggerPulseIsLowHighLow : Prop :=
  ∀ s : State, run s = .trig → agentFree s →
    (s.ecu.trigSt = .run1 →
      exec .trigStep s = .next { s with
        ecu := { s.ecu with trigPin := false, trigDl := s.now + 2, trigSt := .run2 }
        pinTrace := s.pinTrace ++ [⟨.trigPin, false, s.now⟩] }) ∧
    (s.ecu.trigSt = .run2 → s.ecu.trigDl ≤ s.now →
      exec .trigStep s = .next { s with
        ecu := { s.ecu with trigPin := true, trigDl := s.now + 10, trigSt := .run3 }
        pinTrace := s.pinTrace ++ [⟨.trigPin, true, s.now⟩] }) ∧
    (s.ecu.trigSt = .run3 → s.ecu.trigDl ≤ s.now → holdsAny s .trig = false →
      ∀ e rest, s.pcl.act = ⟨.trig, e⟩ :: rest →
        exec .trigStep s = .next { s with
          pcl := { s.pcl with act := rest, epri := e }
          ecu := { s.ecu with trigPin := false, trigDl := s.now + 200000, trigSt := .sleep }
          pinTrace := s.pinTrace ++ [⟨.trigPin, false, s.now⟩] })

/-- R121 to R124, R187, R242: when a micro-step of the emitter is refused; a leave with a lock undoes the whole step. -/
def Obligations.TriggerStepBeforeItsTimeIsRefused : Prop :=
  ∀ s : State,
    (s.ecu.trigSt = .off ∨ s.ecu.trigSt = .sleep → exec .trigStep s = .next (refusedWith 2 s)) ∧
    (s.ecu.trigSt = .pending → takeable s .trig = false → exec .trigStep s = .next (refusedWith 2 s)) ∧
    (s.ecu.trigSt.isRun = true → (run s ≠ .trig ∨ heldOff s = true) →
      exec .trigStep s = .next (refusedWith 2 s)) ∧
    (s.ecu.trigSt = .run2 ∨ s.ecu.trigSt = .run3 → s.now < s.ecu.trigDl →
      exec .trigStep s = .next (refusedWith 2 s)) ∧
    (s.ecu.trigSt = .run3 → s.ecu.trigDl ≤ s.now → run s = .trig → agentFree s → holdsAny s .trig = true →
      exec .trigStep s = .next (refusedWith 8 s))

/-- R125: the wake ends the suspension, with the context and EPRI as before; before its deadline, or while it is not takeable,
it is refused. -/
def Obligations.TriggerWakeReturnsToOff : Prop :=
  ∀ s : State,
    (s.ecu.trigSt = .sleep → s.ecu.trigDl ≤ s.now → s.pcl.epri < 2 →
      takeable s .ovf = false → takeable s .cap = false → takeable s .uart = false → holdsAny s .trig = false →
      exec .trigWake s = .next { s with ecu := { s.ecu with trigSt := .off } }) ∧
    (¬ (s.ecu.trigSt = .sleep ∧ s.ecu.trigDl ≤ s.now ∧ s.pcl.epri < 2 ∧
        takeable s .ovf = false ∧ takeable s .cap = false ∧ takeable s .uart = false) →
      exec .trigWake s = .next (refusedWith 2 s))

/-! ### Mailbox and capture-timer operations -/

/-- R128, R129: the holder of DISTMB reads the mailbox without emptying it, and empties it; without the lock neither does
anything. -/
def Obligations.MailboxIsReadThenCleared : Prop :=
  encode .distRd = 0x15000000#32 ∧ encode .distClr = 0x16000000#32 ∧
  ∀ s : State, agentFree s →
    (holds s .distmb →
      exec .distRd s = .next { s with res := s.ecu.distmb } ∧
      exec .distClr s = .next { s with ecu := { s.ecu with distmb := none } }) ∧
    (¬ holds s .distmb →
      exec .distRd s = .next (refusedWith 6 s) ∧ exec .distClr s = .next (refusedWith 6 s))

/-- R130, R131, R132: the holder of CAPTMR sets and clears exactly the masked bits; without the lock nothing is written. -/
def Obligations.TimerMasksSetAndClear : Prop :=
  ∀ (s : State) (m : BitVec 4) (k : BitVec 2),
    (encode (.ctlSet m) = 0x17000000#32 ||| m.setWidth 32 ∧ encode (.ctlClr m) = 0x18000000#32 ||| m.setWidth 32 ∧
      encode (.flgClr k) = 0x19000000#32 ||| k.setWidth 32) ∧
    (agentFree s → holds s .captmr →
      exec (.ctlSet m) s = .next { s with ecu := { s.ecu with ctl := s.ecu.ctl ||| m } } ∧
      exec (.ctlClr m) s = .next { s with ecu := { s.ecu with ctl := s.ecu.ctl &&& ~~~m } } ∧
      exec (.flgClr k) s = .next { s with ecu := { s.ecu with flg := s.ecu.flg &&& ~~~k } }) ∧
    (agentFree s → ¬ holds s .captmr →
      exec (.ctlSet m) s = .next (refusedWith 6 s) ∧ exec (.ctlClr m) s = .next (refusedWith 6 s) ∧
      exec (.flgClr k) s = .next (refusedWith 6 s))

/-- R133, R134, R135: the holder of CAPTMR reads a register zero-extended into RES, with no side effect; without the lock nothing
is read. -/
def Obligations.TimerReadsHaveNoSideEffect : Prop :=
  encode .cntRd = 0x1A000000#32 ∧ encode .ctlRd = 0x1B000000#32 ∧ encode .flgRd = 0x1C000000#32 ∧
  ∀ s : State, agentFree s →
    (holds s .captmr →
      exec .cntRd s = .next { s with res := some s.ecu.cnt.toNat } ∧
      exec .ctlRd s = .next { s with res := some s.ecu.ctl.toNat } ∧
      exec .flgRd s = .next { s with res := some s.ecu.flg.toNat }) ∧
    (¬ holds s .captmr →
      exec .cntRd s = .next (refusedWith 6 s) ∧ exec .ctlRd s = .next (refusedWith 6 s) ∧
      exec .flgRd s = .next (refusedWith 6 s))

/-- R189, R221, R223, R227, with NAV's accesses at the granularity of log 12: NAV starts an iteration with the lock of MODE; its
accesses to MODE, CMDMB and DISTMB need the lock of the resource and are refused with NOT_HOLDER without it; under it the mode
selects the branch, and DISTMB is read and cleared. The overflow service needs no lock (log 25). -/
def Obligations.SharedAccessNeedsTheLock : Prop :=
  ∀ s : State,
    (run s = .nav → agentFree s →
      (s.host.nav = [] → heldBy s .mode = none →
        navTurnStep s = .next { s with
          pcl := { s.pcl with
            lckstk := ⟨.nav, .mode, s.pcl.epri⟩ :: s.pcl.lckstk
            epri := if s.pcl.epri < 3 then 3 else s.pcl.epri }
          host := { s.host with nav := [.readMode] } }) ∧
      (∀ x ∈ [(NavAct.readMode, Resource.mode), (.readCmd, .cmdmb), (.clearCmd, .cmdmb), (.distRd, .distmb), (.distClr, .distmb)],
        ∀ rest, s.host.nav = x.1 :: rest → ¬ holds s x.2 → navTurnStep s = .next (refusedWith 6 s)) ∧
      ∀ rest,
        (s.host.nav = .readMode :: rest → holds s .mode →
          navTurnStep s = .next { s with host := { s.host with nav := .unlock .mode ::
            ((if s.host.mode = .manual then [.lock .cmdmb, .readCmd]
              else [.request, .lock .distmb, .distRd, .unlock .distmb, .takeReading]) ++ rest) } }) ∧
        (s.host.nav = .distRd :: rest → holds s .distmb →
          navTurnStep s = .next { s with res := s.ecu.distmb, host := { s.host with nav := rest } }) ∧
        (s.host.nav = .distClr :: rest → holds s .distmb →
          navTurnStep s = .next { s with
            ecu := { s.ecu with distmb := none }
            host := { s.host with nav := rest } })) ∧
    (takeable s .ovf = true → holdsAny s .ovf = false → heldBy s .ovfcnt = none → heldBy s .captmr = none →
      exec .svcOvf s = .next { s with ecu := { s.ecu with
        flg := s.ecu.flg &&& 0b01#2, ovf := ovfNext Config.params s.ecu.ovf } })

/-! ### Encoder -/

/-- R151 to R158: an accepted command sets the sequencer to its pattern of R90 and writes no pin. -/
def Obligations.CommandIsAcceptedWithItsPattern : Prop :=
  ∀ s : State, heldOff s = false → s.mpe.busy = false →
    ∀ x ∈ [(Instr.execFwd, Command.forward, 0x55#8), (.execRev, .reverse, 0xAA#8), (.execRt, .rightTurn, 0x5A#8),
      (.execLt, .leftTurn, 0xA5#8), (.execBrk, .brake, 0xAA#8), (.execStp, .stop, 0x00#8), (.execDnt, .donut, 0x5A#8)],
      exec x.1 s = .next { s with mpe := { s.mpe with
        busy := true, owner := run s, cmd := some x.2.1, pat := x.2.2, phase := .main, pos := 0 } }

/-- R160: `SHIFT p` is accepted for every pattern byte, with no command and so no hold; a busy encoder refuses it. -/
def Obligations.ShiftIsAcceptedForEveryPattern : Prop :=
  ∀ (p : Byte) (s : State),
    encode (.shift p) = 0x21000000#32 ||| p.setWidth 32 ∧
    (heldOff s = false → s.mpe.busy = false →
      exec (.shift p) s = .next { s with mpe := { s.mpe with
        busy := true, owner := run s, cmd := none, pat := p, phase := .main, pos := 0 } }) ∧
    (heldOff s = false → s.mpe.busy = true → exec (.shift p) s = .next (refusedWith 7 s))

/-- R158, R160, R242: a busy encoder refuses every new operation with ENC_BUSY, after the general condition (a
source takeable; the agent's own delay, DEDUCED, log 29). -/
def Obligations.BusyEncoderRefusesNewOperations : Prop :=
  ∀ (s : State) (p : Byte),
    ∀ i ∈ [Instr.execFwd, .execRev, .execRt, .execLt, .execBrk, .execStp, .execDnt, .shift p],
      (heldOff s = false → s.mpe.busy = true → exec i s = .next (refusedWith 7 s)) ∧
      (heldOff s = true → exec i s = .next (refusedWith 2 s))

/-- R37, R158: while its operation is in progress the owner has no enabled step but `ENC.STEP`: not its operations, not the TRIG
task's pin steps where that task is the owner, not NAV's turns where NAV is the owner. That `LOCK`, `UNLOCK` and `TRIG.REQ` are among
the refused is DEDUCED (log 7: R126 and R182 say that they have no other condition), and so are NAV's turns (logs 7, 12 and 14). Of
`EXEC` and `SHIFT`, and of NAV's turn at an `EXEC`, `BusyEncoderRefusesNewOperations` and `NavigationDrainsTheMailbox` speak. -/
def Obligations.BlockedOwnerHasOnlyEncoderSteps : Prop :=
  ∀ (s : State) (m : BitVec 4) (k : BitVec 2) (r : BitVec 3), s.mpe.busy = true → s.mpe.owner = run s → r.toNat ≤ 4 →
    (∀ i ∈ [Instr.trigReq, .distRd, .distClr, .ctlSet m, .ctlClr m, .flgClr k, .cntRd, .ctlRd, .flgRd, .lock r, .unlock r],
      exec i s = .next (refusedWith 2 s)) ∧
    (s.ecu.trigSt.isRun = true → exec .trigStep s = .next (refusedWith 2 s)) ∧
    (run s = .nav → s.host.nav = [] → navTurnStep s = .next (refusedWith 2 s)) ∧
    (∀ a rest, run s = .nav → s.host.nav = a :: rest → a ≠ .encRun → (∀ c, a ≠ .exec c) →
      navTurnStep s = .next (refusedWith 2 s))

/-- R162: the micro-steps of positions 0 to 24, the k-th bit sent being `¬P[7 − k]`, with their delays; from the second bit on, a
DATA write before its deadline is refused. -/
def Obligations.SerializerFollowsItsTable : Prop :=
  ∀ s : State, encoderTurn s → s.mpe.phase ≠ .hold →
    (s.mpe.pos.val = 0 →
      exec .encStep s = .next { s with
        mpe := { s.mpe with latch := false, pos := 1 }
        pinTrace := s.pinTrace ++ [⟨.latch, false, s.now⟩] }) ∧
    ∀ k : Nat, k < 8 →
      (s.mpe.pos.val = 1 + 3 * k → (k = 0 ∨ s.mpe.dl ≤ s.now) →
        exec .encStep s = .next { s with
          mpe := { s.mpe with data := !s.mpe.pat.getLsbD (7 - k), pos := s.mpe.pos + 1 }
          pinTrace := s.pinTrace ++ [⟨.data, !s.mpe.pat.getLsbD (7 - k), s.now⟩] }) ∧
      (s.mpe.pos.val = 1 + 3 * k → 0 < k → s.now < s.mpe.dl → exec .encStep s = .next (refusedWith 2 s)) ∧
      (s.mpe.pos.val = 2 + 3 * k →
        exec .encStep s = .next { s with
          mpe := { s.mpe with clk := true, pos := s.mpe.pos + 1 }
          pinTrace := s.pinTrace ++ [⟨.clk, true, s.now⟩] }) ∧
      (s.mpe.pos.val = 3 + 3 * k →
        exec .encStep s = .next { s with
          mpe := { s.mpe with clk := false, pos := s.mpe.pos + 1, dl := s.now + 5000 }
          pinTrace := s.pinTrace ++ [⟨.clk, false, s.now⟩] })

/-- R163: the last micro-step raises LATCH and either begins the hold of a transient command or frees the owner; the step out of
the hold writes no pin and begins the all-zero frame; each is refused before its deadline. -/
def Obligations.SerializationEndsInHoldOrIdle : Prop :=
  ∀ s : State, encoderTurn s →
    (s.mpe.phase ≠ .hold → s.mpe.pos.val = 25 → s.mpe.dl ≤ s.now →
      (∀ c h, s.mpe.phase = .main → s.mpe.cmd = some c →
        (c, h) ∈ [(Command.rightTurn, 250), (.leftTurn, 250), (.brake, 200), (.donut, 2000)] →
        exec .encStep s = .next { s with
          mpe := { s.mpe with latch := true, phase := .hold, dl := s.now + 1000 * h, pos := 0 }
          pinTrace := s.pinTrace ++ [⟨.latch, true, s.now⟩] }) ∧
      (s.mpe.phase = .zero ∨ s.mpe.cmd ∈ [none, some .forward, some .reverse, some .stop] →
        exec .encStep s = .next { s with
          mpe := { s.mpe with latch := true, busy := false, cmd := none, pos := 0 }
          pinTrace := s.pinTrace ++ [⟨.latch, true, s.now⟩] })) ∧
    (s.mpe.phase ≠ .hold → s.mpe.pos.val = 25 → s.now < s.mpe.dl → exec .encStep s = .next (refusedWith 2 s)) ∧
    (s.mpe.phase = .hold → s.mpe.dl ≤ s.now →
      exec .encStep s = .next { s with mpe := { s.mpe with phase := .zero, pat := 0, pos := 0 } }) ∧
    (s.mpe.phase = .hold → s.now < s.mpe.dl → exec .encStep s = .next (refusedWith 2 s))

/-- R162, R186: `ENC.STEP` is refused while the encoder is not busy, for an agent that is not its owner, and while a source is
takeable or the agent's own delay lasts (R17, log 29). -/
def Obligations.EncoderStepNeedsItsOwner : Prop :=
  ∀ s : State, ¬ encoderTurn s → exec .encStep s = .next (refusedWith 2 s)

/-- R162 to R165: whatever operations of the other agents run in between, the encoder's pin writes since the acceptance of an
operation are the first writes of its script: one frame of 26 for a held command or a bare `SHIFT`, two for a transient command,
all of them once the operation is over. -/
def Obligations.EncoderWritesFollowTheScript : Prop :=
  ∀ (s t : State) (cmd : Option Command) (p : Byte) (ops : List Instr),
    acceptOp cmd p s = .ok t → (∀ i ∈ ops, startsNone i = true) →
    ∀ u, execAll ops t = some u →
      encoderWrites u = encoderWrites s ++
        (scriptWrites cmd p).take (scriptDone (scriptWrites cmd p).length u.mpe)

/-- R164: from its first pin write to the end of an operation at least 40 000 ticks pass, for a transient command 80 000 and its
hold, whatever operations of the other agents run in between. -/
def Obligations.EncoderOperationLastsItsMinimum : Prop :=
  ∀ (s t : State) (ops : List Instr),
    encoderTurn s → s.mpe.phase = .main → s.mpe.pos.val = 0 →
    exec .encStep s = .next t → (∀ i ∈ ops, startsNone i = true) →
    ∀ u, execAll ops t = some u → u.mpe.busy = false → s.now + minTicks s.mpe.cmd ≤ u.now

/-- R165 with the driver chip of R40 (general knowledge, log 20): after a frame of `p`, output k is `¬P[k]` and driver input k is
active exactly when `P[k]` is 1, whatever the chip held before. -/
def Obligations.DriverChipShowsThePattern : Prop :=
  ∀ (p : Byte) (d : DriverChip), d.sr.length = 8 → d.clk = false →
    (d.seeAll (frameWrites p)).out = (List.range 8).map (fun k => !p.getLsbD k) ∧
    ∀ k, k < 8 → ((d.seeAll (frameWrites p)).active k = true ↔ p.getLsbD k = true)

/-- R90, R91, R93: the table of commands: pattern byte, hold, code; and the DATA levels of a frame, first bit sent first. -/
def Obligations.CommandTableIsTheSources : Prop :=
  (∀ x ∈ [(Command.forward, 0x55#8, none, 0#3), (.reverse, 0xAA#8, none, 1#3), (.rightTurn, 0x5A#8, some 250, 2#3),
      (.leftTurn, 0xA5#8, some 250, 3#3), (.brake, 0xAA#8, some 200, 4#3), (.stop, 0x00#8, none, 5#3),
      (.donut, 0x5A#8, some 2000, 6#3)],
    pattern x.1 = x.2.1 ∧ holdMs x.1 = x.2.2.1 ∧ commandCode x.1 = x.2.2.2) ∧
  (∀ x ∈ [(0x55#8, [true, false, true, false, true, false, true, false]),
      (0xAA#8, [false, true, false, true, false, true, false, true]),
      (0x5A#8, [true, false, true, false, false, true, false, true]),
      (0xA5#8, [false, true, false, true, true, false, true, false]),
      (0x00#8, [true, true, true, true, true, true, true, true])],
    (List.range 8).map (fun k => (microPin x.1 (.data k)).2) = x.2)

/-! ### Lock arbiter -/

/-- R182, R186, R242: `LOCK r` for every resource id: it pushes and raises EPRI to the ceiling; its two refusals in order; while the
agent is held off (a source takeable; its own delay, log 29) it is refused; ids 5 to 7 are ILLEGAL_OP. -/
def Obligations.LockRaisesToTheCeiling : Prop :=
  ∀ s : State,
    (∀ r : BitVec 3, encode (.lock r) = 0x30000000#32 ||| r.setWidth 32 ∧
      (5 ≤ r.toNat → exec (.lock r) s = .next (refusedWith 1 s) ∧
        ∀ i, decodeWord (0x30000000#32 ||| r.setWidth 32) ≠ .ok i)) ∧
    ∀ x ∈ [(0#3, Resource.mode, (3 : Prio)), (1, .cmdmb, 3), (2, .distmb, 4), (3, .ovfcnt, 5), (4, .captmr, 5)],
      (agentFree s → prio (run s) ≤ x.2.2 → heldBy s x.2.1 = none →
        exec (.lock x.1) s = .next { s with pcl := { s.pcl with
          lckstk := ⟨run s, x.2.1, s.pcl.epri⟩ :: s.pcl.lckstk
          epri := if s.pcl.epri < x.2.2 then x.2.2 else s.pcl.epri } }) ∧
      (agentFree s → x.2.2 < prio (run s) → exec (.lock x.1) s = .next (refusedWith 3 s)) ∧
      (agentFree s → prio (run s) ≤ x.2.2 → heldBy s x.2.1 ≠ none →
        exec (.lock x.1) s = .next (refusedWith 4 s)) ∧
      (heldOff s = true → exec (.lock x.1) s = .next (refusedWith 2 s))

/-- R183, R186: `UNLOCK r` pops the most recent lock of the running agent and restores the EPRI it saved; anything else is
UNLOCK_ORDER; while the agent is held off (a source takeable; its own delay, log 29) it is refused; ids 5 to 7 are ILLEGAL_OP. -/
def Obligations.UnlockRestoresTheSavedPriority : Prop :=
  ∀ s : State,
    (∀ r : BitVec 3, encode (.unlock r) = 0x31000000#32 ||| r.setWidth 32 ∧
      (5 ≤ r.toNat → exec (.unlock r) s = .next (refusedWith 1 s) ∧
        ∀ i, decodeWord (0x31000000#32 ||| r.setWidth 32) ≠ .ok i)) ∧
    ∀ x ∈ [(0#3, Resource.mode), (1, .cmdmb), (2, .distmb), (3, .ovfcnt), (4, .captmr)],
      (∀ e rest, agentFree s → s.pcl.lckstk = ⟨run s, x.2, e⟩ :: rest →
        exec (.unlock x.1) s = .next { s with pcl := { s.pcl with lckstk := rest, epri := e } }) ∧
      (agentFree s → (∀ e rest, s.pcl.lckstk ≠ ⟨run s, x.2, e⟩ :: rest) →
        exec (.unlock x.1) s = .next (refusedWith 5 s)) ∧
      (heldOff s = true → exec (.unlock x.1) s = .next (refusedWith 2 s))

/-- R44, R185: the pending predicates, and takeable as the rule words it; at most one source is takeable. -/
def Obligations.HighestPendingSourceIsTakeable : Prop :=
  ∀ s : State,
    (pending s .ovf = (s.ecu.flg.getLsbD 1 && s.ecu.ctl.getLsbD 2) ∧ pending s .cap = s.ecu.flg.getLsbD 0 ∧
      pending s .uart = (s.host.rxf && s.host.rxie) ∧
      (pending s .trig = true ↔ s.ecu.trigSt = .pending ∨ (s.ecu.trigSt = .sleep ∧ s.ecu.trigDl ≤ s.now)) ∧
      pending s .nav = false) ∧
    (∀ b, takeable s b = true ↔
      pending s b = true ∧ s.pcl.epri < prio b ∧
        ∀ c, prio b < prio c → ¬ (pending s c = true ∧ s.pcl.epri < prio c)) ∧
    (∀ b c, takeable s b = true → takeable s c = true → b = c) ∧
    (anyTakeable s = true ↔ ∃ b, takeable s b = true)

/-- R186, R17: while a source is takeable, or the running agent's own delay lasts, every operation of the running agent, every
micro-step of the emitter's Run states and every turn of NAV is refused with NOT_ENABLED. The delays are NAV's busy-wait and the two
waits of the emitter. That a delay holds off every operation of the waiting agent is DEDUCED (log 29); that NAV's step is a turn,
and that a turn which has to wait is a refused step, is the model's (log 12, DEDUCED; log 14, DESIGN CHOICE). -/
def Obligations.TakeableSourceHoldsOffTheRunningAgent : Prop :=
  ∀ (s : State) (m : BitVec 4) (k : BitVec 2) (r : BitVec 3) (p : Byte), r.toNat ≤ 4 →
    (anyTakeable s = true ∨ (run s = .nav ∧ s.now < s.host.navDl) ∨
        (run s = .trig ∧ (s.ecu.trigSt = .run2 ∨ s.ecu.trigSt = .run3) ∧ s.now < s.ecu.trigDl) ↔ heldOff s = true) ∧
    (heldOff s = true →
      (∀ i ∈ [Instr.trigReq, .distRd, .distClr, .ctlSet m, .ctlClr m, .flgClr k, .cntRd, .ctlRd, .flgRd, .execFwd,
          .execRev, .execRt, .execLt, .execBrk, .execStp, .execDnt, .shift p, .encStep, .lock r, .unlock r],
        exec i s = .next (refusedWith 2 s)) ∧
      (s.ecu.trigSt.isRun = true → exec .trigStep s = .next (refusedWith 2 s)) ∧
      navTurnStep s = .next (refusedWith 2 s))

/-- R184: the three services and the wake enter and leave inside their step, so the arbiter's state is the same after as before. -/
def Obligations.ServicesLeaveTheArbiterAsItWas : Prop :=
  ∀ (i : Instr) (s t : State), i ∈ [Instr.svcOvf, .svcCap, .svcRx, .trigWake] → exec i s = .next t → t.pcl = s.pcl

/-- The invariant holds after startup: context and locks, encoder, ERR and the widths. -/
def Obligations.StartupSatisfiesTheInvariant : Prop :=
  stateOk State.reset = true

/-- R41 to R43, R192, R37, R161, R165, R241, R22, R32, R49, R50: every step keeps the invariant. The context stack is NAV, or the TRIG task above
NAV exactly while the emitter runs; every lock is the running agent's and EPRI is its priority raised by the ceilings held, each
saved EPRI the one before; no resource is locked twice; the idle encoder has no command; CLK is high only between its two writes
and LATCH low inside a frame; ERR is 0 to 8; OVF is below OVF_MAX; a distance in DISTMB, H.DR, H.DL or in an action NAV still has
to do (log 13) is below 2^32, and so is RES; that these are bounds of numbers is the model's form (log 21). -/
def Obligations.EveryStepKeepsTheInvariant : Prop :=
  ∀ s t : State, stateOk s = true → step s = .next t → stateOk t = true

/-- R188, R43, R192: in a state of the invariant a resource has one holder, the running agent, EPRI is at least its ceiling, no
source of a priority at most the ceiling is takeable, and at most LOCK_DEPTH locks are held. -/
def Obligations.LockExcludesItsCeiling : Prop :=
  ∀ (s : State) (r : Resource) (a : Agent), arbiterOk s = true → heldBy s r = some a →
    a = run s ∧ ceil r ≤ s.pcl.epri ∧ (∀ b, prio b ≤ ceil r → takeable s b = false) ∧ s.pcl.lckstk.length ≤ Config.params.lockDepth

/-! ### The documented host -/

/-- R211, R212, R214 to R216: `SVC.RX` echoes the byte and decodes it; a toggle switches the mode, to Manual with Brake in the
mailbox; 0x42 and 0x43 are Forward and Reverse in Manual mode; any other byte, and any command in Auto mode, is dropped. -/
def Obligations.CommandIngestEchoesAndDecodes : Prop :=
  ∀ s : State, takeable s .uart = true → arbiterOk s = true →
    let b := s.host.rxbyte
    let h : HostSide := { s.host with rxf := false, rxie := true, txlog := s.host.txlog ++ [b] }
    (b = Config.openBytes.toggle → s.host.mode = .auto →
      exec .svcRx s = .next { s with host := { h with mode := .manual, cmdmb := some .brake, ind := false } }) ∧
    (b = Config.openBytes.toggle → s.host.mode = .manual →
      exec .svcRx s = .next { s with host := { h with mode := .auto, ind := true } }) ∧
    (∀ c, (b, c) ∈ [(0x42#8, Command.forward), (0x43#8, .reverse), (Config.openBytes.right, .rightTurn),
        (Config.openBytes.left, .leftTurn), (Config.openBytes.brake, .brake), (Config.openBytes.stop, .stop),
        (Config.openBytes.donut, .donut)] →
      (s.host.mode = .manual → exec .svcRx s = .next { s with host := { h with cmdmb := some c } }) ∧
      (s.host.mode = .auto → exec .svcRx s = .next { s with host := h })) ∧
    (b ∉ Config.openBytes.all → exec .svcRx s = .next { s with host := h })

/-- R94: the eight operator bytes are pairwise distinct; nothing else is known of the six OPEN ones. -/
def Obligations.OperatorBytesAreDistinct : Prop :=
  Config.openBytes.all.Nodup ∧ Config.openBytes.all.length = 8

/-- R223 to R226, R228, R229, with the granularity of log 12 and NAV's remaining actions as log 13 holds them: what NAV's turns do
with a reading. `takeReading` polls again on an empty mailbox and otherwise takes the branch of the scan position, each followed by
the clear of R227; `decideTurn` chooses by the clearance on the two sides, then clears the debounce flag and waits 500 ms; and the
host writes of these branches. -/
def Obligations.NavigationDecidesByClearance : Prop :=
  ∀ (s : State) (rest : List NavAct), run s = .nav → agentFree s →
    let goesOn := fun l : List NavAct => navTurnStep s = .next { s with host := { s.host with nav := l } }
    let clearing := NavAct.lock .distmb :: .distClr :: .unlock .distmb :: rest
    (s.host.nav = .takeReading :: rest →
      (s.res = none → goesOn (.request :: .lock .distmb :: .distRd :: .unlock .distmb :: .takeReading :: rest)) ∧
      ∀ d, s.res = some d →
        (s.host.scan = .right → goesOn ([.setDr d, .scanner .left, .delay 1000000, .setScan .left] ++ clearing)) ∧
        (s.host.scan = .left →
          goesOn ([.setDl d, .scanner .middle, .delay 1000000, .setScan .middle, .decideTurn] ++ clearing)) ∧
        (s.host.scan = .middle →
          goesOn ((if d ≤ 20 then [.exec .brake, .encRun, .setDeb false, .scanner .right, .delay 1000000, .setScan .right]
            else if s.host.deb = true then [] else [.exec .forward, .encRun, .setDeb true]) ++ clearing))) ∧
    (s.host.nav = .decideTurn :: rest →
      goesOn ((if 20 < s.host.dr ∨ 20 < s.host.dl then
          (if s.host.dl < s.host.dr then [.exec .rightTurn, .encRun] else [.exec .leftTurn, .encRun])
        else [.exec .reverse, .encRun, .exec .rightTurn, .encRun]) ++ [.setDeb false, .delay 500000] ++ rest)) ∧
    (∀ d, s.host.nav = .setDr d :: rest → navTurnStep s = .next { s with host := { s.host with dr := d, nav := rest } }) ∧
    (∀ d, s.host.nav = .setDl d :: rest → navTurnStep s = .next { s with host := { s.host with dl := d, nav := rest } }) ∧
    (∀ b, s.host.nav = .setDeb b :: rest → navTurnStep s = .next { s with host := { s.host with deb := b, nav := rest } }) ∧
    (∀ p, s.host.nav = .setScan p :: rest → navTurnStep s = .next { s with host := { s.host with scan := p, nav := rest } }) ∧
    (∀ x ∈ [(ScanPos.right, Config.scannerDutyRight), (.middle, Config.scannerDutyMiddle), (.left, Config.scannerDutyLeft)],
      s.host.nav = .scanner x.1 :: rest →
        navTurnStep s = .next { s with host := { s.host with scanDuty := x.2, nav := rest } }) ∧
    (∀ n, s.host.nav = .delay n :: rest →
      navTurnStep s = .next { s with host := { s.host with navDl := s.now + n, nav := rest } })

/-- R222, R189, with the granularity of log 12, NAV's remaining actions as log 13 holds them, and the mixing of words and turns of
log 30: the turns of the Manual branch. Under the lock the mailbox is read; a command in it is executed after the unlock (its
acceptance, then its `ENC.STEP`s until the encoder is free), clears the debounce flag unless it is Forward, and the mailbox is
cleared under the lock; and the locks NAV takes and releases. Its writes of the debounce flag are `NavigationDecidesByClearance`'s. -/
def Obligations.NavigationDrainsTheMailbox : Prop :=
  ∀ (s : State) (rest : List NavAct), run s = .nav →
    (s.host.nav = .readCmd :: rest → agentFree s →
      (¬ holds s .cmdmb → navTurnStep s = .next (refusedWith 6 s)) ∧
      (holds s .cmdmb → s.host.cmdmb = none →
        navTurnStep s = .next { s with host := { s.host with nav := .unlock .cmdmb :: rest } }) ∧
      (∀ k, holds s .cmdmb → s.host.cmdmb = some k →
        navTurnStep s = .next { s with host := { s.host with nav :=
          [.unlock .cmdmb, .exec k, .encRun] ++ (if k = .forward then [] else [.setDeb false]) ++
            [.lock .cmdmb, .clearCmd, .unlock .cmdmb] ++ rest } })) ∧
    (∀ c, s.host.nav = .exec c :: rest → heldOff s = false →
      (s.mpe.busy = false →
        navTurnStep s = .next { s with
          mpe := { s.mpe with
            busy := true, owner := .nav, cmd := some c, pat := pattern c, phase := .main, pos := 0 }
          host := { s.host with nav := rest } }) ∧
      (s.mpe.busy = true → navTurnStep s = .next (refusedWith 7 s))) ∧
    (s.host.nav = .encRun :: rest → s.mpe.busy = true → s.mpe.owner = .nav →
      ∀ t, exec .encStep s = .next t →
        (t.mpe = s.mpe → navTurnStep s = .next t) ∧
        (t.mpe ≠ s.mpe → t.mpe.busy = true → navTurnStep s = .next t) ∧
        (t.mpe ≠ s.mpe → t.mpe.busy = false →
          navTurnStep s = .next { t with host := { t.host with nav := rest } })) ∧
    (s.host.nav = .encRun :: rest → agentFree s → navTurnStep s = .next { s with host := { s.host with nav := rest } }) ∧
    (s.host.nav = .clearCmd :: rest → agentFree s → holds s .cmdmb →
      navTurnStep s = .next { s with host := { s.host with cmdmb := none, nav := rest } }) ∧
    (∀ r, s.host.nav = .lock r :: rest → agentFree s → heldBy s r = none →
      navTurnStep s = .next { s with
        pcl := { s.pcl with
          lckstk := ⟨.nav, r, s.pcl.epri⟩ :: s.pcl.lckstk
          epri := if s.pcl.epri < ceil r then ceil r else s.pcl.epri }
        host := { s.host with nav := rest } }) ∧
    (∀ r e locks, s.host.nav = .unlock r :: rest → agentFree s → s.pcl.lckstk = ⟨.nav, r, e⟩ :: locks →
      navTurnStep s = .next { s with
        pcl := { s.pcl with lckstk := locks, epri := e }
        host := { s.host with nav := rest } })

/-! ### The whole machine -/

/-- R240, R48: ERR is sticky: once it is not 0 no step changes it; and a step that changes ERR, which writes a code of R241,
changes nothing else, but for the port that presented the operation. -/
def Obligations.ErrorCodeIsSticky : Prop :=
  ∀ s t : State, step s = .next t →
    (s.err ≠ 0 → t.err = s.err) ∧
    (t.err ≠ s.err → s.err = 0 ∧ 1 ≤ t.err.toNat ∧ t.err.toNat ≤ 8 ∧
      ∃ x rest, s.stream = x :: rest ∧ t = { s with stream := rest, err := t.err })

/-- R17, R21: only `TICK` moves NOW and only `TICK` changes CNT; a turn of NAV (log 12) changes neither. -/
def Obligations.OnlyTicksMoveTimeAndCounter : Prop :=
  (∀ (i : Instr) (s t : State), exec i s = .next t → (∀ n, i ≠ .tick n) → t.now = s.now ∧ t.ecu.cnt = s.ecu.cnt) ∧
  ∀ s t : State, navTurnStep s = .next t → t.now = s.now ∧ t.ecu.cnt = s.ecu.cnt

/-- R45, R36, R33: PINTRACE only grows, and only `TRIG.STEP` and `ENC.STEP` write pins; a turn of NAV (log 12) never writes
TRIGPIN, and writes the encoder's pins only where it issues an `ENC.STEP`. -/
def Obligations.OnlyStepsOfTheDriversWritePins : Prop :=
  (∀ (i : Instr) (s t : State), exec i s = .next t →
    s.pinTrace <+: t.pinTrace ∧
    (i ≠ .trigStep → t.ecu.trigPin = s.ecu.trigPin) ∧
    (i ≠ .encStep → t.mpe.data = s.mpe.data ∧ t.mpe.clk = s.mpe.clk ∧ t.mpe.latch = s.mpe.latch) ∧
    (i ≠ .trigStep → i ≠ .encStep → t.pinTrace = s.pinTrace)) ∧
  ∀ s t : State, navTurnStep s = .next t →
    s.pinTrace <+: t.pinTrace ∧ t.ecu.trigPin = s.ecu.trigPin ∧
    (s.host.nav.head? ≠ some .encRun →
      t.mpe.data = s.mpe.data ∧ t.mpe.clk = s.mpe.clk ∧ t.mpe.latch = s.mpe.latch ∧ t.pinTrace = s.pinTrace)

/-- R270, R271: every value that the spec states for startup. -/
def Obligations.StartupStateIsTheSpecs : Prop :=
  State.reset.ecu.ovf = 0 ∧ State.reset.ecu.cnt = 0 ∧ State.reset.ecu.distmb = none ∧ State.reset.host.cmdmb = none ∧
  State.reset.host.mode = .manual ∧ State.reset.host.scan = .middle ∧ State.reset.ecu.ecs = .idle ∧
  State.reset.ecu.pol = false ∧ State.reset.host.ind = false ∧ State.reset.host.deb = false ∧
  State.reset.ecu.cnten = true ∧ State.reset.ecu.ovfie = true ∧ State.reset.host.rxie = true ∧
  State.reset.ecu.capen = false ∧ State.reset.ecu.capf = false ∧ State.reset.ecu.ovff = false ∧
  State.reset.host.rxf = false ∧ State.reset.ecu.echo = false ∧ State.reset.mpe.clk = false ∧
  State.reset.ecu.trigSt = .off ∧ State.reset.mpe.busy = false ∧ State.reset.mpe.pos = 0 ∧ State.reset.mpe.cmd = none ∧
  State.reset.pcl.act = [⟨.nav, 0⟩] ∧ State.reset.pcl.epri = 1 ∧ State.reset.pcl.lckstk = [] ∧
  State.reset.err = 0 ∧ State.reset.res = none ∧ State.reset.pinTrace = [] ∧ State.reset.host.txlog = [] ∧
  State.reset.now = 0 ∧ run State.reset = .nav ∧ anyTakeable State.reset = false
end

