-- ==== Sys2Proof/Laws/Decode.lean ====
section
/-! SUPPORT. The fields of a packed word, and a word from its fields and from its bytes. -/

namespace Sys2Proof

@[simp] theorem unitField_pack (u f : BitVec 4) (a : BitVec 24) : unitField (pack u f a) = u := by
  apply BitVec.eq_of_getLsbD_eq
  intro i hi
  simp only [unitField, pack, BitVec.getLsbD_extractLsb', BitVec.getLsbD_append]
  interval_cases i <;> simp

@[simp] theorem fnField_pack (u f : BitVec 4) (a : BitVec 24) : fnField (pack u f a) = f := by
  apply BitVec.eq_of_getLsbD_eq
  intro i hi
  simp only [fnField, pack, BitVec.getLsbD_extractLsb', BitVec.getLsbD_append]
  interval_cases i <;> simp

@[simp] theorem argField_pack (u f : BitVec 4) (a : BitVec 24) : argField (pack u f a) = a := by
  apply BitVec.eq_of_getLsbD_eq
  intro i hi
  simp only [argField, pack, BitVec.getLsbD_extractLsb', BitVec.getLsbD_append]
  simp [hi]

/-- The operand field lies in the low 24 bits, below UNIT and FN (R81). -/
theorem pack_or (u f : BitVec 4) (a : BitVec 24) : pack u f a = pack u f 0 ||| a.setWidth 32 := by
  have ha := a.isLt
  apply BitVec.eq_of_toNat_eq
  simp only [pack, BitVec.toNat_append, BitVec.toNat_or, BitVec.toNat_setWidth]
  rw [Nat.mod_eq_of_lt (show a.toNat < 2 ^ 32 by omega)]
  simp

/-- A word is its three fields (R81). -/
theorem pack_fields (w : Word) : pack (unitField w) (fnField w) (argField w) = w := by
  apply BitVec.eq_of_getLsbD_eq
  intro i hi
  simp only [pack, unitField, fnField, argField, BitVec.getLsbD_append, BitVec.getLsbD_extractLsb']
  split
  · simp_all
  · rename_i h1
    split
    · rename_i h2
      rw [show 24 + (i - 24) = i by omega]; simp [h2]
    · rename_i h2
      rw [show 28 + (i - 24 - 4) = i by omega]
      rw [decide_eq_true (by omega), Bool.true_and]

/-- Four stored bytes give the word back (R65). -/
@[simp] theorem wordOfBytes_bytesOfWord (w : Word) :
    wordOfBytes (byteOf w 0) (byteOf w 1) (byteOf w 2) (byteOf w 3) = w := by
  apply BitVec.eq_of_getLsbD_eq
  intro i hi
  simp only [wordOfBytes, byteOf, BitVec.getLsbD_append, BitVec.getLsbD_extractLsb']
  split
  · simp_all
  · split
    · rw [show 8 * 1 + (i - 8) = i by omega]; simp_all
    · split
      · rw [show 8 * 2 + (i - 8 - 8) = i by omega]; simp_all
      · rw [show 8 * 3 + (i - 8 - 8 - 8) = i by omega]
        rw [decide_eq_true (by omega), Bool.true_and]

theorem argNone_ok_iff {a : BitVec 24} {i j : Instr} : argNone a i = .ok j ↔ a = 0 ∧ i = j := by
  unfold argNone; split <;> simp_all

theorem argLow_ok_iff {k : Nat} {a : BitVec 24} {f : BitVec k → Except DecodeError Instr} {j : Instr} :
    argLow k a f = .ok j ↔ a.toNat < 2 ^ k ∧ f (a.setWidth k) = .ok j := by
  unfold argLow; split <;> simp_all

/-- An operand field that fits comes back from the argument field (R83). -/
theorem setWidth_setWidth_of_lt {k : Nat} {a : BitVec 24} (h : a.toNat < 2 ^ k) :
    (a.setWidth k).setWidth 24 = a := by
  apply BitVec.eq_of_toNat_eq
  simp only [BitVec.toNat_setWidth, Nat.mod_eq_of_lt h]
  exact Nat.mod_eq_of_lt a.isLt

end Sys2Proof
end

