-- ==== Sys2Proof/Laws/State.lean ====
section
/-! SUPPORT. What each named update of the state leaves: one lemma per field the update does not write, and the written ones. -/

namespace Sys2Proof.Machine

variable (s : State)

/-! ### `refuse c s` -/

@[simp] theorem refuse_ecu (c : RefusalCode) : (refuse c s).ecu = s.ecu := rfl
@[simp] theorem refuse_mpe (c : RefusalCode) : (refuse c s).mpe = s.mpe := rfl
@[simp] theorem refuse_pcl (c : RefusalCode) : (refuse c s).pcl = s.pcl := rfl
@[simp] theorem refuse_host (c : RefusalCode) : (refuse c s).host = s.host := rfl
@[simp] theorem refuse_now (c : RefusalCode) : (refuse c s).now = s.now := rfl
@[simp] theorem refuse_err (c : RefusalCode) : (refuse c s).err = if s.err = 0 then refusalCode c else s.err := rfl
@[simp] theorem refuse_res (c : RefusalCode) : (refuse c s).res = s.res := rfl
@[simp] theorem refuse_pinTrace (c : RefusalCode) : (refuse c s).pinTrace = s.pinTrace := rfl
@[simp] theorem refuse_stream (c : RefusalCode) : (refuse c s).stream = s.stream := rfl
@[simp] theorem refuse_draws (c : RefusalCode) : (refuse c s).draws = s.draws := rfl

/-! ### `setLevel p b s` -/

@[simp] theorem setLevel_pcl (p : Pin) (b : Bool) : (setLevel p b s).pcl = s.pcl := by
  cases p <;> rfl
@[simp] theorem setLevel_host (p : Pin) (b : Bool) : (setLevel p b s).host = s.host := by
  cases p <;> rfl
@[simp] theorem setLevel_now (p : Pin) (b : Bool) : (setLevel p b s).now = s.now := by
  cases p <;> rfl
@[simp] theorem setLevel_err (p : Pin) (b : Bool) : (setLevel p b s).err = s.err := by
  cases p <;> rfl
@[simp] theorem setLevel_res (p : Pin) (b : Bool) : (setLevel p b s).res = s.res := by
  cases p <;> rfl
@[simp] theorem setLevel_pinTrace (p : Pin) (b : Bool) : (setLevel p b s).pinTrace = s.pinTrace := by
  cases p <;> rfl
@[simp] theorem setLevel_stream (p : Pin) (b : Bool) : (setLevel p b s).stream = s.stream := by
  cases p <;> rfl
@[simp] theorem setLevel_draws (p : Pin) (b : Bool) : (setLevel p b s).draws = s.draws := by
  cases p <;> rfl

/-! ### `drivePin p b s` -/

@[simp] theorem drivePin_ecu (p : Pin) (b : Bool) : (drivePin p b s).ecu = (setLevel p b s).ecu := by
  cases p <;> rfl
@[simp] theorem drivePin_mpe (p : Pin) (b : Bool) : (drivePin p b s).mpe = (setLevel p b s).mpe := by
  cases p <;> rfl
@[simp] theorem drivePin_pcl (p : Pin) (b : Bool) : (drivePin p b s).pcl = s.pcl := by
  cases p <;> rfl
@[simp] theorem drivePin_host (p : Pin) (b : Bool) : (drivePin p b s).host = s.host := by
  cases p <;> rfl
@[simp] theorem drivePin_now (p : Pin) (b : Bool) : (drivePin p b s).now = s.now := by
  cases p <;> rfl
@[simp] theorem drivePin_err (p : Pin) (b : Bool) : (drivePin p b s).err = s.err := by
  cases p <;> rfl
@[simp] theorem drivePin_res (p : Pin) (b : Bool) : (drivePin p b s).res = s.res := by
  cases p <;> rfl
@[simp] theorem drivePin_pinTrace (p : Pin) (b : Bool) : (drivePin p b s).pinTrace = s.pinTrace ++ [⟨p, b, s.now⟩] := by
  cases p <;> rfl
@[simp] theorem drivePin_stream (p : Pin) (b : Bool) : (drivePin p b s).stream = s.stream := by
  cases p <;> rfl
@[simp] theorem drivePin_draws (p : Pin) (b : Bool) : (drivePin p b s).draws = s.draws := by
  cases p <;> rfl

/-! ### `enter b s P` -/

@[simp] theorem enter_ecu (b : Agent) (P : Params) : (enter b s P).ecu = s.ecu := rfl
@[simp] theorem enter_mpe (b : Agent) (P : Params) : (enter b s P).mpe = s.mpe := rfl
@[simp] theorem enter_pcl (b : Agent) (P : Params) : (enter b s P).pcl = { s.pcl with act := ⟨b, s.pcl.epri⟩ :: s.pcl.act, epri := prio b P } := rfl
@[simp] theorem enter_host (b : Agent) (P : Params) : (enter b s P).host = s.host := rfl
@[simp] theorem enter_now (b : Agent) (P : Params) : (enter b s P).now = s.now := rfl
@[simp] theorem enter_err (b : Agent) (P : Params) : (enter b s P).err = s.err := rfl
@[simp] theorem enter_res (b : Agent) (P : Params) : (enter b s P).res = s.res := rfl
@[simp] theorem enter_pinTrace (b : Agent) (P : Params) : (enter b s P).pinTrace = s.pinTrace := rfl
@[simp] theorem enter_stream (b : Agent) (P : Params) : (enter b s P).stream = s.stream := rfl
@[simp] theorem enter_draws (b : Agent) (P : Params) : (enter b s P).draws = s.draws := rfl

/-! ### `memWrite c s` -/

@[simp] theorem memWrite_mpe (c : Content) : (memWrite c s).mpe = s.mpe := by
  cases c <;> rfl
@[simp] theorem memWrite_pcl (c : Content) : (memWrite c s).pcl = s.pcl := by
  cases c <;> rfl
@[simp] theorem memWrite_now (c : Content) : (memWrite c s).now = s.now := by
  cases c <;> rfl
@[simp] theorem memWrite_err (c : Content) : (memWrite c s).err = s.err := by
  cases c <;> rfl
@[simp] theorem memWrite_res (c : Content) : (memWrite c s).res = s.res := by
  cases c <;> rfl
@[simp] theorem memWrite_pinTrace (c : Content) : (memWrite c s).pinTrace = s.pinTrace := by
  cases c <;> rfl
@[simp] theorem memWrite_stream (c : Content) : (memWrite c s).stream = s.stream := by
  cases c <;> rfl
@[simp] theorem memWrite_draws (c : Content) : (memWrite c s).draws = s.draws := by
  cases c <;> rfl

/-! ### `elapse n s` -/

@[simp] theorem elapse_ecu (n : Nat) : (elapse n s).ecu = s.ecu.afterTicks n := rfl
@[simp] theorem elapse_mpe (n : Nat) : (elapse n s).mpe = s.mpe := rfl
@[simp] theorem elapse_pcl (n : Nat) : (elapse n s).pcl = s.pcl := rfl
@[simp] theorem elapse_host (n : Nat) : (elapse n s).host = s.host := rfl
@[simp] theorem elapse_now (n : Nat) : (elapse n s).now = s.now + n := rfl
@[simp] theorem elapse_err (n : Nat) : (elapse n s).err = s.err := rfl
@[simp] theorem elapse_res (n : Nat) : (elapse n s).res = s.res := rfl
@[simp] theorem elapse_pinTrace (n : Nat) : (elapse n s).pinTrace = s.pinTrace := rfl
@[simp] theorem elapse_stream (n : Nat) : (elapse n s).stream = s.stream := rfl
@[simp] theorem elapse_draws (n : Nat) : (elapse n s).draws = s.draws := rfl

/-! ### `elapseOne s` -/

@[simp] theorem elapseOne_ecu : (elapseOne s).ecu = s.ecu.afterTick := rfl
@[simp] theorem elapseOne_mpe : (elapseOne s).mpe = s.mpe := rfl
@[simp] theorem elapseOne_pcl : (elapseOne s).pcl = s.pcl := rfl
@[simp] theorem elapseOne_host : (elapseOne s).host = s.host := rfl
@[simp] theorem elapseOne_now : (elapseOne s).now = s.now + 1 := rfl
@[simp] theorem elapseOne_err : (elapseOne s).err = s.err := rfl
@[simp] theorem elapseOne_res : (elapseOne s).res = s.res := rfl
@[simp] theorem elapseOne_pinTrace : (elapseOne s).pinTrace = s.pinTrace := rfl
@[simp] theorem elapseOne_stream : (elapseOne s).stream = s.stream := rfl
@[simp] theorem elapseOne_draws : (elapseOne s).draws = s.draws := rfl

/-! ### `countRollover P s` -/

@[simp] theorem countRollover_ecu (P : Params) : (countRollover P s).ecu = { s.ecu with flg := flgClearOvf s.ecu.flg, ovf := ovfNext P s.ecu.ovf } := rfl
@[simp] theorem countRollover_mpe (P : Params) : (countRollover P s).mpe = s.mpe := rfl
@[simp] theorem countRollover_pcl (P : Params) : (countRollover P s).pcl = s.pcl := rfl
@[simp] theorem countRollover_host (P : Params) : (countRollover P s).host = s.host := rfl
@[simp] theorem countRollover_now (P : Params) : (countRollover P s).now = s.now := rfl
@[simp] theorem countRollover_err (P : Params) : (countRollover P s).err = s.err := rfl
@[simp] theorem countRollover_res (P : Params) : (countRollover P s).res = s.res := rfl
@[simp] theorem countRollover_pinTrace (P : Params) : (countRollover P s).pinTrace = s.pinTrace := rfl
@[simp] theorem countRollover_stream (P : Params) : (countRollover P s).stream = s.stream := rfl
@[simp] theorem countRollover_draws (P : Params) : (countRollover P s).draws = s.draws := rfl

/-! ### `publish P e s` -/

@[simp] theorem publish_mpe (P : Params) (e : Int) : (publish P e s).mpe = s.mpe := by
  unfold publish; split <;> rfl
@[simp] theorem publish_pcl (P : Params) (e : Int) : (publish P e s).pcl = s.pcl := by
  unfold publish; split <;> rfl
@[simp] theorem publish_host (P : Params) (e : Int) : (publish P e s).host = s.host := by
  unfold publish; split <;> rfl
@[simp] theorem publish_now (P : Params) (e : Int) : (publish P e s).now = s.now := by
  unfold publish; split <;> rfl
@[simp] theorem publish_err (P : Params) (e : Int) : (publish P e s).err = s.err := by
  unfold publish; split <;> rfl
@[simp] theorem publish_res (P : Params) (e : Int) : (publish P e s).res = s.res := by
  unfold publish; split <;> rfl
@[simp] theorem publish_pinTrace (P : Params) (e : Int) : (publish P e s).pinTrace = s.pinTrace := by
  unfold publish; split <;> rfl
@[simp] theorem publish_stream (P : Params) (e : Int) : (publish P e s).stream = s.stream := by
  unfold publish; split <;> rfl

/-! ### `idleArm s` -/

@[simp] theorem idleArm_ecu : (idleArm s).ecu = { s.ecu with t1 := s.ecu.cnt, ctl := ctlArm (ctlTurn s.ecu.ctl), ovf := 0, ecs := .done, flg := flgClearCap s.ecu.flg } := rfl
@[simp] theorem idleArm_mpe : (idleArm s).mpe = s.mpe := rfl
@[simp] theorem idleArm_pcl : (idleArm s).pcl = s.pcl := rfl
@[simp] theorem idleArm_host : (idleArm s).host = s.host := rfl
@[simp] theorem idleArm_now : (idleArm s).now = s.now := rfl
@[simp] theorem idleArm_err : (idleArm s).err = s.err := rfl
@[simp] theorem idleArm_res : (idleArm s).res = s.res := rfl
@[simp] theorem idleArm_pinTrace : (idleArm s).pinTrace = s.pinTrace := rfl
@[simp] theorem idleArm_stream : (idleArm s).stream = s.stream := rfl
@[simp] theorem idleArm_draws : (idleArm s).draws = s.draws := rfl

/-! ### `doneArm P s` -/

@[simp] theorem doneArm_mpe (P : Params) : (doneArm P s).mpe = s.mpe := by
  simp [doneArm]
@[simp] theorem doneArm_pcl (P : Params) : (doneArm P s).pcl = s.pcl := by
  simp [doneArm]
@[simp] theorem doneArm_host (P : Params) : (doneArm P s).host = s.host := by
  simp [doneArm]
@[simp] theorem doneArm_now (P : Params) : (doneArm P s).now = s.now := by
  simp [doneArm]
@[simp] theorem doneArm_err (P : Params) : (doneArm P s).err = s.err := by
  simp [doneArm]
@[simp] theorem doneArm_res (P : Params) : (doneArm P s).res = s.res := by
  simp [doneArm]
@[simp] theorem doneArm_pinTrace (P : Params) : (doneArm P s).pinTrace = s.pinTrace := by
  simp [doneArm]
@[simp] theorem doneArm_stream (P : Params) : (doneArm P s).stream = s.stream := by
  simp [doneArm]

/-! ### `captureArm P s` -/

@[simp] theorem captureArm_mpe (P : Params) : (captureArm P s).mpe = s.mpe := by
  unfold captureArm; split <;> simp
@[simp] theorem captureArm_pcl (P : Params) : (captureArm P s).pcl = s.pcl := by
  unfold captureArm; split <;> simp
@[simp] theorem captureArm_host (P : Params) : (captureArm P s).host = s.host := by
  unfold captureArm; split <;> simp
@[simp] theorem captureArm_now (P : Params) : (captureArm P s).now = s.now := by
  unfold captureArm; split <;> simp
@[simp] theorem captureArm_err (P : Params) : (captureArm P s).err = s.err := by
  unfold captureArm; split <;> simp
@[simp] theorem captureArm_res (P : Params) : (captureArm P s).res = s.res := by
  unfold captureArm; split <;> simp
@[simp] theorem captureArm_pinTrace (P : Params) : (captureArm P s).pinTrace = s.pinTrace := by
  unfold captureArm; split <;> simp
@[simp] theorem captureArm_stream (P : Params) : (captureArm P s).stream = s.stream := by
  unfold captureArm; split <;> simp

/-! ### `requestPulse s` -/

@[simp] theorem requestPulse_mpe : (requestPulse s).mpe = s.mpe := by
  unfold requestPulse; split <;> rfl
@[simp] theorem requestPulse_pcl : (requestPulse s).pcl = s.pcl := by
  unfold requestPulse; split <;> rfl
@[simp] theorem requestPulse_host : (requestPulse s).host = s.host := by
  unfold requestPulse; split <;> rfl
@[simp] theorem requestPulse_now : (requestPulse s).now = s.now := by
  unfold requestPulse; split <;> rfl
@[simp] theorem requestPulse_err : (requestPulse s).err = s.err := by
  unfold requestPulse; split <;> rfl
@[simp] theorem requestPulse_res : (requestPulse s).res = s.res := by
  unfold requestPulse; split <;> rfl
@[simp] theorem requestPulse_pinTrace : (requestPulse s).pinTrace = s.pinTrace := by
  unfold requestPulse; split <;> rfl
@[simp] theorem requestPulse_stream : (requestPulse s).stream = s.stream := by
  unfold requestPulse; split <;> rfl
@[simp] theorem requestPulse_draws : (requestPulse s).draws = s.draws := by
  unfold requestPulse; split <;> rfl

/-! ### `pulseEdge b w n s` -/

@[simp] theorem pulseEdge_ecu (b : Bool) (w : Nat) (n : TrigState) : (pulseEdge b w n s).ecu = { s.ecu with trigPin := b, trigDl := s.now + w, trigSt := n } := rfl
@[simp] theorem pulseEdge_mpe (b : Bool) (w : Nat) (n : TrigState) : (pulseEdge b w n s).mpe = s.mpe := rfl
@[simp] theorem pulseEdge_pcl (b : Bool) (w : Nat) (n : TrigState) : (pulseEdge b w n s).pcl = s.pcl := rfl
@[simp] theorem pulseEdge_host (b : Bool) (w : Nat) (n : TrigState) : (pulseEdge b w n s).host = s.host := rfl
@[simp] theorem pulseEdge_now (b : Bool) (w : Nat) (n : TrigState) : (pulseEdge b w n s).now = s.now := rfl
@[simp] theorem pulseEdge_err (b : Bool) (w : Nat) (n : TrigState) : (pulseEdge b w n s).err = s.err := rfl
@[simp] theorem pulseEdge_res (b : Bool) (w : Nat) (n : TrigState) : (pulseEdge b w n s).res = s.res := rfl
@[simp] theorem pulseEdge_pinTrace (b : Bool) (w : Nat) (n : TrigState) : (pulseEdge b w n s).pinTrace = s.pinTrace ++ [⟨.trigPin, b, s.now⟩] := rfl
@[simp] theorem pulseEdge_stream (b : Bool) (w : Nat) (n : TrigState) : (pulseEdge b w n s).stream = s.stream := rfl
@[simp] theorem pulseEdge_draws (b : Bool) (w : Nat) (n : TrigState) : (pulseEdge b w n s).draws = s.draws := rfl

/-! ### `endSerialization s` -/

@[simp] theorem endSerialization_ecu : (endSerialization s).ecu = s.ecu := by
  unfold endSerialization; split <;> rfl
@[simp] theorem endSerialization_pcl : (endSerialization s).pcl = s.pcl := by
  unfold endSerialization; split <;> rfl
@[simp] theorem endSerialization_host : (endSerialization s).host = s.host := by
  unfold endSerialization; split <;> rfl
@[simp] theorem endSerialization_now : (endSerialization s).now = s.now := by
  unfold endSerialization; split <;> rfl
@[simp] theorem endSerialization_err : (endSerialization s).err = s.err := by
  unfold endSerialization; split <;> rfl
@[simp] theorem endSerialization_res : (endSerialization s).res = s.res := by
  unfold endSerialization; split <;> rfl
@[simp] theorem endSerialization_pinTrace : (endSerialization s).pinTrace = s.pinTrace := by
  unfold endSerialization; split <;> rfl
@[simp] theorem endSerialization_stream : (endSerialization s).stream = s.stream := by
  unfold endSerialization; split <;> rfl
@[simp] theorem endSerialization_draws : (endSerialization s).draws = s.draws := by
  unfold endSerialization; split <;> rfl

/-! ### `receiveByte s` -/

@[simp] theorem receiveByte_ecu : (receiveByte s).ecu = s.ecu := rfl
@[simp] theorem receiveByte_mpe : (receiveByte s).mpe = s.mpe := rfl
@[simp] theorem receiveByte_pcl : (receiveByte s).pcl = s.pcl := rfl
@[simp] theorem receiveByte_host : (receiveByte s).host = { s.host with rxie := false, rxf := false, txlog := s.host.txlog ++ [s.host.rxbyte] } := rfl
@[simp] theorem receiveByte_now : (receiveByte s).now = s.now := rfl
@[simp] theorem receiveByte_err : (receiveByte s).err = s.err := rfl
@[simp] theorem receiveByte_res : (receiveByte s).res = s.res := rfl
@[simp] theorem receiveByte_pinTrace : (receiveByte s).pinTrace = s.pinTrace := rfl
@[simp] theorem receiveByte_stream : (receiveByte s).stream = s.stream := rfl
@[simp] theorem receiveByte_draws : (receiveByte s).draws = s.draws := rfl

/-! ### `decodeOperator t b s` -/

@[simp] theorem decodeOperator_ecu (t : OpenBytes) (b : Byte) : (decodeOperator t b s).ecu = s.ecu := by
  unfold decodeOperator; split <;> first | rfl | (split <;> rfl)
@[simp] theorem decodeOperator_mpe (t : OpenBytes) (b : Byte) : (decodeOperator t b s).mpe = s.mpe := by
  unfold decodeOperator; split <;> first | rfl | (split <;> rfl)
@[simp] theorem decodeOperator_pcl (t : OpenBytes) (b : Byte) : (decodeOperator t b s).pcl = s.pcl := by
  unfold decodeOperator; split <;> first | rfl | (split <;> rfl)
@[simp] theorem decodeOperator_now (t : OpenBytes) (b : Byte) : (decodeOperator t b s).now = s.now := by
  unfold decodeOperator; split <;> first | rfl | (split <;> rfl)
@[simp] theorem decodeOperator_err (t : OpenBytes) (b : Byte) : (decodeOperator t b s).err = s.err := by
  unfold decodeOperator; split <;> first | rfl | (split <;> rfl)
@[simp] theorem decodeOperator_res (t : OpenBytes) (b : Byte) : (decodeOperator t b s).res = s.res := by
  unfold decodeOperator; split <;> first | rfl | (split <;> rfl)
@[simp] theorem decodeOperator_pinTrace (t : OpenBytes) (b : Byte) : (decodeOperator t b s).pinTrace = s.pinTrace := by
  unfold decodeOperator; split <;> first | rfl | (split <;> rfl)
@[simp] theorem decodeOperator_stream (t : OpenBytes) (b : Byte) : (decodeOperator t b s).stream = s.stream := by
  unfold decodeOperator; split <;> first | rfl | (split <;> rfl)
@[simp] theorem decodeOperator_draws (t : OpenBytes) (b : Byte) : (decodeOperator t b s).draws = s.draws := by
  unfold decodeOperator; split <;> first | rfl | (split <;> rfl)

/-! ### `navGo l s` -/

@[simp] theorem navGo_ecu (l : List NavAct) : (navGo l s).ecu = s.ecu := rfl
@[simp] theorem navGo_mpe (l : List NavAct) : (navGo l s).mpe = s.mpe := rfl
@[simp] theorem navGo_pcl (l : List NavAct) : (navGo l s).pcl = s.pcl := rfl
@[simp] theorem navGo_host (l : List NavAct) : (navGo l s).host = { s.host with nav := l } := rfl
@[simp] theorem navGo_now (l : List NavAct) : (navGo l s).now = s.now := rfl
@[simp] theorem navGo_err (l : List NavAct) : (navGo l s).err = s.err := rfl
@[simp] theorem navGo_res (l : List NavAct) : (navGo l s).res = s.res := rfl
@[simp] theorem navGo_pinTrace (l : List NavAct) : (navGo l s).pinTrace = s.pinTrace := rfl
@[simp] theorem navGo_stream (l : List NavAct) : (navGo l s).stream = s.stream := rfl
@[simp] theorem navGo_draws (l : List NavAct) : (navGo l s).draws = s.draws := rfl

/-! ### The written records of the updates that choose -/

@[simp] theorem setLevel_trigPin (b : Bool) : setLevel .trigPin b s = { s with ecu := { s.ecu with trigPin := b } } := rfl
@[simp] theorem setLevel_data (b : Bool) : setLevel .data b s = { s with mpe := { s.mpe with data := b } } := rfl
@[simp] theorem setLevel_clk (b : Bool) : setLevel .clk b s = { s with mpe := { s.mpe with clk := b } } := rfl
@[simp] theorem setLevel_latch (b : Bool) : setLevel .latch b s = { s with mpe := { s.mpe with latch := b } } := rfl

@[simp] theorem memWrite_mode (m : OpMode) (b : Bool) :
    memWrite (.mode m b) s = { s with host := { s.host with mode := m, ind := b } } := rfl
@[simp] theorem memWrite_cmdmb (c : Option Command) :
    memWrite (.cmdmb c) s = { s with host := { s.host with cmdmb := c } } := rfl
@[simp] theorem memWrite_distmb (d : Option Nat) :
    memWrite (.distmb d) s = { s with ecu := { s.ecu with distmb := d } } := rfl
@[simp] theorem memWrite_ovfcnt (v : Nat) :
    memWrite (.ovfcnt v) s = { s with ecu := { s.ecu with ovf := v } } := rfl
@[simp] theorem memWrite_captmr (n : BitVec 16) (c : BitVec 4) (f : BitVec 2) :
    memWrite (.captmr n c f) s = { s with ecu := { s.ecu with cnt := n, ctl := c, flg := f } } := rfl

/-- The result of a publication (R118): a value is published in every case, and nothing of the unit but DISTMB changes. -/
theorem publish_ecu (P : Params) (e : Int) : ∃ d, (publish P e s).ecu = { s.ecu with distmb := some d } := by
  unfold publish; split <;> exact ⟨_, rfl⟩

end Sys2Proof.Machine
end

