-- ==== Sys2Proof/Laws/Ops.lean ====
section
/-! SUPPORT. What each shared operation can do, said once: an equivalence for "it answers ok", or the answer itself. -/

namespace Sys2Proof.Machine

variable {P : Params}

/-! ### Conclusion and refusal -/

@[simp] theorem conclude_ok (s t : State) : conclude s (.ok t) = .next t := rfl

@[simp] theorem conclude_error (s : State) (c : RefusalCode) : conclude s (.error c) = .next (refuse c s) := rfl

theorem conclude_next_iff {s t : State} {r : Except RefusalCode State} :
    conclude s r = .next t ↔ r = .ok t ∨ ∃ c, r = .error c ∧ t = refuse c s := by
  cases r with
  | ok u => simp
  | error c => simp [eq_comm]

theorem refuse_of_err_ne {c : RefusalCode} {s : State} (h : s.err ≠ 0) : refuse c s = s := by
  cases s; simp_all [refuse]

/-- A refusal only ever changes ERR (R240). -/
theorem refuse_eq (c : RefusalCode) (s : State) : refuse c s = { s with err := (refuse c s).err } := rfl

/-! ### The parameters at R12's defaults, and the priority and ceiling tables (R180, R181). The widths are no simp lemmas: inside a
`decide` they would leave its instance behind. -/

theorem params_ovfWidth : Config.params.ovfWidth = 16 := rfl
theorem params_distWidth : Config.params.distWidth = 32 := rfl
@[simp] theorem params_lockDepth : Config.params.lockDepth = 5 := rfl
@[simp] theorem params_ovfRule : Config.params.ovfRule = .after := rfl
@[simp] theorem params_captureSplit : Config.params.captureSplit = false := rfl
@[simp] theorem params_navExecUnderLock : Config.params.navExecUnderLock = false := rfl
@[simp] theorem params_navReqEachPoll : Config.params.navReqEachPoll = true := rfl
@[simp] theorem params_bytes : Config.params.bytes = Config.openBytes := rfl
theorem ovfMax_default : ovfMax = 65535 := rfl

@[simp] theorem prio_nav : prio .nav = 1 := rfl
@[simp] theorem prio_trig : prio .trig = 2 := rfl
@[simp] theorem prio_uart : prio .uart = 3 := rfl
@[simp] theorem prio_cap : prio .cap = 4 := rfl
@[simp] theorem prio_ovf : prio .ovf = 5 := rfl
@[simp] theorem ceil_mode : ceil .mode = 3 := rfl
@[simp] theorem ceil_cmdmb : ceil .cmdmb = 3 := rfl
@[simp] theorem ceil_distmb : ceil .distmb = 4 := rfl
@[simp] theorem ceil_ovfcnt : ceil .ovfcnt = 5 := rfl
@[simp] theorem ceil_captmr : ceil .captmr = 5 := rfl

/-! ### Sources -/

theorem contends_iff {s : State} {b : Agent} : contends s b P = true ↔ pending s b = true ∧ s.pcl.epri < prio b P := by
  simp [contends]

theorem takeable_contends {s : State} {b : Agent} (h : takeable s b P = true) : contends s b P = true := by
  simp only [takeable, Bool.and_eq_true] at h; exact h.1

theorem takeable_pending {s : State} {b : Agent} (h : takeable s b P = true) : pending s b = true :=
  (contends_iff.1 (takeable_contends h)).1

theorem takeable_epri {s : State} {b : Agent} (h : takeable s b P = true) : s.pcl.epri < prio b P :=
  (contends_iff.1 (takeable_contends h)).2

theorem takeable_ne_nav {s : State} {b : Agent} (h : takeable s b P = true) : b ≠ .nav := by
  rintro rfl; simpa [pending] using takeable_pending h

@[simp] theorem takeable_nav (s : State) (P : Params) : takeable s .nav P = false := by
  by_contra h; exact takeable_ne_nav (by simpa using h) rfl

theorem takeable_ovf_iff {s : State} : takeable s .ovf = true ↔ contends s .ovf = true := by
  simp [takeable, sources]

theorem takeable_cap_iff {s : State} :
    takeable s .cap = true ↔ contends s .cap = true ∧ contends s .ovf = false := by
  simp [takeable, sources]

theorem takeable_uart_iff {s : State} :
    takeable s .uart = true ↔ contends s .uart = true ∧ contends s .ovf = false ∧ contends s .cap = false := by
  simp [takeable, sources]

theorem takeable_trig_iff {s : State} :
    takeable s .trig = true ↔
      contends s .trig = true ∧ contends s .ovf = false ∧ contends s .cap = false ∧ contends s .uart = false := by
  simp [takeable, sources]

/-- Some source is takeable exactly when some source contends: the highest contender is takeable (R185). -/
theorem anyTakeable_false_iff {s : State} :
    anyTakeable s = false ↔
      contends s .ovf = false ∧ contends s .cap = false ∧ contends s .uart = false ∧ contends s .trig = false := by
  simp only [anyTakeable, sources, List.any_cons, List.any_nil, takeable, List.all_cons, List.all_nil, prio_trig, prio_uart,
    prio_cap, prio_ovf]
  cases contends s .ovf <;> cases contends s .cap <;> cases contends s .uart <;> cases contends s .trig <;> decide

/-! ### Entry and leave -/

@[simp] theorem run_enter (b : Agent) (s : State) (P : Params) : run (enter b s P) = b := rfl

theorem leave_ok_iff {s t : State} :
    leave s = .ok t ↔
      ∃ f rest, s.pcl.act = f :: rest ∧ f.agent ≠ .nav ∧ holdsAny s f.agent = false ∧
        t = { s with pcl := { s.pcl with act := rest, epri := f.saved } } := by
  unfold leave
  split
  · simp_all
  · rename_i f rest hne hact
    constructor
    · intro h
      split at h
      · simp at h
      · refine ⟨f, rest, hact, ?_, by simp_all, by simpa using h.symm⟩
        rintro hf; cases f; simp_all
    · rintro ⟨f', rest', h1, -, h3, rfl⟩
      obtain ⟨rfl, rfl⟩ := List.cons.inj (hact.symm.trans h1)
      simp [h3]
  · simp_all

/-- Leaving a context that was just entered, with the arbiter's state otherwise as the entry left it (R184, R187). -/
theorem leave_entered {b : Agent} {s t : State} (hb : b ≠ .nav) (hp : t.pcl = (enter b s P).pcl)
    (hl : holdsAny s b = false) : leave t = .ok { t with pcl := s.pcl } := by
  refine leave_ok_iff.2 ⟨⟨b, s.pcl.epri⟩, s.pcl.act, by simp [hp], hb, ?_, ?_⟩
  · simpa [holdsAny, hp] using hl
  · simp [hp]

/-- A service whose body does not touch the arbiter: entry and leave cancel (R184). -/
theorem serve_body_ok {b : Agent} {body : State → Except RefusalCode State} {s t : State}
    (ht : takeable s b P = true) (hbody : body (enter b s P) = .ok t) (hp : t.pcl = (enter b s P).pcl)
    (hl : holdsAny s b = false) : serve b body s P = .ok { t with pcl := s.pcl } := by
  simp only [serve, ht, if_true, hbody]
  exact leave_entered (takeable_ne_nav ht) hp hl

theorem serve_not_takeable {b : Agent} {body : State → Except RefusalCode State} {s : State}
    (h : takeable s b P = false) : serve b body s P = .error .notEnabled := by simp [serve, h]

theorem serve_ok_iff {b : Agent} {body : State → Except RefusalCode State} {s t : State} :
    serve b body s P = .ok t ↔ takeable s b P = true ∧ ∃ u, body (enter b s P) = .ok u ∧ leave u = .ok t := by
  unfold serve
  cases h : takeable s b P <;> simp
  cases body (enter b s P) <;> simp

/-! ### Guards -/

theorem heldOff_false_iff {s : State} : heldOff s P = false ↔ anyTakeable s P = false ∧ waiting s = false := by
  simp [heldOff]

/-- Whose delay lasts, and until when (R17, R122, R123, R228). -/
theorem waiting_iff {s : State} :
    waiting s = true ↔ (run s = .nav ∧ s.now < s.host.navDl) ∨
      (run s = .trig ∧ (s.ecu.trigSt = .run2 ∨ s.ecu.trigSt = .run3) ∧ s.now < s.ecu.trigDl) := by
  unfold waiting
  cases run s <;> simp

theorem asRunning_ok_iff {s t : State} {k : Except RefusalCode State} :
    asRunning s k P = .ok t ↔ heldOff s P = false ∧ ownerBlocked s = false ∧ k = .ok t := by
  unfold asRunning
  cases heldOff s P <;> cases ownerBlocked s <;> simp

theorem asRunning_free {s : State} {k : Except RefusalCode State} (h1 : heldOff s P = false)
    (h2 : ownerBlocked s = false) : asRunning s k P = k := by simp [asRunning, h1, h2]

theorem asRunning_heldOff {s : State} {k : Except RefusalCode State} (h : heldOff s P = true) :
    asRunning s k P = .error .notEnabled := by simp [asRunning, h]

theorem asRunning_blocked {s : State} {k : Except RefusalCode State} (h : ownerBlocked s = true) :
    asRunning s k P = .error .notEnabled := by simp [asRunning, h]

theorem withHeld_ok_iff {s t : State} {r : Resource} {k : Except RefusalCode State} :
    withHeld s r k = .ok t ↔ heldBy s r = some (run s) ∧ k = .ok t := by
  unfold withHeld; split <;> simp_all

theorem onShared_ok_iff {s t u : State} {r : Resource} :
    onShared s r u P = .ok t ↔
      heldOff s P = false ∧ ownerBlocked s = false ∧ heldBy s r = some (run s) ∧ t = u := by
  rw [onShared, asRunning_ok_iff, withHeld_ok_iff, Except.ok.injEq, eq_comm (a := u)]

theorem ownerBlocked_of_idle {s : State} (h : s.mpe.busy = false) : ownerBlocked s = false := by
  simp [ownerBlocked, h]

/-! ### Locks -/

theorem acquire_ok_iff {r : Resource} {s t : State} :
    acquire r s P = .ok t ↔
      ¬ ceil r P < prio (run s) P ∧ heldBy s r = none ∧
        t = { s with pcl := { s.pcl with
          lckstk := ⟨run s, r, s.pcl.epri⟩ :: s.pcl.lckstk, epri := raise s.pcl.epri (ceil r P) } } := by
  unfold acquire
  split
  · simp_all
  · split
    · rename_i h; constructor
      · simp
      · rintro ⟨-, h', -⟩; simp [h'] at h
    · rename_i h1 h2
      rw [Except.ok.injEq]
      exact ⟨fun h => ⟨h1, by simpa using h2, h.symm⟩, fun h => h.2.2.symm⟩

theorem release_ok_iff {r : Resource} {s t : State} :
    release r s = .ok t ↔
      ∃ e rest, s.pcl.lckstk = e :: rest ∧ e.agent = run s ∧ e.res = r ∧
        t = { s with pcl := { s.pcl with lckstk := rest, epri := e.saved } } := by
  unfold release
  split
  · rename_i e rest h
    constructor
    · intro h'
      split at h'
      · rename_i hc; exact ⟨e, rest, h, hc.1, hc.2, by simpa using h'.symm⟩
      · simp at h'
    · rintro ⟨e', rest', h1, h2, h3, rfl⟩
      obtain ⟨rfl, rfl⟩ := List.cons.inj (h.symm.trans h1)
      simp [h2, h3]
  · simp_all

theorem lockOp_ok_iff {r : Resource} {s t : State} :
    lockOp r s P = .ok t ↔ heldOff s P = false ∧ ownerBlocked s = false ∧ acquire r s P = .ok t := asRunning_ok_iff

theorem unlockOp_ok_iff {r : Resource} {s t : State} :
    unlockOp r s P = .ok t ↔ heldOff s P = false ∧ ownerBlocked s = false ∧ release r s = .ok t := asRunning_ok_iff

/-- Taking a lock and releasing it at once gives the state back (R182, R183). -/
theorem release_acquire {r : Resource} {s t : State} (h : acquire r s P = .ok t) : release r t = .ok s := by
  obtain ⟨-, -, rfl⟩ := acquire_ok_iff.1 h
  exact release_ok_iff.2 ⟨_, _, rfl, rfl, rfl, rfl⟩

/-! ### Shared resources (R62) -/

/-- A read after a write of the same resource gives what was written. -/
theorem memRead_memWrite_same (c : Content) (s : State) : memRead c.resource (memWrite c s) = c := by
  cases c <;> rfl

/-- A write leaves every other resource alone. -/
theorem memRead_memWrite_other {r : Resource} {c : Content} (s : State) (h : r ≠ c.resource) :
    memRead r (memWrite c s) = memRead r s := by
  cases c <;> cases r <;> first | rfl | exact absurd rfl h

/-! ### Families -/

/-- A register of at most 32 bits is read as the number it holds (R14, R49). -/
theorem zext32_toNat {n : Nat} (v : BitVec n) (h : n ≤ 32) : (zext32 v).toNat = v.toNat := by
  have := v.isLt
  have := Nat.pow_le_pow_right (n := 2) (by decide) h
  simp only [zext32, BitVec.toNat_setWidth]
  exact Nat.mod_eq_of_lt (by omega)

theorem echoChange_ok_iff {b : Bool} {s t : State} :
    echoChange b s = .ok t ↔ s.ecu.echo ≠ b ∧ t = { s with ecu := s.ecu.afterEdge b } := by
  unfold echoChange; split <;> simp_all [eq_comm]

/-- `ovf_next` at R12's defaults (R115). -/
theorem ovfNext_default (v : Nat) : ovfNext Config.params v = if v + 1 = 65535 then 0 else (v + 1) % 65536 := rfl

/-- The new value of OVF is below OVF_MAX when the old one was (R115). -/
theorem ovfNext_default_lt {v : Nat} (h : v < 65535) : ovfNext Config.params v < 65535 := by
  rw [ovfNext_default]; split <;> omega

theorem serviceOverflow_ok {s : State} (h : takeable s .ovf P = true) (hl : holdsAny s .ovf = false) :
    serviceOverflow P s = .ok (countRollover P s) :=
  serve_body_ok (body := fun t => .ok (countRollover P t)) h rfl rfl hl

/-- A service of a body that answers on every state is taken exactly when its source is takeable and holds no lock. -/
theorem serve_total_ok_iff {b : Agent} {g : State → State} {s t : State} (hg : (g (enter b s P)).pcl = (enter b s P).pcl) :
    serve b (fun u => .ok (g u)) s P = .ok t ↔
      takeable s b P = true ∧ holdsAny s b = false ∧ t = { g (enter b s P) with pcl := s.pcl } := by
  constructor
  · intro h
    obtain ⟨h1, u, hu, hl⟩ := serve_ok_iff.1 h
    obtain rfl : g (enter b s P) = u := Except.ok.inj hu
    obtain ⟨f, rest, hact, hn, hh, ht⟩ := leave_ok_iff.1 hl
    rw [hg] at hact
    obtain ⟨rfl, rfl⟩ := List.cons.inj hact
    refine ⟨h1, by simpa [holdsAny, hg] using hh, ht.trans ?_⟩
    rw [hg]; rfl
  · rintro ⟨h1, h2, rfl⟩
    exact serve_body_ok (body := fun u => .ok (g u)) h1 rfl hg h2

theorem serviceOverflow_ok_iff {s t : State} :
    serviceOverflow P s = .ok t ↔ takeable s .ovf P = true ∧ holdsAny s .ovf = false ∧ t = countRollover P s :=
  serve_total_ok_iff (g := countRollover P) rfl

theorem publish_withPcl (e : Int) (s : State) (p : Pcl) :
    publish P e { s with pcl := p } = { publish P e s with pcl := p } := by
  unfold publish; split <;> rfl

/-- The capture arms neither read nor write the arbiter. -/
theorem captureArm_withPcl (s : State) (p : Pcl) :
    captureArm P { s with pcl := p } = { captureArm P s with pcl := p } := by
  unfold captureArm
  cases s.ecu.ecs
  · rfl
  · exact publish_withPcl (elapsed s.ecu.t1 s.ecu.cnt s.ecu.ovf) { s with ecu := { s.ecu with
      t2 := s.ecu.cnt, ctl := ctlDisarm (ctlTurn s.ecu.ctl), ecs := .idle, flg := flgClearCap s.ecu.flg } } p

theorem serviceCapture_ok_iff {s t : State} (hP : P.captureSplit = false) :
    serviceCapture P s = .ok t ↔ takeable s .cap P = true ∧ holdsAny s .cap = false ∧ t = captureArm P s := by
  rw [serviceCapture, hP, if_neg (by decide), serve_total_ok_iff (by simp)]
  rw [show enter .cap s P = { s with pcl := (enter .cap s P).pcl } from rfl, captureArm_withPcl]
  have : { { captureArm P s with pcl := (enter .cap s P).pcl } with pcl := s.pcl } = captureArm P s := by
    rw [← captureArm_pcl s P]
  simp only [this]

end Sys2Proof.Machine
end

