-- ==== Sys2Proof/Laws/Families.lean ====
section
/-! SUPPORT. What each family's operation can do when it answers ok, said once; the proofs about `exec` cite these and unfold
nothing. -/

namespace Sys2Proof.Machine

variable {P : Params}

/-! ### Trigger emitter (R121 to R126) -/

theorem requestOp_ok_iff {s t : State} :
    requestOp s P = .ok t ↔ heldOff s P = false ∧ ownerBlocked s = false ∧ t = requestPulse s := by
  rw [requestOp, asRunning_ok_iff, Except.ok.injEq, eq_comm (a := requestPulse s)]

theorem asEmitter_ok_iff {s t : State} {dl : Nat} {k : Except RefusalCode State} :
    asEmitter s dl k P = .ok t ↔
      run s = .trig ∧ dl ≤ s.now ∧ heldOff s P = false ∧ ownerBlocked s = false ∧ k = .ok t := by
  unfold asEmitter
  split
  · rename_i h; rw [asRunning_ok_iff]; simp [h.1, h.2]
  · rename_i h; simp; intro h1 h2; exact absurd ⟨h1, h2⟩ h

theorem startPulse_ok_iff {s t : State} :
    startPulse s P = .ok t ↔ takeable s .trig P = true ∧
      t = { s with
        pcl := { s.pcl with act := ⟨.trig, s.pcl.epri⟩ :: s.pcl.act, epri := prio .trig P }
        ecu := { s.ecu with ctl := ctlArm s.ecu.ctl, trigSt := .run1 } } := by
  unfold startPulse
  split
  · rename_i h; simp only [h, true_and, Except.ok.injEq]; exact eq_comm
  · simp_all

/-- A micro-step of the emitter, by the state of the emitter. -/
theorem emitterStep_ok_iff {s t : State} :
    emitterStep s P = .ok t ↔
      (s.ecu.trigSt = .pending ∧ startPulse s P = .ok t) ∨
      (run s = .trig ∧ heldOff s P = false ∧ ownerBlocked s = false ∧
        ((s.ecu.trigSt = .run1 ∧ t = pulseEdge false trigLowUs .run2 s) ∨
          (s.ecu.trigSt = .run2 ∧ s.ecu.trigDl ≤ s.now ∧ t = pulseEdge true trigHighUs .run3 s) ∨
          (s.ecu.trigSt = .run3 ∧ s.ecu.trigDl ≤ s.now ∧
            leave (pulseEdge false (ms trigSleepMs) .sleep s) = .ok t))) := by
  unfold emitterStep
  cases h : s.ecu.trigSt <;> simp only [asEmitter_ok_iff, Except.ok.injEq, @eq_comm _ _ t, reduceCtorEq] <;> simp <;> tauto

theorem wakeOp_ok_iff {s t : State} :
    wakeOp s P = .ok t ↔ s.ecu.trigSt = .sleep ∧ takeable s .trig P = true ∧ holdsAny s .trig = false ∧
      t = { s with ecu := { s.ecu with trigSt := .off } } := by
  unfold wakeOp
  split
  · rename_i h
    rw [serve_total_ok_iff (g := fun t => { t with ecu := { t.ecu with trigSt := .off } }) rfl]
    simp [h]
  · simp_all

/-! ### Encoder (R158 to R163) -/

theorem acceptOp_ok_iff {cmd : Option Command} {p : Byte} {s t : State} :
    acceptOp cmd p s P = .ok t ↔ heldOff s P = false ∧ s.mpe.busy = false ∧
      t = { s with mpe := { s.mpe with
        busy := true, owner := run s, cmd := cmd, pat := p, phase := .main, pos := 0 } } := by
  unfold acceptOp
  cases heldOff s P <;> cases s.mpe.busy <;> simp [eq_comm]

theorem serialStep_ok_iff {s t : State} :
    serialStep s = .ok t ↔
      (microWaits (microStep s.mpe.pos) = true → s.mpe.dl ≤ s.now) ∧
      ((s.mpe.pos.val = 25 ∧
          t = endSerialization (drivePin (microPin s.mpe.pat (microStep s.mpe.pos)).1
            (microPin s.mpe.pat (microStep s.mpe.pos)).2 s)) ∨
        (s.mpe.pos.val ≠ 25 ∧
          t = { drivePin (microPin s.mpe.pat (microStep s.mpe.pos)).1 (microPin s.mpe.pat (microStep s.mpe.pos)).2 s with
            mpe := { (setLevel (microPin s.mpe.pat (microStep s.mpe.pos)).1
                (microPin s.mpe.pat (microStep s.mpe.pos)).2 s).mpe with
              pos := s.mpe.pos + 1, dl := microDeadline s.now s.mpe.dl (microStep s.mpe.pos) } })) := by
  unfold serialStep
  simp only [drivePin_mpe]
  cases hw : microWaits (microStep s.mpe.pos)
  · by_cases hp : s.mpe.pos.val = 25 <;> simp [hp, @eq_comm _ _ t]
  · by_cases hd : s.now < s.mpe.dl
    · simp [hd]
    · by_cases hp : s.mpe.pos.val = 25 <;> simp [hd, hp, Nat.le_of_not_lt hd, @eq_comm _ _ t]

theorem endHold_ok_iff {s t : State} :
    endHold s = .ok t ↔ s.mpe.dl ≤ s.now ∧ t = { s with mpe := { s.mpe with phase := .zero, pat := 0, pos := 0 } } := by
  unfold endHold
  split
  · simp; intro h; omega
  · rename_i h; simp [Nat.le_of_not_lt h, eq_comm]

theorem encoderStep_ok_iff {s t : State} :
    encoderStep s P = .ok t ↔ s.mpe.busy = true ∧ s.mpe.owner = run s ∧ heldOff s P = false ∧
      ((s.mpe.phase = .hold ∧ endHold s = .ok t) ∨ (s.mpe.phase ≠ .hold ∧ serialStep s = .ok t)) := by
  unfold encoderStep
  split
  · rename_i h
    cases hp : s.mpe.phase <;> simp [h.1, h.2.1, h.2.2]
  · rename_i h
    simp; intro h1 h2 h3; exact absurd ⟨h1, h2, h3⟩ h

/-- An `ENC.STEP` leaves the host state (R162, R163). -/
theorem encoderStep_host {s t : State} (h : encoderStep s P = .ok t) : t.host = s.host := by
  obtain ⟨-, -, -, ⟨-, h⟩ | ⟨-, h⟩⟩ := encoderStep_ok_iff.1 h
  · obtain ⟨-, rfl⟩ := endHold_ok_iff.1 h; rfl
  · obtain ⟨-, ⟨-, rfl⟩ | ⟨-, rfl⟩⟩ := serialStep_ok_iff.1 h <;> simp

/-! ### Documented host (R211, R212) -/

theorem decodeOperator_withPcl (t : OpenBytes) (b : Byte) (s : State) (p : Pcl) :
    decodeOperator t b { s with pcl := p } = { decodeOperator t b s with pcl := p } := by
  unfold decodeOperator
  cases classifyByte t b <;> simp only <;> cases s.host.mode <;> rfl

/-- A lock taken and then released by its holder, whatever was done outside the arbiter in between. -/
theorem release_after {r : Resource} {s t u : State} (h : acquire r s P = .ok t) (hu : u.pcl = t.pcl) :
    release r u = .ok { u with pcl := s.pcl } := by
  obtain ⟨-, -, rfl⟩ := acquire_ok_iff.1 h
  exact release_ok_iff.2 ⟨⟨run s, r, s.pcl.epri⟩, s.pcl.lckstk, by rw [hu], by simp [run, hu], rfl, by rw [hu]⟩

theorem acquire_withPcl {r : Resource} {s t : State} (h : acquire r s P = .ok t) : t = { s with pcl := t.pcl } := by
  obtain ⟨-, -, rfl⟩ := acquire_ok_iff.1 h; rfl

/-- The decode with both locks taken and released again: the arbiter is left as it was (R213). -/
theorem decodeLocked_ok_iff {b : Byte} {s u : State} :
    decodeLocked P b s = .ok u ↔
      (prio (run s) P ≤ ceil .mode P ∧ prio (run s) P ≤ ceil .cmdmb P) ∧ heldBy s .mode = none ∧ heldBy s .cmdmb = none ∧
        u = decodeOperator P.bytes b s := by
  unfold decodeLocked
  split
  · rename_i c h1
    refine ⟨by simp, ?_⟩
    rintro ⟨⟨h2, -⟩, h3, -⟩
    rw [acquire_ok_iff.2 ⟨not_lt.2 h2, h3, rfl⟩] at h1; simp at h1
  · rename_i s1 h1
    obtain ⟨h2, h3, hs1⟩ := acquire_ok_iff.1 h1
    have hheld : heldBy s1 .cmdmb = heldBy s .cmdmb := by rw [hs1]; rfl
    have hrun : run s1 = run s := by rw [hs1]; rfl
    split
    · rename_i c h4
      refine ⟨by simp, ?_⟩
      rintro ⟨⟨-, h5⟩, -, h6, -⟩
      rw [acquire_ok_iff.2 ⟨by rw [hrun]; exact not_lt.2 h5, hheld.trans h6, rfl⟩] at h4; simp at h4
    · rename_i s2 h4
      obtain ⟨h8, h5, -⟩ := acquire_ok_iff.1 h4
      rw [hrun] at h8
      have h6 : s2 = { s with pcl := s2.pcl } := by
        rw [acquire_withPcl h4]; rw [acquire_withPcl h1]
      rw [release_after h4 (u := decodeOperator P.bytes b s2) (by simp)]
      simp only
      rw [release_after h1 (by rfl), h6, decodeOperator_withPcl, Except.ok.injEq]
      have h7 : { decodeOperator P.bytes b s with pcl := s.pcl } = decodeOperator P.bytes b s :=
        (decodeOperator_withPcl P.bytes b s s.pcl).symm
      simp only [h7]
      exact ⟨fun h => ⟨⟨not_lt.1 h2, not_lt.1 h8⟩, h3, hheld ▸ h5, h.symm⟩, fun h => h.2.2.2.symm⟩

/-- The state after a handler that was not refused (R211). -/
def ingested (P : Params) (s : State) : State :=
  { decodeOperator P.bytes s.host.rxbyte (receiveByte s) with
    host := { (decodeOperator P.bytes s.host.rxbyte (receiveByte s)).host with rxie := true } }

theorem ingested_withPcl (P : Params) (s : State) (p : Pcl) :
    ingested P { s with pcl := p } = { ingested P s with pcl := p } := by
  unfold ingested
  rw [show receiveByte { s with pcl := p } = { receiveByte s with pcl := p } from rfl, decodeOperator_withPcl]

@[simp] theorem ingested_pcl (P : Params) (s : State) : (ingested P s).pcl = s.pcl := by simp [ingested]

theorem ingest_ok_iff {s t : State} :
    ingest P s = .ok t ↔
      (prio (run s) P ≤ ceil .mode P ∧ prio (run s) P ≤ ceil .cmdmb P) ∧ heldBy s .mode = none ∧ heldBy s .cmdmb = none ∧
        t = ingested P s := by
  unfold ingest
  split
  · rename_i u h
    obtain ⟨h1, h2, h3, rfl⟩ := decodeLocked_ok_iff.1 h
    rw [Except.ok.injEq]
    exact ⟨fun h => ⟨h1, h2, h3, h.symm⟩, fun h => h.2.2.2.symm⟩
  · rename_i c h
    refine ⟨by simp, ?_⟩
    rintro ⟨h1, h2, h3, -⟩
    rw [(decodeLocked_ok_iff (s := receiveByte s)).2 ⟨h1, h2, h3, rfl⟩] at h; simp at h

/-- `SVC.RX` is taken when its source is takeable, the UART's priority is at most both ceilings and no lock of the shared state is
held. -/
theorem serviceUart_ok_iff {s t : State} :
    serviceUart P s = .ok t ↔
      takeable s .uart P = true ∧ holdsAny s .uart = false ∧
        (prio .uart P ≤ ceil .mode P ∧ prio .uart P ≤ ceil .cmdmb P) ∧ heldBy s .mode = none ∧ heldBy s .cmdmb = none ∧
        t = ingested P s := by
  unfold serviceUart
  rw [serve_ok_iff]
  have hg : ingested P (enter .uart s P) = { ingested P s with pcl := (enter .uart s P).pcl } := ingested_withPcl P s _
  have hback : { ingested P (enter .uart s P) with pcl := s.pcl } = ingested P s := by
    rw [hg]; simp only; rw [← ingested_pcl P s]
  constructor
  · rintro ⟨h1, u, h2, h3⟩
    obtain ⟨h6, h4, h5, rfl⟩ := ingest_ok_iff.1 h2
    obtain ⟨f, rest, h7, -, h8, h9⟩ := leave_ok_iff.1 h3
    rw [ingested_pcl] at h7
    obtain ⟨rfl, rfl⟩ := List.cons.inj h7
    refine ⟨h1, ?_, h6, h4, h5, h9.trans (Eq.trans ?_ hback)⟩
    · simpa [holdsAny] using h8
    · rw [ingested_pcl]; rfl
  · rintro ⟨h1, h2, h6, h3, h4, rfl⟩
    refine ⟨h1, ingested P (enter .uart s P), ingest_ok_iff.2 ⟨h6, h3, h4, rfl⟩, ?_⟩
    rw [leave_entered (P := P) (b := .uart) (by decide) (by simp) h2, hback]

/-- At R12's defaults the ceilings never refuse the UART handler. -/
theorem serviceUart_default_ok_iff {s t : State} :
    serviceUart Config.params s = .ok t ↔
      takeable s .uart = true ∧ holdsAny s .uart = false ∧ heldBy s .mode = none ∧ heldBy s .cmdmb = none ∧
        t = ingested Config.params s := by
  rw [serviceUart_ok_iff]; simp

end Sys2Proof.Machine
end

