-- ==== Sys2Proof/Laws/Exec.lean ====
section
/-! SUPPORT. Everything `exec` and `step` can do, said once: a refusal, or the effect of the operation under its conditions. -/

namespace Sys2Proof.Machine

/-- The conditions and the guards of an operation of the running agent on a shared resource. -/
def SharedEffect (r : Resource) (s t u : State) : Prop :=
  heldOff s = false ∧ ownerBlocked s = false ∧ heldBy s r = some (run s) ∧ t = u

/-- What `exec` does when it does not refuse: the conditions on `s`, and the next state `t`. -/
def Effect (s t : State) : Instr → Prop
  | .tick n => t = elapse n.toNat s
  | .echoR => s.ecu.echo = false ∧ t = { s with ecu := s.ecu.afterEdge true }
  | .echoF => s.ecu.echo = true ∧ t = { s with ecu := s.ecu.afterEdge false }
  | .rx b => t = { s with host := { s.host with rxbyte := b, rxf := true } }
  | .svcOvf => takeable s .ovf = true ∧ holdsAny s .ovf = false ∧ t = countRollover Config.params s
  | .svcCap => takeable s .cap = true ∧ holdsAny s .cap = false ∧ t = captureArm Config.params s
  | .trigReq => heldOff s = false ∧ ownerBlocked s = false ∧ t = requestPulse s
  | .trigStep => emitterStep s = .ok t
  | .trigWake => s.ecu.trigSt = .sleep ∧ takeable s .trig = true ∧ holdsAny s .trig = false ∧
      t = { s with ecu := { s.ecu with trigSt := .off } }
  | .distRd => SharedEffect .distmb s t { s with res := s.ecu.distmb }
  | .distClr => SharedEffect .distmb s t (memWrite (.distmb none) s)
  | .ctlSet m => SharedEffect .captmr s t (memWrite (.captmr s.ecu.cnt (maskSet s.ecu.ctl m) s.ecu.flg) s)
  | .ctlClr m => SharedEffect .captmr s t (memWrite (.captmr s.ecu.cnt (maskClear s.ecu.ctl m) s.ecu.flg) s)
  | .flgClr m => SharedEffect .captmr s t (memWrite (.captmr s.ecu.cnt s.ecu.ctl (maskClear s.ecu.flg m)) s)
  | .cntRd => SharedEffect .captmr s t { s with res := some (zext32 s.ecu.cnt).toNat }
  | .ctlRd => SharedEffect .captmr s t { s with res := some (zext32 s.ecu.ctl).toNat }
  | .flgRd => SharedEffect .captmr s t { s with res := some (zext32 s.ecu.flg).toNat }
  | .execFwd => commandOp .forward s = .ok t
  | .execRev => commandOp .reverse s = .ok t
  | .execRt => commandOp .rightTurn s = .ok t
  | .execLt => commandOp .leftTurn s = .ok t
  | .execBrk => commandOp .brake s = .ok t
  | .execStp => commandOp .stop s = .ok t
  | .execDnt => commandOp .donut s = .ok t
  | .shift p => acceptOp none p s = .ok t
  | .encStep => encoderStep s = .ok t
  | .lock r => ∃ q, resourceOfId r = some q ∧ lockOp q s = .ok t
  | .unlock r => ∃ q, resourceOfId r = some q ∧ unlockOp q s = .ok t
  | .svcRx => takeable s .uart = true ∧ holdsAny s .uart = false ∧ heldBy s .mode = none ∧
      heldBy s .cmdmb = none ∧ t = ingested Config.params s

theorem onResourceId_ok_iff {r : BitVec 3} {k : Resource → Except RefusalCode State} {t : State} :
    onResourceId r k = .ok t ↔ ∃ q, resourceOfId r = some q ∧ k q = .ok t := by
  unfold onResourceId
  cases resourceOfId r <;> simp

/-- Everything `exec` can do: it refuses, changing only ERR, or it has the operation's effect. -/
theorem exec_next {i : Instr} {s t : State} (h : exec i s = .next t) : (∃ c, t = refuse c s) ∨ Effect s t i := by
  have key : ∀ r : Except RefusalCode State, conclude s r = .next t →
      (∃ c, t = refuse c s) ∨ r = .ok t := by
    intro r hr
    rcases conclude_next_iff.1 hr with h | ⟨c, -, h⟩
    · exact .inr h
    · exact .inl ⟨c, h⟩
  cases i
  case tick n => exact .inr (Host.Outcome.next.inj h).symm
  case rx b => exact .inr (Host.Outcome.next.inj h).symm
  case echoR => exact (key _ h).imp_right fun h => by simpa [Effect] using echoChange_ok_iff.1 h
  case echoF => exact (key _ h).imp_right fun h => by simpa [Effect] using echoChange_ok_iff.1 h
  case svcOvf => exact (key _ h).imp_right serviceOverflow_ok_iff.1
  case svcCap => exact (key _ h).imp_right (serviceCapture_ok_iff rfl).1
  case trigReq => exact (key _ h).imp_right requestOp_ok_iff.1
  case trigStep => exact key _ h
  case trigWake => exact (key _ h).imp_right wakeOp_ok_iff.1
  case distRd => exact (key _ h).imp_right onShared_ok_iff.1
  case distClr => exact (key _ h).imp_right onShared_ok_iff.1
  case ctlSet m => exact (key _ h).imp_right onShared_ok_iff.1
  case ctlClr m => exact (key _ h).imp_right onShared_ok_iff.1
  case flgClr m => exact (key _ h).imp_right onShared_ok_iff.1
  case cntRd => exact (key _ h).imp_right onShared_ok_iff.1
  case ctlRd => exact (key _ h).imp_right onShared_ok_iff.1
  case flgRd => exact (key _ h).imp_right onShared_ok_iff.1
  case lock r => exact (key _ h).imp_right onResourceId_ok_iff.1
  case unlock r => exact (key _ h).imp_right onResourceId_ok_iff.1
  case svcRx => exact (key _ h).imp_right serviceUart_default_ok_iff.1
  all_goals exact key _ h

/-- Everything a step can do: nothing is presented; a word is refused; its operation runs; or NAV takes its turn. -/
theorem step_next {s t : State} (h : step s = .next t) :
    t = s ∨ ∃ x rest, s.stream = x :: rest ∧
      ((∃ c, t = refuse c { s with stream := rest }) ∨
        (∃ i, exec i { s with stream := rest } = .next t) ∨
        navTurnStep { s with stream := rest } = .next t) := by
  unfold step presented at h
  cases hs : s.stream with
  | nil => rw [hs] at h; exact .inl (Host.Outcome.next.inj h).symm
  | cons x rest =>
    rw [hs] at h
    refine .inr ⟨x, rest, rfl, ?_⟩
    cases x with
    | navTurn => exact .inr (.inr h)
    | word w =>
      simp only at h
      split at h
      · exact .inr (.inl ⟨_, h⟩)
      · exact .inl ⟨_, (Host.Outcome.next.inj h).symm⟩

/-- At R12's defaults the parameterised machine is `exec` (logs 21, 23). -/
theorem execUnder_params (i : Instr) (s : State) : execUnder Config.params i s = exec i s := by
  cases i <;> rfl

/-- At R12's defaults the parameterised machine is `step` (logs 21, 23). -/
theorem stepUnder_params (s : State) : stepUnder Config.params s = step s := by
  unfold stepUnder step
  simp only [execUnder_params]
  rfl

/-- At R12's defaults the parameterised startup is `State.reset` (log 21). -/
theorem resetUnder_params : resetUnder Config.params = State.reset := rfl

/-- The operation of the block that an action of NAV issues; none for its own host accesses (R221 to R229). -/
def navInstr : NavAct → Option Instr
  | .lock r => some (.lock (resourceCode r))
  | .unlock r => some (.unlock (resourceCode r))
  | .readMode => none
  | .readCmd => none
  | .clearCmd => none
  | .request => some .trigReq
  | .distRd => some .distRd
  | .takeReading => none
  | .distClr => some .distClr
  | .exec c => some (execOf c)
  | .encRun => some .encStep
  | .setDr _ => none
  | .setDl _ => none
  | .scanner _ => none
  | .delay _ => none
  | .setScan _ => none
  | .setDeb _ => none
  | .decideTurn => none

theorem navIssue_ok_iff {rest : List NavAct} {r : Except RefusalCode State} {t : State} :
    navIssue rest r = .ok t ↔ ∃ u, r = .ok u ∧ t = navGo rest u := by
  cases r <;> simp [navIssue, eq_comm]

/-- Everything an action of NAV can do outside the host record: nothing, or the effect of the one operation it issues (log 12). -/
theorem navDo_ok {a : NavAct} {rest : List NavAct} {s t : State} (h : navDo Config.params a rest s = .ok t) :
    (∃ k, t = { s with host := k }) ∨
      ∃ i u k, navInstr a = some i ∧ Effect s u i ∧ t = { u with host := k } := by
  have alone : ∀ k, asRunning s (.ok (navGo rest { s with host := k })) = .ok t → ∃ k, t = { s with host := k } := by
    intro k hk
    exact ⟨_, (Except.ok.inj (asRunning_ok_iff.1 hk).2.2).symm⟩
  cases a with
  | lock r =>
    obtain ⟨u, h1, h2⟩ := navIssue_ok_iff.1 h
    exact .inr ⟨_, u, _, rfl, ⟨r, by cases r <;> rfl, h1⟩, h2⟩
  | unlock r =>
    obtain ⟨u, h1, h2⟩ := navIssue_ok_iff.1 h
    exact .inr ⟨_, u, _, rfl, ⟨r, by cases r <;> rfl, h1⟩, h2⟩
  | readMode => exact .inl ⟨_, (onShared_ok_iff.1 h).2.2.2⟩
  | readCmd => exact .inl ⟨_, (onShared_ok_iff.1 h).2.2.2⟩
  | clearCmd => exact .inl ⟨_, (onShared_ok_iff.1 h).2.2.2⟩
  | request =>
    obtain ⟨u, h1, h2⟩ := navIssue_ok_iff.1 h
    exact .inr ⟨_, u, _, rfl, requestOp_ok_iff.1 h1, h2⟩
  | distRd =>
    obtain ⟨u, h1, h2⟩ := navIssue_ok_iff.1 h
    exact .inr ⟨_, u, _, rfl, onShared_ok_iff.1 h1, h2⟩
  | takeReading => exact .inl ⟨_, (Except.ok.inj (asRunning_ok_iff.1 h).2.2).symm⟩
  | distClr =>
    obtain ⟨u, h1, h2⟩ := navIssue_ok_iff.1 h
    exact .inr ⟨_, u, _, rfl, onShared_ok_iff.1 h1, h2⟩
  | exec c =>
    obtain ⟨u, h1, h2⟩ := navIssue_ok_iff.1 h
    exact .inr ⟨_, u, _, rfl, by cases c <;> exact h1, h2⟩
  | encRun =>
    simp only [navDo] at h
    split at h
    · split at h
      · rename_i u h1
        refine .inr ⟨_, u, t.host, rfl, h1, ?_⟩
        rw [← Except.ok.inj h]; split <;> rfl
      · simp at h
    · exact .inl (alone s.host h)
  | setDr d => exact .inl (alone _ h)
  | setDl d => exact .inl (alone _ h)
  | scanner p => exact .inl (alone _ h)
  | delay n => exact .inl (alone _ h)
  | setScan p => exact .inl (alone _ h)
  | setDeb b => exact .inl (alone _ h)
  | decideTurn => exact .inl ⟨_, (Except.ok.inj (asRunning_ok_iff.1 h).2.2).symm⟩

/-- NAV's turn while NAV runs is its next action. -/
theorem navTurnStep_nav {s : State} (h : run s = .nav) :
    navTurnStep s = conclude s (navDo Config.params (navNext s).1 (navNext s).2 s) := by
  rw [navTurnStep, navStep, if_pos h]

/-- Everything NAV's turn can do outside the host record. -/
theorem navTurnStep_next {s t : State} (h : navTurnStep s = .next t) :
    (∃ c, t = refuse c s) ∨ (∃ k, t = { s with host := k }) ∨
      ∃ i u k, navInstr (navNext s).1 = some i ∧ Effect s u i ∧ t = { u with host := k } := by
  rcases conclude_next_iff.1 h with h | ⟨c, -, h⟩
  · unfold navStep at h
    split at h
    · exact .inr (navDo_ok h)
    · simp at h
  · exact .inl ⟨c, h⟩

/-- What NAV's actions do with readings (R223 to R225): H.DR and H.DL are written only by the action that holds the value, and an
action leaves to do no reading but those that were there, or the one in RES. -/
theorem navDo_readings {P : Params} {a : NavAct} {rest : List NavAct} {s t : State} (h : navDo P a rest s = .ok t) :
    (t.host.dr = s.host.dr ∨ a.reading = some t.host.dr) ∧ (t.host.dl = s.host.dl ∨ a.reading = some t.host.dl) ∧
      ∀ x ∈ t.host.nav, x ∈ s.host.nav ∨ x ∈ rest ∨ x.reading = none ∨ x.reading = s.res := by
  have adds : ∀ l : List NavAct, (∀ x ∈ l, x.reading = none ∨ x.reading = s.res) →
      t.host.dr = s.host.dr ∧ t.host.dl = s.host.dl ∧ t.host.nav = l ++ rest →
      (t.host.dr = s.host.dr ∨ a.reading = some t.host.dr) ∧ (t.host.dl = s.host.dl ∨ a.reading = some t.host.dl) ∧
        ∀ x ∈ t.host.nav, x ∈ s.host.nav ∨ x ∈ rest ∨ x.reading = none ∨ x.reading = s.res := by
    intro l hl e
    refine ⟨.inl e.1, .inl e.2.1, fun x hx => ?_⟩
    rw [e.2.2] at hx
    exact .inr ((List.mem_append.1 hx).elim (fun h => .inr (hl x h)) .inl)
  have done := adds [] (by simp)
  have issued : ∀ r, navIssue rest r = .ok t → (∀ u, r = .ok u → u.host = s.host) →
      t.host.dr = s.host.dr ∧ t.host.dl = s.host.dl ∧ t.host.nav = [] ++ rest := by
    intro r hr hu
    obtain ⟨u, h1, rfl⟩ := navIssue_ok_iff.1 hr
    rw [navGo_host, hu u h1]; exact ⟨rfl, rfl, rfl⟩
  have plain : ∀ (l : List NavAct) (u : State), asRunning s (.ok (navGo l u)) P = .ok t → t.host = { u.host with nav := l } :=
    fun l u hk => by rw [← Except.ok.inj (asRunning_ok_iff.1 hk).2.2]; rfl
  cases a with
  | lock r => exact done (issued _ h fun u hu => by obtain ⟨-, -, rfl⟩ := acquire_ok_iff.1 (lockOp_ok_iff.1 hu).2.2; rfl)
  | unlock r =>
    exact done (issued _ h fun u hu => by obtain ⟨_, _, -, -, -, rfl⟩ := release_ok_iff.1 (unlockOp_ok_iff.1 hu).2.2; rfl)
  | request => exact done (issued _ h fun u hu => by obtain ⟨-, -, rfl⟩ := requestOp_ok_iff.1 hu; simp)
  | distRd => exact done (issued _ h fun u hu => by obtain ⟨-, -, -, rfl⟩ := onShared_ok_iff.1 hu; rfl)
  | distClr => exact done (issued _ h fun u hu => by obtain ⟨-, -, -, rfl⟩ := onShared_ok_iff.1 hu; rfl)
  | exec c => exact done (issued _ h fun u hu => by obtain ⟨-, -, rfl⟩ := acceptOp_ok_iff.1 hu; rfl)
  | readMode =>
    refine adds (.unlock .mode :: navBranch s.host.mode) ?_ (by rw [(onShared_ok_iff.1 h).2.2.2]; exact ⟨rfl, rfl, rfl⟩)
    cases s.host.mode <;> simp [navBranch, navPoll, NavAct.reading]
  | readCmd =>
    refine adds (navManual P.navExecUnderLock s.host.cmdmb) ?_ (by rw [(onShared_ok_iff.1 h).2.2.2]; exact ⟨rfl, rfl, rfl⟩)
    rcases s.host.cmdmb with _ | k
    · simp [navManual, NavAct.reading]
    · cases P.navExecUnderLock <;> cases k <;> simp [navManual, navRunCommand, navExec, NavAct.reading]
  | clearCmd => rw [(onShared_ok_iff.1 h).2.2.2]; exact ⟨.inl rfl, .inl rfl, fun x hx => .inr (.inl hx)⟩
  | takeReading =>
    refine adds (navReading P.navReqEachPoll s.host.deb s.host.scan s.res) ?_ (by rw [plain _ s h]; exact ⟨rfl, rfl, rfl⟩)
    rcases s.res with _ | d
    · cases P.navReqEachPoll <;> simp [navReading, navPoll, NavAct.reading]
    · cases s.host.scan
      · simp [navReading, navScan, navMove, navFinish, NavAct.reading]
      · simp only [navReading, navScan]
        split
        · simp [navExec, navMove, navFinish, NavAct.reading]
        · cases s.host.deb <;> simp [navExec, navFinish, NavAct.reading]
      · simp [navReading, navScan, navMove, navFinish, NavAct.reading]
  | decideTurn =>
    refine adds (navTurn s.host.dr s.host.dl) ?_ (by rw [plain _ s h]; exact ⟨rfl, rfl, rfl⟩)
    unfold navTurn
    split
    · split <;> simp [navExec, NavAct.reading]
    · simp [navExec, NavAct.reading]
  | encRun =>
    simp only [navDo] at h
    split at h
    · split at h
      · rename_i u h1
        have hu := encoderStep_host h1
        rw [← Except.ok.inj h]
        split
        · rw [hu]; exact ⟨.inl rfl, .inl rfl, fun x hx => .inl hx⟩
        · rw [navGo_host, hu]; exact ⟨.inl rfl, .inl rfl, fun x hx => .inr (.inl hx)⟩
      · simp at h
    · rw [plain _ s h]; exact ⟨.inl rfl, .inl rfl, fun x hx => .inr (.inl hx)⟩
  | setDr d => rw [plain _ _ h]; exact ⟨.inr rfl, .inl rfl, fun x hx => .inr (.inl hx)⟩
  | setDl d => rw [plain _ _ h]; exact ⟨.inl rfl, .inr rfl, fun x hx => .inr (.inl hx)⟩
  | scanner p => rw [plain _ _ h]; exact ⟨.inl rfl, .inl rfl, fun x hx => .inr (.inl hx)⟩
  | delay n => rw [plain _ _ h]; exact ⟨.inl rfl, .inl rfl, fun x hx => .inr (.inl hx)⟩
  | setScan p => rw [plain _ _ h]; exact ⟨.inl rfl, .inl rfl, fun x hx => .inr (.inl hx)⟩
  | setDeb b => rw [plain _ _ h]; exact ⟨.inl rfl, .inl rfl, fun x hx => .inr (.inl hx)⟩

/-- The same of NAV's turn: every reading in the state after it was one in the state before it, or the one in RES. -/
theorem navTurnStep_readings {s t : State} (h : navTurnStep s = .next t) :
    (t.host.dr = s.host.dr ∨ ∃ x ∈ s.host.nav, x.reading = some t.host.dr) ∧
      (t.host.dl = s.host.dl ∨ ∃ x ∈ s.host.nav, x.reading = some t.host.dl) ∧
      ∀ x ∈ t.host.nav, x ∈ s.host.nav ∨ x.reading = none ∨ x.reading = s.res := by
  rcases conclude_next_iff.1 h with h | ⟨c, -, rfl⟩
  · unfold navStep at h
    split at h
    · obtain ⟨h1, h2, h3⟩ := navDo_readings h
      unfold navNext at h1 h2 h3
      cases hn : s.host.nav with
      | nil =>
        rw [hn] at h1 h2 h3
        refine ⟨.inl (h1.resolve_right (by simp [NavAct.reading])), .inl (h2.resolve_right (by simp [NavAct.reading])), ?_⟩
        intro x hx
        rcases h3 x hx with h | h | h
        · exact .inl h
        · right; left; rw [List.mem_singleton.1 h]; rfl
        · exact .inr h
      | cons a rest =>
        rw [hn] at h1 h2 h3
        refine ⟨h1.imp_right fun h => ⟨a, by simp, h⟩, h2.imp_right fun h => ⟨a, by simp, h⟩, ?_⟩
        intro x hx
        rcases h3 x hx with h | h | h
        · exact .inl h
        · exact .inl (.tail _ h)
        · exact .inr h
    · simp at h
  · exact ⟨.inl rfl, .inl rfl, fun x hx => .inl hx⟩

/-! ### The expansions issued from a state (R104) -/

@[simp] theorem stateAfter_nil (s : State) (P : Params) : stateAfter [] s P = s := rfl

@[simp] theorem stateAfter_cons (i : Instr) (l : List Instr) (s : State) (P : Params) :
    stateAfter (i :: l) s P = stateAfter l (opAfter i s P) P := rfl

theorem stateAfter_append (l k : List Instr) (s : State) (P : Params) :
    stateAfter (l ++ k) s P = stateAfter k (stateAfter l s P) P := List.foldl_append

@[simp] theorem opAfter_tick (n : BitVec 24) (s : State) (P : Params) : opAfter (.tick n) s P = elapse n.toNat s := rfl

/-- The `TICK`s of a wait take its time (R104). -/
theorem stateAfter_tickOps_now (t : Nat) (s : State) (P : Params) : (stateAfter (tickOps t) s P).now = s.now + t := by
  have full : ∀ (k : Nat) (u : State),
      (stateAfter (List.replicate k (.tick (BitVec.ofNat 24 maxTick))) u P).now = u.now + k * maxTick := by
    intro k
    induction k with
    | zero => simp
    | succ k ih =>
      intro u
      rw [List.replicate_succ, stateAfter_cons, ih, opAfter_tick, elapse_now, Nat.succ_mul]
      simp only [maxTick, BitVec.toNat_ofNat]; omega
  have hdiv := Nat.div_add_mod t maxTick
  rw [tickOps, stateAfter_append]
  split
  · rename_i h; rw [stateAfter_nil, full]; rw [h.1, Nat.mul_comm] at hdiv; omega
  · rw [stateAfter_cons, stateAfter_nil, opAfter_tick, elapse_now, full, Nat.mul_comm]
    have : t % maxTick < maxTick := Nat.mod_lt _ (by decide)
    rw [BitVec.toNat_ofNat, Nat.mod_eq_of_lt (lt_trans this (by decide))]; omega

/-- A wait up to the next rollover is one `TICK`. -/
theorem stateAfter_tickOps_small {t : Nat} (h : t < maxTick) (s : State) (P : Params) :
    stateAfter (tickOps t) s P = elapse t s := by
  have h1 : t / maxTick = 0 := Nat.div_eq_of_lt h
  rw [tickOps, h1, Nat.mod_eq_of_lt h, if_neg (by rintro ⟨h2, h3⟩; exact h3 h2)]
  simp only [List.replicate_zero, List.nil_append, stateAfter_cons, stateAfter_nil, opAfter_tick, BitVec.toNat_ofNat]
  rw [Nat.mod_eq_of_lt (lt_trans h (by decide))]

/-- `SVC.OVF` is inserted exactly where the overflow service is takeable (R104, R185). -/
theorem mem_overflowAfter {s : State} {P : Params} {i : Instr} :
    i ∈ overflowAfter s P ↔ i = .svcOvf ∧ takeable s .ovf P = true := by
  unfold overflowAfter
  split <;> simp_all

/-- An inserted `SVC.OVF` is served: it is not refused, whatever the state, unless the overflow handler holds a lock (R114, R187). -/
theorem stateAfter_overflowAfter {s : State} {P : Params} (h : holdsAny s .ovf = false) :
    stateAfter (overflowAfter s P) s P = if takeable s .ovf P then countRollover P s else s := by
  unfold overflowAfter
  split
  · rename_i ht; simp [opAfter, execUnder, serviceOverflow_ok ht h]
  · rfl

/-- The inserted service takes no time and leaves CNT and CTL. -/
theorem stateAfter_overflowAfter_frame (s : State) (P : Params) :
    (stateAfter (overflowAfter s P) s P).now = s.now ∧ (stateAfter (overflowAfter s P) s P).ecu.cnt = s.ecu.cnt ∧
      (stateAfter (overflowAfter s P) s P).ecu.ctl = s.ecu.ctl := by
  unfold overflowAfter
  split
  · simp only [stateAfter_cons, stateAfter_nil, opAfter, execUnder]
    cases h : serviceOverflow P s with
    | error c => simp
    | ok u => obtain ⟨-, -, rfl⟩ := serviceOverflow_ok_iff.1 h; simp
  · simp

/-- Splitting at the rollovers loses no time: `TICK t`, split at rollovers that it crosses, takes `t` ticks (R104). -/
theorem stateAfter_splitTick_now (P : Params) : ∀ (r t : Nat) (s : State), s.ecu.cnten = true → r * 65536 ≤ s.ecu.cnt.toNat + t →
    (stateAfter (splitTick r t s P) s P).now = s.now + t := by
  intro r
  induction r with
  | zero => intro t s _ _; exact stateAfter_tickOps_now t s P
  | succ r ih =>
    intro t s hc hr
    have hlt := s.ecu.cnt.isLt
    rw [splitTick]
    obtain ⟨d, hd⟩ : ∃ d, d = 65536 - s.ecu.cnt.toNat := ⟨_, rfl⟩
    rw [← hd]
    have hfirst := stateAfter_tickOps_small (t := d) (by unfold maxTick; omega) s P
    obtain ⟨f1, -, f3⟩ := stateAfter_overflowAfter_frame (elapse d s) P
    have hctl : (elapse d s).ecu.ctl = s.ecu.ctl := by
      rw [elapse_ecu, Ecu.afterTicks, if_pos hc]
    have hrest : r * 65536 ≤ t - d := by
      rw [Nat.add_mul, Nat.one_mul] at hr
      generalize r * 65536 = m at hr ⊢
      omega
    simp only [hfirst, stateAfter_append]
    split
    · rename_i h0; rw [stateAfter_nil, f1, elapse_now, hd]; omega
    · rw [ih _ _ (by rw [Ecu.cnten, f3, hctl]; exact hc) (hrest.trans (Nat.le_add_left _ _)), f1, elapse_now,
        Nat.add_assoc, Nat.add_sub_of_le (by omega)]

/-- The same of a `TICK` as it is issued, counting or not (R104, R110). -/
theorem stateAfter_issuedTick_now (t : Nat) (s : State) (P : Params) :
    (stateAfter (splitTick (rolloversIn t s) t s P) s P).now = s.now + t := by
  unfold rolloversIn
  split
  · rename_i hc; exact stateAfter_splitTick_now P _ t s hc (Nat.div_mul_le_self _ _)
  · exact stateAfter_tickOps_now t s P

end Sys2Proof.Machine
end

