-- ==== Sys2Proof/Laws/PerInstr.lean ====
section
/-! SUPPORT. One fact per operation: the encoder's word selects the row of 30_encoding.md R85 (`w & mask = match`). -/

namespace Sys2Proof.Laws.RowMatch

open Sys2Proof

/-- `match` and `mask` of the row of R85. -/
def row : Instr → Word × Word
  | .tick _ => (0x01000000#32, 0xFF000000#32)
  | .echoR => (0x02000000#32, 0xFFFFFFFF#32)
  | .echoF => (0x03000000#32, 0xFFFFFFFF#32)
  | .rx _ => (0x04000000#32, 0xFFFFFF00#32)
  | .svcOvf => (0x10000000#32, 0xFFFFFFFF#32)
  | .svcCap => (0x11000000#32, 0xFFFFFFFF#32)
  | .trigReq => (0x12000000#32, 0xFFFFFFFF#32)
  | .trigStep => (0x13000000#32, 0xFFFFFFFF#32)
  | .trigWake => (0x14000000#32, 0xFFFFFFFF#32)
  | .distRd => (0x15000000#32, 0xFFFFFFFF#32)
  | .distClr => (0x16000000#32, 0xFFFFFFFF#32)
  | .ctlSet _ => (0x17000000#32, 0xFFFFFFF0#32)
  | .ctlClr _ => (0x18000000#32, 0xFFFFFFF0#32)
  | .flgClr _ => (0x19000000#32, 0xFFFFFFFC#32)
  | .cntRd => (0x1A000000#32, 0xFFFFFFFF#32)
  | .ctlRd => (0x1B000000#32, 0xFFFFFFFF#32)
  | .flgRd => (0x1C000000#32, 0xFFFFFFFF#32)
  | .execFwd => (0x20000000#32, 0xFFFFFFFF#32)
  | .execRev => (0x20000001#32, 0xFFFFFFFF#32)
  | .execRt => (0x20000002#32, 0xFFFFFFFF#32)
  | .execLt => (0x20000003#32, 0xFFFFFFFF#32)
  | .execBrk => (0x20000004#32, 0xFFFFFFFF#32)
  | .execStp => (0x20000005#32, 0xFFFFFFFF#32)
  | .execDnt => (0x20000006#32, 0xFFFFFFFF#32)
  | .shift _ => (0x21000000#32, 0xFFFFFF00#32)
  | .encStep => (0x22000000#32, 0xFFFFFFFF#32)
  | .lock _ => (0x30000000#32, 0xFFFFFFF8#32)
  | .unlock _ => (0x31000000#32, 0xFFFFFFF8#32)
  | .svcRx => (0x40000000#32, 0xFFFFFFFF#32)

/-- The word of the operation selects its row. -/
def Statement (i : Instr) : Prop := encode i &&& (row i).2 = (row i).1

theorem tick (n : BitVec 24) : Statement (.tick n) := by
  apply BitVec.eq_of_getLsbD_eq
  intro i hi
  simp only [encode, pack, row, BitVec.getLsbD_and, BitVec.getLsbD_append]
  interval_cases i <;> simp

theorem echoR : Statement .echoR := by unfold Statement; decide
theorem echoF : Statement .echoF := by unfold Statement; decide
theorem rx (b : BitVec 8) : Statement (.rx b) := by
  revert b; unfold Statement; decide
theorem svcOvf : Statement .svcOvf := by unfold Statement; decide
theorem svcCap : Statement .svcCap := by unfold Statement; decide
theorem trigReq : Statement .trigReq := by unfold Statement; decide
theorem trigStep : Statement .trigStep := by unfold Statement; decide
theorem trigWake : Statement .trigWake := by unfold Statement; decide
theorem distRd : Statement .distRd := by unfold Statement; decide
theorem distClr : Statement .distClr := by unfold Statement; decide
theorem ctlSet (m : BitVec 4) : Statement (.ctlSet m) := by
  revert m; unfold Statement; decide
theorem ctlClr (m : BitVec 4) : Statement (.ctlClr m) := by
  revert m; unfold Statement; decide
theorem flgClr (m : BitVec 2) : Statement (.flgClr m) := by
  revert m; unfold Statement; decide
theorem cntRd : Statement .cntRd := by unfold Statement; decide
theorem ctlRd : Statement .ctlRd := by unfold Statement; decide
theorem flgRd : Statement .flgRd := by unfold Statement; decide
theorem execFwd : Statement .execFwd := by unfold Statement; decide
theorem execRev : Statement .execRev := by unfold Statement; decide
theorem execRt : Statement .execRt := by unfold Statement; decide
theorem execLt : Statement .execLt := by unfold Statement; decide
theorem execBrk : Statement .execBrk := by unfold Statement; decide
theorem execStp : Statement .execStp := by unfold Statement; decide
theorem execDnt : Statement .execDnt := by unfold Statement; decide
theorem shift (p : BitVec 8) : Statement (.shift p) := by
  revert p; unfold Statement; decide
theorem encStep : Statement .encStep := by unfold Statement; decide
theorem lock (r : BitVec 3) : Statement (.lock r) := by
  revert r; unfold Statement; decide
theorem unlock (r : BitVec 3) : Statement (.unlock r) := by
  revert r; unfold Statement; decide
theorem svcRx : Statement .svcRx := by unfold Statement; decide

end Sys2Proof.Laws.RowMatch
end

