-- ==== Sys2Proof/Tests/Slice0.lean ====
section
/-! SUPPORT. Own tests. Expected values are those of spec/95_test_vectors.md (V<n>), never this model's answers. The witnesses at
the end give, for each statement with hypotheses, a state and operands that meet them, one for each clause. -/

namespace Sys2Proof.Tests

open Sys2Proof Sys2Proof.Machine

/-! ### Helpers -/

def withEcu (s : State) (f : Ecu → Ecu) : State := { s with ecu := f s.ecu }
def withMpe (s : State) (f : Mpe → Mpe) : State := { s with mpe := f s.mpe }
def withHost (s : State) (f : HostSide → HostSide) : State := { s with host := f s.host }
def withPcl (s : State) (act : List Frame) (epri : Prio) (locks : List LockEntry) : State :=
  { s with pcl := { act := act, epri := epri, lckstk := locks } }

/-- The state after one operation. -/
def after (i : Instr) (s : State) : State :=
  match exec i s with
  | .next t => t
  | .fault _ => s
  | .refused _ => s

/-- Startup. -/
abbrev start : State := State.reset

/-- NAV holding one lock. -/
def navHolds (r : Resource) (e : Prio) : State := withPcl start [⟨.nav, 0⟩] e [⟨.nav, r, 1⟩]

/-- The TRIG task running (R184). -/
def trigRuns (st : TrigState) (dl now : Nat) : State :=
  { withPcl (withEcu start fun e => { e with trigSt := st, trigDl := dl }) [⟨.trig, 1⟩, ⟨.nav, 0⟩] 2 [] with now := now }

/-- The emitter suspended. -/
def sleeping (dl now : Nat) : State := { withEcu start (fun e => { e with trigSt := .sleep, trigDl := dl }) with now := now }

/-- A capture flag set, with CTL, CNT, OVF, T1 and ECS. -/
def captured (ctl : BitVec 4) (cnt : BitVec 16) (ovf : Nat) (t1 : BitVec 16) (ecs : EchoState) : State :=
  withEcu start fun e => { e with ctl := ctl, cnt := cnt, ovf := ovf, t1 := t1, ecs := ecs, flg := 0b01#2 }

/-- The encoder busy for NAV at a position. -/
def encoding (cmd : Option Command) (pat : Byte) (ph : EncPhase) (pos : Fin 26) (dl now : Nat) : State :=
  { withMpe start (fun m => { m with busy := true, owner := .nav, cmd := cmd, pat := pat, phase := ph, pos := pos, dl := dl })
    with now := now }

/-- A UART byte waiting, in a mode. -/
def received (b : Byte) (m : OpMode) : State := withHost start fun h => { h with rxf := true, rxbyte := b, mode := m }

/-- The emitter requested: a takeable source. -/
def requested : State := withEcu start fun e => { e with trigSt := .pending }

/-- The CAP handler running, as only the split service shows it between steps (V119f). -/
def capRuns (ph : CapPhase) (ecs : EchoState) : State :=
  withPcl (withEcu start fun e => { e with capPh := ph, ecs := ecs }) [⟨.cap, 1⟩, ⟨.nav, 0⟩] 4 []

/-- NAV at a step of its loop (R220), from a state. -/
def navAt (s : State) (l : List NavAct) : State := withHost s fun h => { h with nav := l }

/-- NAV in a busy-wait (R228). -/
def navWaits (dl now : Nat) : State := { withHost start (fun h => { h with navDl := dl }) with now := now }

/-- The state after a turn of NAV. -/
def afterTurn (s : State) : State :=
  match navTurnStep s with
  | .next t => t
  | .fault _ => s
  | .refused _ => s

/-- A sensor reading in RES, NAV about to look at it (R223). -/
def reading (d : Nat) (p : ScanPos) (deb : Bool) : State :=
  { withHost start (fun h => { h with nav := [.takeReading], scan := p, deb := deb }) with res := some d }

/-! ### WellFormed: the ill-formed terms (R85, R100) -/

theorem test_lock_5_ill_formed : (Instr.lock 5).wellFormed = false := by decide
theorem test_unlock_5_ill_formed : (Instr.unlock 5).wellFormed = false := by decide
theorem test_lock_4_well_formed : (Instr.lock 4).wellFormed = true := by decide
theorem test_unlock_4_well_formed : (Instr.unlock 4).wellFormed = true := by decide

/-! ### Decoding: words written out from R85 (V139) and reserved words (V140 to V154) -/

theorem test_decode_env :
    decodeWord 0x010003DC#32 = .ok (.tick 988) ∧ decodeWord 0x01FFFFFF#32 = .ok (.tick 16777215) ∧
    decodeWord 0x02000000#32 = .ok .echoR ∧ decodeWord 0x03000000#32 = .ok .echoF ∧
    decodeWord 0x04000042#32 = .ok (.rx 0x42) := by decide

theorem test_decode_ecu :
    decodeWord 0x10000000#32 = .ok .svcOvf ∧ decodeWord 0x11000000#32 = .ok .svcCap ∧
    decodeWord 0x12000000#32 = .ok .trigReq ∧ decodeWord 0x13000000#32 = .ok .trigStep ∧
    decodeWord 0x14000000#32 = .ok .trigWake ∧ decodeWord 0x15000000#32 = .ok .distRd ∧
    decodeWord 0x16000000#32 = .ok .distClr ∧ decodeWord 0x1700000A#32 = .ok (.ctlSet 0xA) ∧
    decodeWord 0x1800000F#32 = .ok (.ctlClr 0xF) ∧ decodeWord 0x19000003#32 = .ok (.flgClr 3) ∧
    decodeWord 0x1A000000#32 = .ok .cntRd ∧ decodeWord 0x1B000000#32 = .ok .ctlRd ∧
    decodeWord 0x1C000000#32 = .ok .flgRd := by decide

theorem test_decode_mpe :
    decodeWord 0x20000000#32 = .ok .execFwd ∧ decodeWord 0x20000001#32 = .ok .execRev ∧
    decodeWord 0x20000002#32 = .ok .execRt ∧ decodeWord 0x20000003#32 = .ok .execLt ∧
    decodeWord 0x20000004#32 = .ok .execBrk ∧ decodeWord 0x20000005#32 = .ok .execStp ∧
    decodeWord 0x20000006#32 = .ok .execDnt ∧ decodeWord 0x210000A5#32 = .ok (.shift 0xA5) ∧
    decodeWord 0x22000000#32 = .ok .encStep := by decide

theorem test_decode_pcl_host :
    decodeWord 0x30000004#32 = .ok (.lock 4) ∧ decodeWord 0x31000000#32 = .ok (.unlock 0) ∧
    decodeWord 0x40000000#32 = .ok .svcRx := by decide

/-- V139.1 and V139.13 in storage order (R65). -/
theorem test_decode_bytes :
    decode [0xDC, 0x03, 0x00, 0x01, 0x77] = .ok (.tick 988, [0x77]) ∧
    decode [0x0A, 0x00, 0x00, 0x17] = .ok (.ctlSet 0xA, []) ∧ decode [0x00, 0x00, 0x17] = .error .tooShort := by decide

theorem test_reserved :
    decodeWord 0x00000000#32 = .error .reservedFunction ∧ decodeWord 0x05000000#32 = .error .reservedFunction ∧
    decodeWord 0x02000001#32 = .error .badOperand ∧ decodeWord 0x04000100#32 = .error .badOperand ∧
    decodeWord 0x1D000000#32 = .error .reservedFunction ∧ decodeWord 0x17000010#32 = .error .badOperand ∧
    decodeWord 0x19000004#32 = .error .badOperand ∧ decodeWord 0x20000007#32 = .error .badOperand ∧
    decodeWord 0x23000000#32 = .error .reservedFunction ∧ decodeWord 0x30000005#32 = .error .badOperand ∧
    decodeWord 0x31000008#32 = .error .badOperand ∧ decodeWord 0x32000000#32 = .error .reservedFunction ∧
    decodeWord 0x41000000#32 = .error .reservedFunction ∧ decodeWord 0x50000000#32 = .error .reservedUnit ∧
    decodeWord 0xFFFFFFFF#32 = .error .reservedUnit := by decide

theorem test_table_word :
    decodeTableWord 32 0x30000004 = some (.lock 4) ∧ decodeTableWord 32 0x30000005 = none := by decide

/-- V103: `EXEC 7` is refused with ILLEGAL_OP. -/
theorem test_reserved_word_step :
    step (start.withFetchWord 32 0x20000007) = .next { start with err := 1 } := by rfl

/-- V98 through the port. -/
theorem test_fetch_word_runs : step (start.withFetchWord 32 0x20000000) = exec .execFwd start := by rfl

/-! ### One step of each operation -/

/-- V20. -/
theorem test_tick_rollover :
    let t := after (.tick 3) { withEcu start (fun e => { e with cnt := 65534 }) with now := 65534 }
    t.ecu.cnt = 1 ∧ t.ecu.flg = 0b10#2 ∧ t.now = 65537 := by decide

/-- V22. -/
theorem test_tick_disabled :
    let t := after (.tick 50) (withEcu start fun e => { e with cnt := 100, ctl := 0b0100#4 })
    t.ecu.cnt = 100 ∧ t.now = 50 ∧ t.ecu.flg = 0 := by decide

/-- V27, V30. -/
theorem test_echo_rise :
    (after .echoR (withEcu start fun e => { e with ctl := 0b0111#4 })).ecu.flg = 0b01#2 ∧
    (after .echoR (withEcu start fun e => { e with ctl := 0b0111#4, echo := true })).err = 2 := by decide

/-- V29. -/
theorem test_echo_rise_other_polarity :
    let t := after .echoR (withEcu start fun e => { e with ctl := 0b1111#4 })
    t.ecu.echo = true ∧ t.ecu.flg = 0 := by decide

/-- V31, V33. -/
theorem test_echo_fall :
    (after .echoF (withEcu start fun e => { e with ctl := 0b1111#4, echo := true })).ecu.flg = 0b01#2 ∧
    (after .echoF start).err = 2 := by decide

/-- V120. -/
theorem test_rx :
    (after (.rx 0x42) start).host.rxbyte = 0x42 ∧ (after (.rx 0x42) start).host.rxf = true := by decide

/-- V41, V42. -/
theorem test_svc_ovf :
    (after .svcOvf (withEcu start fun e => { e with flg := 0b10#2, ovf := 65533 })).ecu.ovf = 65534 ∧
    (after .svcOvf (withEcu start fun e => { e with flg := 0b10#2, ovf := 65534 })).ecu.ovf = 0 := by decide

/-- V43, V44: the rule `before`. -/
theorem test_ovf_before :
    ovfNext { Config.params with ovfRule := .before } 65534 = 65535 ∧
    ovfNext { Config.params with ovfRule := .before } 65535 = 0 := by decide

/-- R12, R51: the widths, PRIO and CEIL are parameters: an 8-bit OVF starts again after 254, and UART above NAV's lock of MODE is
takeable where CEIL(MODE) is 2. -/
theorem test_parameters :
    ovfNext { Config.params with ovfWidth := 8 } 254 = 0 ∧
    takeable (withPcl (received 0x42 .manual) [⟨.nav, 0⟩] 3 [⟨.nav, .mode, 1⟩]) .uart = false ∧
    (let P : Params := { Config.params with ceil := { mode := 2 } };
      execUnder P (.lock 0) (received 0x42 .manual) = .next (refuse .notEnabled (received 0x42 .manual)) ∧
      execUnder P (.lock 0) start = .next (withPcl start [⟨.nav, 0⟩] 2 [⟨.nav, .mode, 1⟩]) ∧
      takeable (withPcl (received 0x42 .manual) [⟨.nav, 0⟩] 2 [⟨.nav, .mode, 1⟩]) .uart P = true) := by
  refine ⟨by decide, by decide, rfl, rfl, by decide⟩

/-- V50. -/
theorem test_svc_cap_idle :
    let t := after .svcCap (captured 0b0111#4 1000 7 0 .idle)
    t.ecu.t1 = 1000 ∧ t.ecu.ctl = 0b1111#4 ∧ t.ecu.ovf = 0 ∧ t.ecu.ecs = .done ∧ t.ecu.flg = 0 := by decide

/-- V51. -/
theorem test_svc_cap_done :
    let t := after .svcCap (captured 0b1111#4 500 1 1000 .done)
    t.ecu.t2 = 500 ∧ t.ecu.ctl = 0b0101#4 ∧ t.ecu.ovf = 1 ∧ t.ecu.ecs = .idle ∧ t.ecu.distmb = some 1105 := by decide

/-- V70, V77. -/
theorem test_trig_req :
    (after .trigReq start).ecu.trigSt = .pending ∧ (after .trigReq requested).err = 2 := by decide

/-- V71. -/
theorem test_trig_step_start :
    let t := after .trigStep requested
    t.ecu.trigSt = .run1 ∧ t.ecu.ctl = 0b0111#4 ∧ t.pcl.act = [⟨.trig, 1⟩, ⟨.nav, 0⟩] ∧ t.pcl.epri = 2 ∧
      t.pinTrace = [] := by decide

/-- V72, last micro-step. -/
theorem test_trig_step_end :
    let t := after .trigStep (trigRuns .run3 1012 1012)
    t.ecu.trigSt = .sleep ∧ t.ecu.trigDl = 201012 ∧ t.pcl.act = [⟨.nav, 0⟩] ∧ t.pcl.epri = 1 ∧
      t.pinTrace = [⟨.trigPin, false, 1012⟩] := by decide

/-- V75. -/
theorem test_trig_wake :
    (after .trigWake (sleeping 200012 200011)).err = 2 ∧ (after .trigWake (sleeping 200012 200012)).ecu.trigSt = .off := by
  decide

/-- V85, V87. -/
theorem test_dist_rd :
    (after .distRd (withEcu (navHolds .distmb 4) fun e => { e with distmb := some 1105 })).res = some 1105 ∧
    (after .distRd (withEcu start fun e => { e with distmb := some 17 })).err = 6 := by decide

/-- V86. -/
theorem test_dist_clr :
    (after .distClr (withEcu (navHolds .distmb 4) fun e => { e with distmb := some 17 })).ecu.distmb = none := by decide

/-- V89. -/
theorem test_ctl_set : (after (.ctlSet 0x2) (navHolds .captmr 5)).ecu.ctl = 0b0111#4 := by decide

/-- V89a. -/
theorem test_ctl_clr :
    (after (.ctlClr 0x5) (withEcu (navHolds .captmr 5) fun e => { e with ctl := 0b1101#4 })).ecu.ctl = 0b1000#4 := by decide

/-- V89b. -/
theorem test_flg_clr :
    (after (.flgClr 0x1) (withEcu (navHolds .captmr 5) fun e => { e with flg := 0b11#2 })).ecu.flg = 0b10#2 := by decide

/-- V89c. -/
theorem test_cnt_rd :
    (after .cntRd (withEcu (navHolds .captmr 5) fun e => { e with cnt := 507 })).res = some 507 := by decide

/-- V88. -/
theorem test_ctl_rd : (after .ctlRd (navHolds .captmr 5)).res = some 5 := by decide

/-- V89b. -/
theorem test_flg_rd :
    (after .flgRd (withEcu (navHolds .captmr 5) fun e => { e with flg := 0b10#2 })).res = some 2 := by decide

/-- V98 and the pattern bytes of R90. -/
theorem test_exec_patterns :
    (after .execFwd start).mpe.pat = 0x55 ∧ (after .execRev start).mpe.pat = 0xAA ∧ (after .execRt start).mpe.pat = 0x5A ∧
    (after .execLt start).mpe.pat = 0xA5 ∧ (after .execBrk start).mpe.pat = 0xAA ∧ (after .execStp start).mpe.pat = 0x00 ∧
    (after .execDnt start).mpe.pat = 0x5A := by decide

/-- V98, V101. -/
theorem test_exec_accepts_once :
    (after .execBrk start).mpe.cmd = some .brake ∧ (after .execBrk start).mpe.busy = true ∧
    (after .execStp (after .execRt start)).err = 7 ∧ (after .execStp (after .execRt start)).mpe.cmd = some .rightTurn := by
  decide

/-- V97.SHIFT, V101. -/
theorem test_shift :
    (after (.shift 0x3C) start).mpe.pat = 0x3C ∧ (after (.shift 0x3C) start).mpe.cmd = none ∧
    (after (.shift 0x00) (after .execRt start)).err = 7 := by decide

/-- V99, the fourth micro-step, and V100, the wait of the fifth. -/
theorem test_enc_step :
    (after .encStep (encoding (some .forward) 0x55 .main 3 0 0)).mpe.dl = 5000 ∧
    (after .encStep (encoding (some .forward) 0x55 .main 4 5000 4999)).err = 2 ∧
    (after .encStep (encoding (some .forward) 0x55 .main 4 5000 5000)).pinTrace = [⟨.data, false, 5000⟩] := by decide

/-- V104, V105. -/
theorem test_enc_step_hold :
    let t := after .encStep (encoding (some .brake) 0xAA .main 25 40000 40000)
    t.mpe.phase = .hold ∧ t.mpe.dl = 240000 ∧ t.mpe.latch = true ∧ t.mpe.busy = true ∧
      (after .encStep (encoding (some .brake) 0xAA .hold 0 240000 240000)).mpe.phase = .zero := by decide

/-- V112, V118. -/
theorem test_lock :
    (after (.lock 2) start).pcl = { act := [⟨.nav, 0⟩], epri := 4, lckstk := [⟨.nav, .distmb, 1⟩] } ∧
    (after (.lock 0) (navHolds .mode 3)).err = 4 := by decide

/-- V119f. -/
theorem test_lock_ceiling : (after (.lock 1) (capRuns .b .idle)).err = 3 := by decide

/-- V115, V117. -/
theorem test_unlock :
    (after (.unlock 0) (withPcl start [⟨.nav, 0⟩] 4 [⟨.nav, .mode, 4⟩, ⟨.nav, .distmb, 1⟩])).pcl.epri = 4 ∧
    (after (.unlock 0) (withPcl start [⟨.nav, 0⟩] 5 [⟨.nav, .captmr, 3⟩, ⟨.nav, .mode, 1⟩])).err = 5 := by decide

/-- V121. -/
theorem test_svc_rx :
    let t := after .svcRx (received 0x42 .manual)
    t.host.cmdmb = some .forward ∧ t.host.rxf = false ∧ t.host.rxie = true ∧ t.host.txlog = [0x42] ∧
      t.pcl = start.pcl := by decide

/-- V125. -/
theorem test_svc_rx_auto :
    let t := after .svcRx (received 0x42 .auto)
    t.host.mode = .auto ∧ t.host.cmdmb = none ∧ t.host.txlog = [0x42] := by decide

/-- V119g: a leave that holds a lock. -/
theorem test_leave_locked :
    leave (withPcl start [⟨.uart, 1⟩, ⟨.nav, 0⟩] 3 [⟨.uart, .mode, 3⟩]) = .error .leaveLocked := by decide

/-- V130, V131b, V131c, V131d. -/
theorem test_nav_turn :
    navTurn 30 10 = navExec .rightTurn ++ [.setDeb false, .delay 500000] ∧
    navTurn 25 25 = navExec .leftTurn ++ [.setDeb false, .delay 500000] ∧
    navTurn 20 20 = navExec .reverse ++ navExec .rightTurn ++ [.setDeb false, .delay 500000] ∧
    navTurn 21 0 = navExec .rightTurn ++ [.setDeb false, .delay 500000] := by decide

/-- V132 to V134. -/
theorem test_nav_middle :
    navScan false 21 .middle = [.exec .forward, .encRun, .setDeb true] ∧ navScan true 21 .middle = [] ∧
    navScan true 20 .middle =
      [.exec .brake, .encRun, .setDeb false, .scanner .right, .delay 1000000, .setScan .right] := by decide

/-- R17: the running agent's own delay holds off its operations to the tick before its deadline. -/
theorem test_own_delay :
    (after (.lock 1) (trigRuns .run2 1002 1001)).err = 2 ∧ (after (.lock 1) (trigRuns .run2 1002 1002)).pcl.epri = 3 ∧
    (after (.lock 1) (navWaits 500 499)).err = 2 ∧ (after (.lock 1) (navWaits 500 500)).pcl.epri = 3 := by decide

/-- V119b: no delay lasts in Run(1), and the task goes on with its lock. -/
theorem test_lock_in_run1 :
    (after .trigStep (after (.lock 1) (trigRuns .run1 9 0))).ecu.trigSt = .run2 ∧
    (after .trigStep (after (.lock 1) (trigRuns .run1 9 0))).err = 0 := by decide

/-- The numbers of R95. -/
theorem test_codes :
    [EchoState.idle, .done].map ecsCode = [0, 1] ∧ [EncPhase.main, .hold, .zero].map phaseCode = [0, 1, 2] ∧
    [TrigState.off, .pending, .run1, .run2, .run3, .sleep].map trigCode = [0, 1, 2, 3, 4, 5] ∧
    [OpMode.manual, .auto].map modeCode = [0, 1] ∧ [ScanPos.right, .middle, .left].map scanCode = [0, 1, 2] ∧
    [Agent.nav, .trig, .uart, .cap, .ovf].map agentCode = [1, 2, 3, 4, 5] ∧ [false, true].map levelCode = [0, 1] := by decide

/-- R104: the counts of V97. -/
theorem test_pseudo :
    Pseudo.shiftRun.expand.length = 34 ∧ (Pseudo.execRun .brake).expand.length = 71 ∧
    (Pseudo.waitMs 200).expand = [.tick 200000] ∧ traceLine (.ctlSet 0xA) = "CTL.SET 0xa" := by decide

/-- P3, lines 18 to 25: the hold of Brake from CNT = 40000, split at its three rollovers. -/
theorem test_split_at_rollovers :
    splitAtRollovers [.encStep, .tick 200000, .encStep]
        (withEcu (encoding (some .brake) 0xAA .main 25 40000 40000) fun e => { e with cnt := 40000 }) =
      [.encStep, .tick 25536, .svcOvf, .tick 65536, .svcOvf, .tick 65536, .svcOvf, .tick 43392, .encStep] := by decide

/-- R104: no `SVC.OVF` where the overflow service is not takeable (OVFIE 0; EPRI 5 under CAPTMR), no split where nothing counts,
and a `TICK` that ends at the rollover has no rest. -/
theorem test_split_without_service :
    (Pseudo.waitUs 70000).issue (withEcu start fun e => { e with ctl := 0b0001#4 }) = [.tick 65536, .tick 4464] ∧
    (Pseudo.waitUs 70000).issue (navHolds .captmr 5) = [.tick 65536, .tick 4464] ∧
    (Pseudo.waitUs 70000).issue start = [.tick 65536, .svcOvf, .tick 4464] ∧
    (Pseudo.waitUs 70000).issue (withEcu start fun e => { e with ctl := 0b0100#4 }) = [.tick 70000] ∧
    (Pseudo.waitUs 1).issue (withEcu start fun e => { e with cnt := 65535 }) = [.tick 1, .svcOvf] := by decide

/-! ### Witnesses: the hypotheses of each statement are met, one state for each clause, at the boundary values -/

theorem witness_DecodeOfEncodeIsIdentity :
    (Instr.tick 16777215).wellFormed = true ∧ (Instr.lock 4).wellFormed = true ∧ (Instr.unlock 0).wellFormed = true := by decide

theorem witness_EncodeOfDecodeIsIdentity :
    decodeWord 0x31000004#32 = .ok (.unlock 4) ∧ decodeWord 0x20000006#32 = .ok .execDnt := by decide

theorem witness_ReservedWordsAreRefusedWithIllegalOp :
    reservedWord 0x30000005#32 = true ∧ reservedWord 0x30000004#32 = false ∧ reservedWord 0x50000000#32 = true ∧
    ({ start with stream := [.word 0x30000005#32] } : State).stream = .word 0x30000005#32 :: [] := by decide

theorem witness_StoredOperationReadsBack : (Instr.ctlSet 0xF).wellFormed = true ∧ (Instr.lock 0).wellFormed = true := by decide

theorem witness_StepRunsWhatThePortPresents :
    (start.withFetchWord 32 0x12000000).stream = .word 0x12000000#32 :: [] ∧ decodeWord 0x12000000#32 = .ok .trigReq ∧
    ({ start with stream := [.navTurn] } : State).stream = .navTurn :: [] ∧ start.stream = [] := by decide

theorem witness_PresentedOperationRunsNext : (Instr.flgClr 3).wellFormed = true ∧ (Instr.unlock 4).wellFormed = true := by decide

theorem witness_EchoRiseIsCapturedWhenArmed :
    start.ecu.echo = false ∧ (withEcu start fun e => { e with echo := true }).ecu.echo = true := by decide

theorem witness_EchoFallIsCapturedWhenArmed :
    (withEcu start fun e => { e with echo := true }).ecu.echo = true ∧ start.ecu.echo = false := by decide

theorem witness_HintsChangeNothing :
    (agentFree (navHolds .captmr 5) ∧ holds (navHolds .captmr 5) .captmr) ∧
    (agentFree start ∧ ¬ holds start .captmr) := by decide

theorem witness_OverflowServiceCountsOneRollover :
    (let s := withEcu (navHolds .distmb 4) fun e => { e with flg := 0b10#2, ovf := 65534 };
      s.ecu.flg.getLsbD 1 = true ∧ s.ecu.ctl.getLsbD 2 = true ∧ s.pcl.epri < 5 ∧ holdsAny s .ovf = false) ∧
    (let s := withEcu (navHolds .captmr 5) fun e => { e with flg := 0b10#2 };
      ¬ (s.ecu.flg.getLsbD 1 = true ∧ s.ecu.ctl.getLsbD 2 = true ∧ s.pcl.epri < 5)) := by decide

theorem witness_OverflowCounterNeverStoresItsMaximum :
    (Config.params.ovfRule = .after ∧ 65534 < 2 ^ Config.params.ovfWidth - 1) ∧
    (let P : Params := { Config.params with ovfRule := .before, ovfWidth := 8 };
      P.ovfRule = .before ∧ 255 < 2 ^ P.ovfWidth) := by decide

theorem witness_ServicesWaitForHigherInterrupts :
    takeable start .cap = false ∧ takeable start .uart = false ∧
    takeable (captured 0b0111#4 1000 7 0 .idle) .cap = true ∧ takeable (received 0x42 .manual) .uart = true ∧
    takeable (withEcu (captured 0b0111#4 0 0 0 .idle) fun e => { e with flg := 0b11#2 }) .cap = false := by decide

theorem witness_IdleArmStartsAMeasurement :
    let s := captured 0b0111#4 65535 7 0 .idle
    takeable s .cap = true ∧ holdsAny s .cap = false ∧ s.ecu.ecs = .idle := by decide

/-- V51 and V52: an elapsed time that is not negative, and one that is. -/
theorem witness_DoneArmPublishesTheDistance :
    (let s := captured 0b1111#4 500 1 1000 .done;
      takeable s .cap = true ∧ holdsAny s .cap = false ∧ s.ecu.ecs = .done ∧
        (0 : Int) ≤ (s.ecu.cnt.toNat : Int) + (s.ecu.ovf : Int) * 65536 - (s.ecu.t1.toNat : Int)) ∧
    (let s := captured 0b1111#4 500 0 1000 .done;
      takeable s .cap = true ∧ holdsAny s .cap = false ∧ s.ecu.ecs = .done ∧
        (s.ecu.cnt.toNat : Int) + (s.ecu.ovf : Int) * 65536 - (s.ecu.t1.toNat : Int) < 0) := by decide

theorem witness_SplitCaptureRunsInThreeSteps :
    let P : Params := { Config.params with captureSplit := true }
    P.captureSplit = true ∧
    (let s := captured 0b0111#4 1000 7 0 .idle;
      s.ecu.capPh = .a ∧ takeable s .cap P = true) ∧
    (start.ecu.capPh = .a ∧ takeable start .cap P = false) ∧
    (let s := capRuns .b .idle;
      s.ecu.capPh = .b ∧ run s = .cap ∧ agentFree s P) ∧
    (let s := withEcu start fun e => { e with capPh := .b };
      s.ecu.capPh = .b ∧ ¬ (run s = .cap ∧ agentFree s P)) ∧
    (let s := withEcu (capRuns .c .done) fun e => { e with flg := 0b10#2 };
      s.ecu.capPh = .c ∧ ¬ (run s = .cap ∧ agentFree s P)) ∧
    (let s := capRuns .c .idle;
      s.ecu.capPh = .c ∧ s.ecu.ecs = .idle ∧ agentFree s P ∧ holdsAny s .cap = false ∧ s.pcl.act = ⟨.cap, 1⟩ :: [⟨.nav, 0⟩]) ∧
    (let s := capRuns .c .done;
      s.ecu.capPh = .c ∧ s.ecu.ecs = .done ∧ agentFree s P ∧ holdsAny s .cap = false ∧
        0 ≤ elapsed s.ecu.t1 s.ecu.t2 s.ecu.capOvf ∧ s.pcl.act = ⟨.cap, 1⟩ :: [⟨.nav, 0⟩]) ∧
    (let s := withEcu (capRuns .c .done) fun e => { e with t1 := 1 };
      s.ecu.capPh = .c ∧ s.ecu.ecs = .done ∧ agentFree s P ∧ holdsAny s .cap = false ∧
        elapsed s.ecu.t1 s.ecu.t2 s.ecu.capOvf < 0 ∧ s.pcl.act = ⟨.cap, 1⟩ :: [⟨.nav, 0⟩]) ∧
    (let s := withPcl (capRuns .c .done) [⟨.cap, 1⟩, ⟨.nav, 0⟩] 4 [⟨.cap, .distmb, 4⟩];
      s.ecu.capPh = .c ∧ run s = .cap ∧ agentFree s P ∧ holdsAny s .cap = true) := by
  refine ⟨rfl, ?_⟩; decide

theorem witness_ElapsedIsNegativeOnlyWithoutRollover :
    (65534 : Nat) < ovfMax ∧ elapsed 1 0 0 < 0 ∧ elapsed 0 65535 65534 = 4294901759 := by decide

theorem witness_DistanceIsTheExactFloor : (1235 : Nat) ≤ 1236 ∧ distanceOf 1235 = 20 ∧ distanceOf 1236 = 21 := by decide

/-- V1 as a run between two services: 65036 ticks, one rollover. -/
theorem witness_MeasuredDistanceIsTheTimeBetweenServices :
    let s₀ := captured 0b0111#4 1000 7 0 .idle
    let s₁ := after .svcCap s₀
    let s₂ := ((countedRun [.echoR, .tick 64536, .svcOvf, .tick 500, .echoF] s₁).getD s₁)
    arbiterOk s₀ = true ∧ s₀.ecu.ecs = .idle ∧ takeable s₀ .cap = true ∧ s₀.ecu.cnten = true ∧ s₀.ecu.ovfie = true ∧
      exec .svcCap s₀ = .next s₁ ∧ countedRun [.echoR, .tick 64536, .svcOvf, .tick 500, .echoF] s₁ = some s₂ ∧
      takeable s₂ .cap = true ∧ s₂.now - s₁.now = 65036 := by
  refine ⟨by decide, by decide, by decide, by decide, by decide, rfl, rfl, by decide, by decide⟩

theorem witness_CaptureStateAlternatesOnEdges :
    (let s := captured 0b0111#4 1000 7 0 .idle;
      exec .svcCap s = .next (after .svcCap s) ∧ (after .svcCap s).ecu.ecs ≠ s.ecu.ecs) ∧
    (let s := withEcu start fun e => { e with ctl := 0b0111#4 };
      exec .echoR s = .next (after .echoR s) ∧ s.ecu.capf = false ∧ (after .echoR s).ecu.capf = true) ∧
    navTurnStep start = .next (afterTurn start) := by
  refine ⟨⟨rfl, by decide⟩, ⟨rfl, by decide, by decide⟩, rfl⟩

theorem witness_PolarityFollowsTheCaptureState :
    (∀ m, Instr.ctlSet 0x7 = .ctlSet m → m.getLsbD 3 = false) ∧ (∀ m, Instr.ctlSet 0x7 = .ctlClr m → m.getLsbD 3 = false) ∧
    exec (.ctlSet 0x7) (navHolds .captmr 5) = .next (after (.ctlSet 0x7) (navHolds .captmr 5)) ∧
    ((navHolds .captmr 5).ecu.pol = false ↔ (navHolds .captmr 5).ecu.ecs = .idle) ∧
    navTurnStep (navAt (navHolds .distmb 4) [.distClr]) = .next (afterTurn (navAt (navHolds .distmb 4) [.distClr])) := by
  refine ⟨?_, ?_, rfl, by decide, rfl⟩
  · intro m h; cases h; decide
  · intro m h; cases h

theorem witness_TriggerRequestIsIdempotent :
    (agentFree start ∧ start.ecu.trigSt = .off) ∧
    (agentFree (sleeping 200012 200011) ∧ (sleeping 200012 200011).ecu.trigSt ≠ .off) ∧ heldOff requested = true ∧
    heldOff (navWaits 500 499) = true ∧
    (let s := navAt start [.request];
      run s = .nav ∧ agentFree s ∧ s.host.nav = .request :: []) := by decide

theorem witness_TriggerStartEntersAndArms : takeable requested .trig = true ∧ requested.ecu.trigSt = .pending := by decide

theorem witness_TriggerPulseIsLowHighLow :
    (let s := trigRuns .run1 0 0;
      run s = .trig ∧ agentFree s ∧ s.ecu.trigSt = .run1) ∧
    (let s := trigRuns .run2 1002 1002;
      run s = .trig ∧ agentFree s ∧ s.ecu.trigSt = .run2 ∧ s.ecu.trigDl ≤ s.now) ∧
    (let s := trigRuns .run3 1012 1012;
      run s = .trig ∧ agentFree s ∧ s.ecu.trigSt = .run3 ∧ s.ecu.trigDl ≤ s.now ∧ holdsAny s .trig = false ∧
        s.pcl.act = ⟨.trig, 1⟩ :: [⟨.nav, 0⟩]) := by decide

theorem witness_TriggerStepBeforeItsTimeIsRefused :
    start.ecu.trigSt = .off ∧ (sleeping 200012 0).ecu.trigSt = .sleep ∧
    (let s := withEcu (navHolds .cmdmb 3) fun e => { e with trigSt := .pending };
      s.ecu.trigSt = .pending ∧ takeable s .trig = false) ∧
    (let s := withEcu (trigRuns .run1 0 0) fun e => { e with flg := 0b10#2 };
      s.ecu.trigSt.isRun = true ∧ heldOff s = true) ∧
    ((withEcu start fun e => { e with trigSt := .run1 }).ecu.trigSt.isRun = true ∧
      run (withEcu start fun e => { e with trigSt := .run1 }) ≠ .trig) ∧
    ((trigRuns .run2 2 1).ecu.trigSt = .run2 ∧ (trigRuns .run2 2 1).now < (trigRuns .run2 2 1).ecu.trigDl) ∧
    (let s := { trigRuns .run3 12 12 with pcl := ⟨[⟨.trig, 1⟩, ⟨.nav, 0⟩], 3, [⟨.trig, .cmdmb, 2⟩]⟩ };
      s.ecu.trigSt = .run3 ∧ s.ecu.trigDl ≤ s.now ∧ run s = .trig ∧ agentFree s ∧ holdsAny s .trig = true) := by decide

theorem witness_TriggerWakeReturnsToOff :
    (let s := sleeping 200012 200012;
      s.ecu.trigSt = .sleep ∧ s.ecu.trigDl ≤ s.now ∧ s.pcl.epri < 2 ∧ takeable s .ovf = false ∧ takeable s .cap = false ∧
        takeable s .uart = false ∧ holdsAny s .trig = false) ∧
    (let s := sleeping 200012 200011;
      ¬ (s.ecu.trigSt = .sleep ∧ s.ecu.trigDl ≤ s.now ∧ s.pcl.epri < 2 ∧ takeable s .ovf = false ∧
        takeable s .cap = false ∧ takeable s .uart = false)) := by decide

theorem witness_MailboxIsReadThenCleared :
    agentFree (navHolds .distmb 4) ∧ holds (navHolds .distmb 4) .distmb ∧ agentFree start ∧ ¬ holds start .distmb := by decide

theorem witness_TimerMasksSetAndClear :
    agentFree (navHolds .captmr 5) ∧ holds (navHolds .captmr 5) .captmr ∧ agentFree (navHolds .mode 3) ∧
      ¬ holds (navHolds .mode 3) .captmr := by decide

theorem witness_TimerReadsHaveNoSideEffect :
    agentFree (navHolds .captmr 5) ∧ holds (navHolds .captmr 5) .captmr ∧ agentFree start ∧ ¬ holds start .captmr := by decide

theorem witness_SharedAccessNeedsTheLock :
    (run start = .nav ∧ agentFree start ∧ start.host.nav = [] ∧ heldBy start .mode = none) ∧
    (∀ x ∈ [(NavAct.readMode, Resource.mode), (.readCmd, .cmdmb), (.clearCmd, .cmdmb), (.distRd, .distmb), (.distClr, .distmb)],
      let s := navAt (navHolds .captmr 5) [x.1];
      run s = .nav ∧ agentFree s ∧ s.host.nav = x.1 :: [] ∧ ¬ holds s x.2) ∧
    (∀ m ∈ [OpMode.manual, .auto],
      let s := withHost (navAt (navHolds .mode 3) [.readMode]) fun h => { h with mode := m };
      run s = .nav ∧ agentFree s ∧ s.host.nav = .readMode :: [] ∧ holds s .mode ∧ s.host.mode = m) ∧
    (∀ a ∈ [NavAct.distRd, .distClr],
      let s := navAt (navHolds .distmb 4) [a];
      run s = .nav ∧ agentFree s ∧ s.host.nav = a :: [] ∧ holds s .distmb) ∧
    (let s := withEcu start fun e => { e with flg := 0b10#2 };
      takeable s .ovf = true ∧ holdsAny s .ovf = false ∧ heldBy s .ovfcnt = none ∧ heldBy s .captmr = none) := by decide

theorem witness_CommandIsAcceptedWithItsPattern : heldOff start = false ∧ start.mpe.busy = false := by decide

theorem witness_ShiftIsAcceptedForEveryPattern :
    heldOff start = false ∧ start.mpe.busy = false ∧ heldOff (encoding none 0 .hold 0 0 0) = false ∧
      (encoding none 0 .hold 0 0 0).mpe.busy = true := by decide

theorem witness_BusyEncoderRefusesNewOperations :
    (heldOff (encoding none 0 .main 0 0 0) = false ∧ (encoding none 0 .main 0 0 0).mpe.busy = true) ∧
    heldOff requested = true := by decide

theorem witness_BlockedOwnerHasOnlyEncoderSteps :
    (let s := encoding (some .brake) 0xAA .hold 0 240000 40000;
      s.mpe.busy = true ∧ s.mpe.owner = run s ∧ (4#3).toNat ≤ 4 ∧ run s = .nav ∧ s.host.nav = []) ∧
    (let s := withMpe (trigRuns .run3 12 12) fun m => { m with busy := true, owner := .trig };
      s.mpe.busy = true ∧ s.mpe.owner = run s ∧ s.ecu.trigSt.isRun = true) ∧
    (let s := navAt (encoding none 0 .main 0 0 0) [.setDeb true];
      s.mpe.busy = true ∧ s.mpe.owner = run s ∧ run s = .nav ∧ s.host.nav = .setDeb true :: [] ∧
        NavAct.setDeb true ≠ .encRun) ∧
    ∀ c, NavAct.setDeb true ≠ .exec c := by
  refine ⟨by decide, by decide, by decide, ?_⟩
  intro c h; cases h

theorem witness_SerializerFollowsItsTable :
    (let s := encoding none 0xA5 .zero 0 0 0;
      encoderTurn s ∧ s.mpe.phase ≠ .hold ∧ s.mpe.pos.val = 0) ∧
    (let s := encoding none 0xA5 .main 1 7 0;
      encoderTurn s ∧ s.mpe.phase ≠ .hold ∧ s.mpe.pos.val = 1 + 3 * 0) ∧
    (let s := encoding none 0xA5 .main 22 35000 35000;
      encoderTurn s ∧ s.mpe.phase ≠ .hold ∧ s.mpe.pos.val = 1 + 3 * 7 ∧ s.mpe.dl ≤ s.now) ∧
    (let s := encoding none 0xA5 .main 22 35000 34999;
      encoderTurn s ∧ s.mpe.phase ≠ .hold ∧ s.mpe.pos.val = 1 + 3 * 7 ∧ 0 < 7 ∧ s.now < s.mpe.dl) ∧
    (let s := encoding none 0xA5 .main 23 35000 35000;
      encoderTurn s ∧ s.mpe.phase ≠ .hold ∧ s.mpe.pos.val = 2 + 3 * 7) ∧
    (let s := encoding none 0xA5 .main 24 35000 35000;
      encoderTurn s ∧ s.mpe.phase ≠ .hold ∧ s.mpe.pos.val = 3 + 3 * 7) := by decide

theorem witness_SerializationEndsInHoldOrIdle :
    (let s := encoding (some .donut) 0x5A .main 25 40000 40000;
      encoderTurn s ∧ s.mpe.phase ≠ .hold ∧ s.mpe.pos.val = 25 ∧ s.mpe.dl ≤ s.now ∧ s.mpe.phase = .main ∧
        s.mpe.cmd = some .donut) ∧
    (let s := encoding (some .donut) 0 .zero 25 40000 40000;
      encoderTurn s ∧ s.mpe.phase ≠ .hold ∧ s.mpe.pos.val = 25 ∧ s.mpe.dl ≤ s.now ∧ s.mpe.phase = .zero) ∧
    (let s := encoding none 0x3C .main 25 40000 40000;
      encoderTurn s ∧ s.mpe.phase ≠ .hold ∧ s.mpe.pos.val = 25 ∧ s.mpe.dl ≤ s.now ∧
        s.mpe.cmd ∈ [none, some .forward, some .reverse, some .stop]) ∧
    (let s := encoding none 0x3C .main 25 40000 39999;
      encoderTurn s ∧ s.mpe.phase ≠ .hold ∧ s.mpe.pos.val = 25 ∧ s.now < s.mpe.dl) ∧
    (let s := encoding (some .brake) 0xAA .hold 0 240000 240000;
      encoderTurn s ∧ s.mpe.phase = .hold ∧ s.mpe.dl ≤ s.now) ∧
    (let s := encoding (some .brake) 0xAA .hold 0 240000 239999;
      encoderTurn s ∧ s.mpe.phase = .hold ∧ s.now < s.mpe.dl) := by decide

theorem witness_EncoderStepNeedsItsOwner :
    ¬ encoderTurn start ∧
    ¬ encoderTurn (withHost (encoding none 0 .main 0 0 499) fun h => { h with navDl := 500 }) := by decide

theorem witness_EncoderWritesFollowTheScript :
    acceptOp (some .brake) 0xAA start = .ok (after .execBrk start) ∧
    (∀ i ∈ [Instr.encStep, .tick 5, .encStep], startsNone i = true) ∧
    ∃ u, execAll [.encStep, .tick 5, .encStep] (after .execBrk start) = some u := by
  refine ⟨rfl, by decide, ⟨_, rfl⟩⟩

/-- The rest of `SHIFT.RUN` (R104) after its first micro-step, with the minimum delays: it ends at 40 000 ticks. -/
theorem witness_EncoderOperationLastsItsMinimum :
    let s := encoding none 0x3C .main 0 0 0
    let t := after .encStep s
    let u := (execAll shiftRunOps.tail t).getD t
    encoderTurn s ∧ s.mpe.phase = .main ∧ s.mpe.pos.val = 0 ∧ exec .encStep s = .next t ∧
      (∀ i ∈ shiftRunOps.tail, startsNone i = true) ∧ execAll shiftRunOps.tail t = some u ∧ u.mpe.busy = false ∧
      u.now = 40000 := by
  refine ⟨by decide, by decide, by decide, rfl, by decide, rfl, by decide, by decide⟩

theorem witness_DriverChipShowsThePattern :
    let d : DriverChip := ⟨[true, true, false, true, false, false, true, false], [], false, true, true⟩
    d.sr.length = 8 ∧ d.clk = false := by decide

theorem witness_LockRaisesToTheCeiling :
    (let s := withPcl start [⟨.uart, 1⟩, ⟨.nav, 0⟩] 3 [];
      agentFree s ∧ prio (run s) ≤ 3 ∧ heldBy s .mode = none) ∧
    (let s := capRuns .b .idle;
      agentFree s ∧ (3 : Prio) < prio (run s)) ∧
    (let s := navHolds .captmr 5;
      agentFree s ∧ prio (run s) ≤ 5 ∧ heldBy s .captmr ≠ none) ∧ heldOff requested = true ∧ 5 ≤ (5#3).toNat := by decide

theorem witness_UnlockRestoresTheSavedPriority :
    (agentFree (navHolds .captmr 5) ∧ (navHolds .captmr 5).pcl.lckstk = ⟨run (navHolds .captmr 5), .captmr, 1⟩ :: []) ∧
    (agentFree start ∧ ∀ e rest, start.pcl.lckstk ≠ ⟨run start, .mode, e⟩ :: rest) ∧ heldOff requested = true ∧
      5 ≤ (5#3).toNat := by
  refine ⟨by decide, ⟨by decide, ?_⟩, by decide, by decide⟩
  intro e rest h; cases h

theorem witness_HighestPendingSourceIsTakeable :
    takeable (withEcu start fun e => { e with flg := 0b11#2 }) .ovf = true ∧ takeable requested .trig = true := by decide

theorem witness_TakeableSourceHoldsOffTheRunningAgent :
    (4#3).toNat ≤ 4 ∧ anyTakeable requested = true ∧
    (let s := navWaits 500 499;
      run s = .nav ∧ s.now < s.host.navDl ∧ heldOff s = true) ∧
    (let s := trigRuns .run3 12 11;
      run s = .trig ∧ s.ecu.trigSt = .run3 ∧ s.now < s.ecu.trigDl ∧ heldOff s = true ∧ s.ecu.trigSt.isRun = true) ∧
    (let s := withEcu (trigRuns .run2 2 2) fun e => { e with flg := 0b10#2 };
      heldOff s = true ∧ s.ecu.trigSt.isRun = true) ∧
    heldOff (navWaits 500 500) = false ∧ heldOff (trigRuns .run2 2 2) = false := by decide

theorem witness_ServicesLeaveTheArbiterAsItWas :
    Instr.svcCap ∈ [Instr.svcOvf, .svcCap, .svcRx, .trigWake] ∧
    exec .svcCap (captured 0b0111#4 1000 7 0 .idle) = .next (after .svcCap (captured 0b0111#4 1000 7 0 .idle)) := by
  refine ⟨by decide, rfl⟩

/-- The invariant holds in states that are not startup: the TRIG task running with a lock; an encoder inside a frame. -/
theorem witness_EveryStepKeepsTheInvariant :
    stateOk ({ trigRuns .run2 2 2 with pcl := ⟨[⟨.trig, 1⟩, ⟨.nav, 0⟩], 3, [⟨.trig, .cmdmb, 2⟩]⟩ }) = true ∧
    stateOk (encoding (some .brake) 0xAA .main 4 5000 0) = true ∧
    stateOk { withHost (withEcu start fun e => { e with ovf := 65534, distmb := some 4294967295 }) (fun h =>
      { h with dr := 4294967295, dl := 4294967295, nav := [.setDr 4294967295, .setDl 4294967295] })
      with res := some 4294967295 } = true ∧
    stateOk (withEcu start fun e => { e with ovf := 65535 }) = false ∧
    step (start.withFetchWord 32 0x12000000) = .next (after .trigReq start) := by
  refine ⟨by decide, by decide, by decide, by decide, rfl⟩

theorem witness_LockExcludesItsCeiling :
    let s := withPcl start [⟨.nav, 0⟩] 5 [⟨.nav, .mode, 5⟩, ⟨.nav, .captmr, 1⟩]
    arbiterOk s = true ∧ heldBy s .mode = some .nav ∧ heldBy s .captmr = some .nav := by decide

/-- A byte that is in no table exists: eight values are mapped (R94). -/
theorem unmapped_byte_exists : ∃ b : Byte, b ∉ Config.openBytes.all := by
  by_contra h
  have hall : ([0, 1, 2, 3, 4, 5, 6, 7, 8] : List Byte) ⊆ Config.openBytes.all := fun b _ =>
    Classical.not_not.1 fun hb => h ⟨b, hb⟩
  have hsub := List.subperm_of_subset (by decide) hall
  exact absurd hsub.length_le (by simp [OpenBytes.all])

theorem witness_CommandIngestEchoesAndDecodes :
    (∀ b m, takeable (received b m) .uart = true ∧ arbiterOk (received b m) = true ∧ (received b m).host.rxbyte = b ∧
      (received b m).host.mode = m) ∧ (∃ b : Byte, b ∉ Config.openBytes.all) := by
  refine ⟨fun b m => ⟨?_, ?_, rfl, rfl⟩, unmapped_byte_exists⟩
  · rw [show takeable (received b m) .uart = takeable (received 0 .manual) .uart from rfl]; decide
  · rw [show arbiterOk (received b m) = arbiterOk start from rfl]; decide

theorem witness_NavigationDecidesByClearance :
    (let s := navAt start [.takeReading];
      run s = .nav ∧ agentFree s ∧ s.host.nav = .takeReading :: [] ∧ s.res = none) ∧
    (∀ x ∈ [(20, ScanPos.right, false), (20, .left, false), (20, .middle, true), (21, .middle, true), (21, .middle, false)],
      let s := reading x.1 x.2.1 x.2.2;
      run s = .nav ∧ agentFree s ∧ s.host.nav = .takeReading :: [] ∧ s.res = some x.1 ∧ s.host.scan = x.2.1 ∧
        s.host.deb = x.2.2) ∧
    (∀ x ∈ [((21 : Nat), (20 : Nat)), (21, 21), (20, 20)],
      let s := withHost (navAt start [.decideTurn]) fun h => { h with dr := x.1, dl := x.2 };
      run s = .nav ∧ agentFree s ∧ s.host.nav = .decideTurn :: [] ∧ s.host.dr = x.1 ∧ s.host.dl = x.2) ∧
    (∀ a, a ∈ [NavAct.setDr 7, .setDl 7, .setDeb true, .setScan .left, .scanner .right, .scanner .middle, .scanner .left,
        .delay 1000000] →
      run (navAt start [a]) = .nav ∧ agentFree (navAt start [a]) ∧ (navAt start [a]).host.nav = a :: []) :=
  ⟨by decide, by decide, fun _ _ => ⟨rfl, (by decide : agentFree start), rfl, rfl, rfl⟩,
    fun _ _ => ⟨rfl, (by decide : agentFree start), rfl⟩⟩

theorem witness_NavigationDrainsTheMailbox :
    (let s := navAt start [.readCmd];
      run s = .nav ∧ s.host.nav = .readCmd :: [] ∧ agentFree s ∧ ¬ holds s .cmdmb) ∧
    (let s := navAt (navHolds .cmdmb 3) [.readCmd];
      run s = .nav ∧ s.host.nav = .readCmd :: [] ∧ agentFree s ∧ holds s .cmdmb ∧ s.host.cmdmb = none) ∧
    (let s := withHost (navHolds .cmdmb 3) fun h => { h with nav := [.readCmd], cmdmb := some .donut };
      run s = .nav ∧ s.host.nav = .readCmd :: [] ∧ agentFree s ∧ holds s .cmdmb ∧ s.host.cmdmb = some .donut) ∧
    (let s := navAt start [.exec .stop];
      run s = .nav ∧ s.host.nav = .exec .stop :: [] ∧ heldOff s = false ∧ s.mpe.busy = false) ∧
    (let s := navAt (encoding none 0 .main 0 0 0) [.exec .stop];
      run s = .nav ∧ s.host.nav = .exec .stop :: [] ∧ heldOff s = false ∧ s.mpe.busy = true) ∧
    (∀ x ∈ [((0 : Fin 26), true), (25, false)],
      let s := navAt (encoding none 0 .main x.1 0 0) [.encRun];
      run s = .nav ∧ s.host.nav = .encRun :: [] ∧ s.mpe.busy = true ∧ s.mpe.owner = .nav ∧
        exec .encStep s = .next (after .encStep s) ∧ (after .encStep s).mpe ≠ s.mpe ∧
        (after .encStep s).mpe.busy = x.2) ∧
    (let s := navAt (encoding none 0 .main 25 9 8) [.encRun];
      run s = .nav ∧ s.host.nav = .encRun :: [] ∧ s.mpe.busy = true ∧ s.mpe.owner = .nav ∧
        exec .encStep s = .next (after .encStep s) ∧ (after .encStep s).mpe = s.mpe) ∧
    (let s := navAt start [.encRun];
      run s = .nav ∧ s.host.nav = .encRun :: [] ∧ agentFree s) ∧
    (let s := navAt (navHolds .cmdmb 3) [.clearCmd];
      run s = .nav ∧ s.host.nav = .clearCmd :: [] ∧ agentFree s ∧ holds s .cmdmb) ∧
    (let s := navAt start [.lock .cmdmb];
      run s = .nav ∧ s.host.nav = .lock .cmdmb :: [] ∧ agentFree s ∧ heldBy s .cmdmb = none) ∧
    (let s := navAt (navHolds .cmdmb 3) [.unlock .cmdmb];
      run s = .nav ∧ s.host.nav = .unlock .cmdmb :: [] ∧ agentFree s ∧ s.pcl.lckstk = ⟨.nav, .cmdmb, 1⟩ :: []) := by
  refine ⟨by decide, by decide, by decide, by decide, by decide, ?_, ⟨by decide, by decide, by decide, by decide, rfl, by decide⟩,
    by decide, by decide, by decide, by decide⟩
  intro x hx
  simp only [List.mem_cons, List.not_mem_nil, or_false] at hx
  rcases hx with rfl | rfl <;> exact ⟨by decide, by decide, by decide, by decide, rfl, by decide, by decide⟩

theorem witness_ErrorCodeIsSticky :
    (let s := { start.withFetchWord 32 0x22000000 with err := 7 };
      step s = .next { start with err := 7 } ∧ s.err ≠ 0) ∧
    (let s := start.withFetchWord 32 0x22000000;
      step s = .next { start with err := 2 } ∧ ({ start with err := 2 } : State).err ≠ s.err) := by
  refine ⟨⟨rfl, by decide⟩, ⟨rfl, by decide⟩⟩

theorem witness_OnlyTicksMoveTimeAndCounter :
    exec .encStep (encoding none 0 .main 0 0 9) = .next (after .encStep (encoding none 0 .main 0 0 9)) ∧
    (∀ n, Instr.encStep ≠ .tick n) ∧ navTurnStep start = .next (afterTurn start) := by
  refine ⟨rfl, ?_, rfl⟩; intro n h; cases h

theorem witness_OnlyStepsOfTheDriversWritePins :
    exec .trigStep (trigRuns .run1 0 0) = .next (after .trigStep (trigRuns .run1 0 0)) ∧
    exec .execFwd start = .next (after .execFwd start) ∧ Instr.execFwd ≠ .trigStep ∧ Instr.execFwd ≠ .encStep ∧
    navTurnStep start = .next (afterTurn start) ∧ start.host.nav.head? ≠ some .encRun := by
  refine ⟨rfl, rfl, by decide, by decide, rfl, by decide⟩

end Sys2Proof.Tests
end

section
/-! PROOF. What holds the running agent off, and what leaves the clock alone (00_scope.md R17). -/

namespace Sys2Proof.Machine

variable {P : Params}

/-! ### Every operation of a held-off agent answers NOT_ENABLED (R186, R17)

One lemma per shared operation; `asRunning_heldOff` is the one for the operations that are an `asRunning`. -/

/-- What holds the running agent off: a takeable source, or its own delay, with its owner and its deadline. -/
theorem heldOff_iff {s : State} :
    heldOff s P = true ↔ anyTakeable s P = true ∨ (run s = .nav ∧ s.now < s.host.navDl) ∨
      (run s = .trig ∧ (s.ecu.trigSt = .run2 ∨ s.ecu.trigSt = .run3) ∧ s.now < s.ecu.trigDl) := by
  rw [heldOff, Bool.or_eq_true, waiting_iff]

section
variable {s : State}

theorem onShared_heldOff {r : Resource} {k : State} (h : heldOff s P = true) :
    onShared s r k P = .error .notEnabled := asRunning_heldOff h

theorem acceptOp_heldOff {cmd : Option Command} {p : Byte} (h : heldOff s P = true) :
    acceptOp cmd p s P = .error .notEnabled := by simp [acceptOp, h]

theorem encoderStep_heldOff (h : heldOff s P = true) : encoderStep s P = .error .notEnabled := by
  simp [encoderStep, h]

theorem asEmitter_heldOff {dl : Nat} {k : Except RefusalCode State} (h : heldOff s P = true) :
    asEmitter s dl k P = .error .notEnabled := by
  rw [asEmitter, asRunning_heldOff h, ite_self]

/-- In a Run state a micro-step is the TRIG task's own; the entry from Pending is not (R121). -/
theorem emitterStep_heldOff (hrun : s.ecu.trigSt.isRun = true) (h : heldOff s P = true) :
    emitterStep s P = .error .notEnabled := by
  unfold emitterStep
  cases hst : s.ecu.trigSt with
  | run1 => exact asEmitter_heldOff h
  | run2 => exact asEmitter_heldOff h
  | run3 => exact asEmitter_heldOff h
  | off => rfl
  | sleep => rfl
  | pending => rw [hst] at hrun; cases hrun

/-- The ids of a decodable word name a resource (R66). -/
theorem resourceOfId_of_le {r : BitVec 3} (hr : r.toNat ≤ 4) : ∃ q, resourceOfId r = some q := by
  have named : ∀ r : BitVec 3, r.toNat ≤ 4 → (resourceOfId r).isSome := by decide
  exact Option.isSome_iff_exists.1 (named r hr)

theorem onResourceId_eq {r : BitVec 3} {q : Resource} {k : Resource → Except RefusalCode State}
    (hq : resourceOfId r = some q) : onResourceId r k = k q := by rw [onResourceId, hq]

theorem navIssue_error (rest : List NavAct) (c : RefusalCode) : navIssue rest (.error c) = .error c := rfl

/-- Each action of NAV is a block operation, a guarded host access, or an `ENC.STEP` while the encoder is NAV's. -/
theorem navDo_heldOff (a : NavAct) (rest : List NavAct) (h : heldOff s P = true) :
    navDo P a rest s = .error .notEnabled := by
  have issued : ∀ r, r = .error .notEnabled → navIssue rest r = .error .notEnabled := by
    rintro _ rfl; exact navIssue_error rest _
  cases a with
  | lock r => exact issued _ (asRunning_heldOff h)
  | unlock r => exact issued _ (asRunning_heldOff h)
  | request => exact issued _ (asRunning_heldOff h)
  | distRd => exact issued _ (onShared_heldOff h)
  | distClr => exact issued _ (onShared_heldOff h)
  | exec c => exact issued _ (acceptOp_heldOff h)
  | readMode => exact onShared_heldOff h
  | readCmd => exact onShared_heldOff h
  | clearCmd => exact onShared_heldOff h
  | encRun => simp only [navDo, encoderStep_heldOff h, asRunning_heldOff h, ite_self]
  | takeReading => exact asRunning_heldOff h
  | setDr d => exact asRunning_heldOff h
  | setDl d => exact asRunning_heldOff h
  | scanner p => exact asRunning_heldOff h
  | delay n => exact asRunning_heldOff h
  | setScan p => exact asRunning_heldOff h
  | setDeb b => exact asRunning_heldOff h
  | decideTurn => exact asRunning_heldOff h

/-- A turn is refused when NAV is held off, and when NAV is not the running agent. -/
theorem navStep_heldOff (h : heldOff s P = true) : navStep P s = .error .notEnabled := by
  rw [navStep, navDo_heldOff _ _ h, ite_self]

end

/-- The twenty operations of the running agent, for a choice of operands: all but the environment's events, the services, and the
emitter's own steps. -/
def agentOps (m : BitVec 4) (k : BitVec 2) (r : BitVec 3) (p : Byte) : List Instr :=
  [.trigReq, .distRd, .distClr, .ctlSet m, .ctlClr m, .flgClr k, .cntRd, .ctlRd, .flgRd, .execFwd, .execRev, .execRt, .execLt,
    .execBrk, .execStp, .execDnt, .shift p, .encStep, .lock r, .unlock r]

theorem conclude_notEnabled {s : State} {r : Except RefusalCode State} (h : r = .error .notEnabled) :
    conclude s r = .next (refusedWith 2 s) := by rw [h]; rfl

/-- No operation of a held-off agent is executed: what it answers is the refusal of R240 with NOT_ENABLED. -/
theorem exec_heldOff {s : State} {r : BitVec 3} (hr : r.toNat ≤ 4) (h : heldOff s = true) (m : BitVec 4) (k : BitVec 2)
    (p : Byte) : ∀ i ∈ agentOps m k r p, exec i s = .next (refusedWith 2 s) := by
  obtain ⟨q, hq⟩ := resourceOfId_of_le hr
  have request : exec .trigReq s = .next (refusedWith 2 s) := conclude_notEnabled (asRunning_heldOff h)
  have shared : ∀ c u, conclude s (onShared s c u) = .next (refusedWith 2 s) := fun _ _ =>
    conclude_notEnabled (onShared_heldOff h)
  have accept : ∀ c b, conclude s (acceptOp c b s) = .next (refusedWith 2 s) := fun _ _ =>
    conclude_notEnabled (acceptOp_heldOff h)
  have microStep : exec .encStep s = .next (refusedWith 2 s) := conclude_notEnabled (encoderStep_heldOff h)
  have onId : ∀ f, f q = .error .notEnabled → conclude s (onResourceId r f) = .next (refusedWith 2 s) := fun _ hf =>
    conclude_notEnabled ((onResourceId_eq hq).trans hf)
  simp only [agentOps, List.forall_mem_cons]
  exact ⟨request,
    shared _ _, shared _ _, shared _ _, shared _ _, shared _ _, shared _ _, shared _ _, shared _ _,
    accept _ _, accept _ _, accept _ _, accept _ _, accept _ _, accept _ _, accept _ _, accept _ _,
    microStep, onId _ (asRunning_heldOff h), onId _ (asRunning_heldOff h), List.forall_mem_nil _⟩

/-- Settles O48: `heldOff` is a disjunction by definition, and it is the first check of every operation of the running agent. -/
theorem takeableSourceHoldsOffTheRunningAgent : Obligations.TakeableSourceHoldsOffTheRunningAgent := by
  intro s m k r p hr
  refine ⟨heldOff_iff.symm, fun h => ⟨exec_heldOff hr h m k p, fun hrun => ?_, ?_⟩⟩
  · exact conclude_notEnabled (emitterStep_heldOff hrun h)
  · exact conclude_notEnabled (navStep_heldOff h)

/-! ### Only TICK moves the clock (R17, R21, R35) -/

/-- NOW and CNT are the same in both states. -/
def SameClock (s t : State) : Prop := t.now = s.now ∧ t.ecu.cnt = s.ecu.cnt

section
variable {s t : State}

theorem refuse_sameClock (c : RefusalCode) : SameClock s (refuse c s) := ⟨rfl, rfl⟩

theorem publish_cnt (e : Int) : (publish P e s).ecu.cnt = s.ecu.cnt := by
  obtain ⟨d, hd⟩ := publish_ecu s P e
  rw [hd]

theorem captureArm_sameClock : SameClock s (captureArm P s) := by
  refine ⟨captureArm_now s P, ?_⟩
  unfold captureArm
  cases s.ecu.ecs with
  | idle => rfl
  | done => exact publish_cnt _

theorem requestPulse_sameClock : SameClock s (requestPulse s) := by
  refine ⟨requestPulse_now s, ?_⟩
  unfold requestPulse
  cases s.ecu.trigSt <;> rfl

theorem leave_sameClock (h : leave s = .ok t) : SameClock s t := by
  obtain ⟨_, _, -, -, -, rfl⟩ := leave_ok_iff.1 h; exact ⟨rfl, rfl⟩

theorem emitterStep_sameClock (h : emitterStep s P = .ok t) : SameClock s t := by
  rcases emitterStep_ok_iff.1 h with ⟨-, h⟩ | ⟨-, -, -, ⟨-, rfl⟩ | ⟨-, -, rfl⟩ | ⟨-, -, h⟩⟩
  · obtain ⟨-, rfl⟩ := startPulse_ok_iff.1 h; exact ⟨rfl, rfl⟩
  · exact ⟨rfl, rfl⟩
  · exact ⟨rfl, rfl⟩
  · have hleave : SameClock (pulseEdge false (ms trigSleepMs) .sleep s) t := leave_sameClock h
    exact hleave

theorem acceptOp_sameClock {cmd : Option Command} {p : Byte} (h : acceptOp cmd p s P = .ok t) : SameClock s t := by
  obtain ⟨-, -, rfl⟩ := acceptOp_ok_iff.1 h; exact ⟨rfl, rfl⟩

/-- TRIGPIN is the one pin of the capture unit, and none of it is CNT. -/
theorem setLevel_cnt (p : Pin) (b : Bool) : (setLevel p b s).ecu.cnt = s.ecu.cnt := by cases p <;> rfl

theorem serialStep_sameClock (h : serialStep s = .ok t) : SameClock s t := by
  obtain ⟨-, ⟨-, rfl⟩ | ⟨-, rfl⟩⟩ := serialStep_ok_iff.1 h
  · exact ⟨by simp, by simp [setLevel_cnt]⟩
  · exact ⟨by simp, by simp [setLevel_cnt]⟩

theorem encoderStep_sameClock (h : encoderStep s P = .ok t) : SameClock s t := by
  obtain ⟨-, -, -, ⟨-, h⟩ | ⟨-, h⟩⟩ := encoderStep_ok_iff.1 h
  · obtain ⟨-, rfl⟩ := endHold_ok_iff.1 h; exact ⟨rfl, rfl⟩
  · exact serialStep_sameClock h

theorem lockOp_sameClock {r : Resource} (h : lockOp r s P = .ok t) : SameClock s t := by
  obtain ⟨-, -, rfl⟩ := acquire_ok_iff.1 (lockOp_ok_iff.1 h).2.2; exact ⟨rfl, rfl⟩

theorem unlockOp_sameClock {r : Resource} (h : unlockOp r s P = .ok t) : SameClock s t := by
  obtain ⟨_, _, -, -, -, rfl⟩ := release_ok_iff.1 (unlockOp_ok_iff.1 h).2.2; exact ⟨rfl, rfl⟩

theorem ingested_sameClock : SameClock s (ingested P s) := by simp [SameClock, ingested]

/-- An operation on a shared resource moves the clock only if what it writes there does. -/
theorem SharedEffect.sameClock {r : Resource} {u : State} (h : SharedEffect r s t u) (hu : SameClock s u) : SameClock s t := by
  obtain ⟨-, -, -, rfl⟩ := h; exact hu

theorem Effect.sameClock {i : Instr} (h : Effect s t i) (hi : ∀ n, i ≠ .tick n) : SameClock s t := by
  cases i with
  | tick n => exact absurd rfl (hi n)
  | echoR => obtain ⟨-, rfl⟩ := h; exact ⟨rfl, rfl⟩
  | echoF => obtain ⟨-, rfl⟩ := h; exact ⟨rfl, rfl⟩
  | rx b => subst h; exact ⟨rfl, rfl⟩
  | svcOvf => obtain ⟨-, -, rfl⟩ := h; exact ⟨rfl, rfl⟩
  | svcCap => obtain ⟨-, -, rfl⟩ := h; exact captureArm_sameClock
  | trigReq => obtain ⟨-, -, rfl⟩ := h; exact requestPulse_sameClock
  | trigStep => exact emitterStep_sameClock h
  | trigWake => obtain ⟨-, -, -, rfl⟩ := h; exact ⟨rfl, rfl⟩
  | distRd => exact SharedEffect.sameClock h ⟨rfl, rfl⟩
  | distClr => exact SharedEffect.sameClock h ⟨rfl, rfl⟩
  | ctlSet m => exact SharedEffect.sameClock h ⟨rfl, rfl⟩
  | ctlClr m => exact SharedEffect.sameClock h ⟨rfl, rfl⟩
  | flgClr m => exact SharedEffect.sameClock h ⟨rfl, rfl⟩
  | cntRd => exact SharedEffect.sameClock h ⟨rfl, rfl⟩
  | ctlRd => exact SharedEffect.sameClock h ⟨rfl, rfl⟩
  | flgRd => exact SharedEffect.sameClock h ⟨rfl, rfl⟩
  | execFwd => exact acceptOp_sameClock h
  | execRev => exact acceptOp_sameClock h
  | execRt => exact acceptOp_sameClock h
  | execLt => exact acceptOp_sameClock h
  | execBrk => exact acceptOp_sameClock h
  | execStp => exact acceptOp_sameClock h
  | execDnt => exact acceptOp_sameClock h
  | shift p => exact acceptOp_sameClock h
  | encStep => exact encoderStep_sameClock h
  | lock r => obtain ⟨_, -, h⟩ := h; exact lockOp_sameClock h
  | unlock r => obtain ⟨_, -, h⟩ := h; exact unlockOp_sameClock h
  | svcRx => obtain ⟨-, -, -, -, rfl⟩ := h; exact ingested_sameClock

theorem navInstr_ne_tick {a : NavAct} {i : Instr} (h : navInstr a = some i) : ∀ n, i ≠ .tick n := by
  rintro n rfl
  cases a with
  | exec c => cases c <;> cases h
  | _ => cases h

theorem exec_sameClock {i : Instr} (h : exec i s = .next t) (hi : ∀ n, i ≠ .tick n) : SameClock s t := by
  rcases exec_next h with ⟨c, rfl⟩ | h
  · exact refuse_sameClock c
  · exact h.sameClock hi

/-- A turn of NAV is a refusal, a write of the host record, or an operation that is no `TICK` with such a write. -/
theorem navTurnStep_sameClock (h : navTurnStep s = .next t) : SameClock s t := by
  rcases navTurnStep_next h with ⟨c, rfl⟩ | ⟨k, rfl⟩ | ⟨i, u, k, hi, hu, rfl⟩
  · exact refuse_sameClock c
  · exact ⟨rfl, rfl⟩
  · exact hu.sameClock (navInstr_ne_tick hi)

end

/-- Settles O58, from what every operation can do (`exec_next`) and what a turn of NAV can do (`navTurnStep_next`). -/
theorem onlyTicksMoveTimeAndCounter : Obligations.OnlyTicksMoveTimeAndCounter :=
  ⟨fun _ _ _ h hi => exec_sameClock h hi, fun _ _ h => navTurnStep_sameClock h⟩

end Sys2Proof.Machine
end

section
/-! PROOF. What an operation writes, said once for each unit of the state: the facts that the frames and the invariants of
10_state.md rest on. -/

namespace Sys2Proof.Machine

variable {P : Params} {s t : State}

/-! ### What an operation writes to the capture unit (R21 to R34) -/

/-- The capture unit after an operation, by the operation that writes it; every other leaves it (`kept`). -/
inductive EcuWrite (s : State) : Instr → Ecu → Prop
  | kept (i : Instr) : EcuWrite s i s.ecu
  | tick (n : BitVec 24) : EcuWrite s (.tick n) (s.ecu.afterTicks n.toNat)
  | echoR : EcuWrite s .echoR (s.ecu.afterEdge true)
  | echoF : EcuWrite s .echoF (s.ecu.afterEdge false)
  | overflow : EcuWrite s .svcOvf { s.ecu with flg := flgClearOvf s.ecu.flg, ovf := ovfNext Config.params s.ecu.ovf }
  | captureIdle (ht : takeable s .cap = true) (he : s.ecu.ecs = .idle) :
      EcuWrite s .svcCap { s.ecu with
        t1 := s.ecu.cnt, ctl := ctlArm (ctlTurn s.ecu.ctl), ovf := 0, ecs := .done, flg := flgClearCap s.ecu.flg }
  | captureDone (ht : takeable s .cap = true) (he : s.ecu.ecs = .done) (d : Nat) (hd : d < 2 ^ 32) :
      EcuWrite s .svcCap { s.ecu with
        t2 := s.ecu.cnt, ctl := ctlDisarm (ctlTurn s.ecu.ctl), ecs := .idle, flg := flgClearCap s.ecu.flg, distmb := some d }
  | request (hst : s.ecu.trigSt = .off) : EcuWrite s .trigReq { s.ecu with trigSt := .pending }
  | pulseStart : EcuWrite s .trigStep { s.ecu with ctl := ctlArm s.ecu.ctl, trigSt := .run1 }
  | pulseEdge (b : Bool) (dl : Nat) (n : TrigState) :
      EcuWrite s .trigStep { s.ecu with trigPin := b, trigDl := dl, trigSt := n }
  | wake (hst : s.ecu.trigSt = .sleep) : EcuWrite s .trigWake { s.ecu with trigSt := .off }
  | empty : EcuWrite s .distClr { s.ecu with distmb := none }
  | ctlSet (m : BitVec 4) : EcuWrite s (.ctlSet m) { s.ecu with ctl := maskSet s.ecu.ctl m }
  | ctlClr (m : BitVec 4) : EcuWrite s (.ctlClr m) { s.ecu with ctl := maskClear s.ecu.ctl m }
  | flgClr (m : BitVec 2) : EcuWrite s (.flgClr m) { s.ecu with flg := maskClear s.ecu.flg m }

/-- What is published fits DIST_WIDTH, whether the distance is known or free (R118, R32). -/
theorem publish_ecu_fits (e : Int) (s : State) :
    ∃ d < 2 ^ 32, (publish Config.params e s).ecu = { s.ecu with distmb := some d } := by
  unfold publish
  split
  · rename_i h; exact ⟨_, h.2, rfl⟩
  · exact ⟨_, (Config.anyDistance 32 s.draws).isLt, rfl⟩

theorem captureArm_ecuWrite (ht : takeable s .cap = true) : EcuWrite s .svcCap (captureArm Config.params s).ecu := by
  unfold captureArm
  cases he : s.ecu.ecs with
  | idle => exact .captureIdle ht he
  | done =>
    obtain ⟨d, hd, hp⟩ := publish_ecu_fits (elapsed s.ecu.t1 s.ecu.cnt s.ecu.ovf) { s with ecu := { s.ecu with
      t2 := s.ecu.cnt, ctl := ctlDisarm (ctlTurn s.ecu.ctl), ecs := .idle, flg := flgClearCap s.ecu.flg } }
    simp only [doneArm, hp]
    exact .captureDone ht he d hd

/-- A request starts an idle emitter and leaves a busy one (R126). -/
theorem requestPulse_eq (s : State) :
    requestPulse s = if s.ecu.trigSt = .off then { s with ecu := { s.ecu with trigSt := .pending } } else s := by
  unfold requestPulse
  cases s.ecu.trigSt <;> rfl

theorem requestPulse_ecuWrite : EcuWrite s .trigReq (requestPulse s).ecu := by
  rw [requestPulse_eq]
  split
  · rename_i hst; exact .request hst
  · exact .kept _

theorem emitterStep_ecuWrite (h : emitterStep s = .ok t) : EcuWrite s .trigStep t.ecu := by
  rcases emitterStep_ok_iff.1 h with ⟨-, h⟩ | ⟨-, -, -, ⟨-, rfl⟩ | ⟨-, -, rfl⟩ | ⟨-, -, h⟩⟩
  · obtain ⟨-, rfl⟩ := startPulse_ok_iff.1 h; exact .pulseStart
  · exact .pulseEdge _ _ _
  · exact .pulseEdge _ _ _
  · obtain ⟨_, _, -, -, -, rfl⟩ := leave_ok_iff.1 h; exact .pulseEdge _ _ _

/-- The pins of the encoder are none of the capture unit. -/
theorem encoderStep_ecu (h : encoderStep s P = .ok t) : t.ecu = s.ecu := by
  have encoderPin : ∀ p m, (setLevel (microPin p m).1 (microPin p m).2 s).ecu = s.ecu := by
    intro p m; cases m <;> rfl
  obtain ⟨-, -, -, ⟨-, h⟩ | ⟨-, h⟩⟩ := encoderStep_ok_iff.1 h
  · obtain ⟨-, rfl⟩ := endHold_ok_iff.1 h; rfl
  · obtain ⟨-, ⟨-, rfl⟩ | ⟨-, rfl⟩⟩ := serialStep_ok_iff.1 h <;> simp [encoderPin]

/-- Only the emitter's own steps enter or leave a Run state (R121 to R126). -/
theorem EcuWrite.isRun {i : Instr} {e : Ecu} (h : EcuWrite s i e) (hi : i ≠ .trigStep) :
    e.trigSt.isRun = s.ecu.trigSt.isRun := by
  cases h with
  | tick n => unfold Ecu.afterTicks; split <;> rfl
  | request hst => rw [hst]; rfl
  | wake hst => rw [hst]; rfl
  | pulseStart | pulseEdge => exact absurd rfl hi
  | _ => rfl

theorem EcuWrite.of_eq {i : Instr} (h : t.ecu = s.ecu) : EcuWrite s i t.ecu := h ▸ .kept i

theorem Effect.ecuWrite {i : Instr} (h : Effect s t i) : EcuWrite s i t.ecu := by
  cases i with
  | tick n => subst h; exact .tick n
  | echoR => obtain ⟨-, rfl⟩ := h; exact .echoR
  | echoF => obtain ⟨-, rfl⟩ := h; exact .echoF
  | rx b => subst h; exact .kept _
  | svcOvf => obtain ⟨-, -, rfl⟩ := h; exact .overflow
  | svcCap => obtain ⟨ht, -, rfl⟩ := h; exact captureArm_ecuWrite ht
  | trigReq => obtain ⟨-, -, rfl⟩ := h; exact requestPulse_ecuWrite
  | trigStep => exact emitterStep_ecuWrite h
  | trigWake => obtain ⟨hst, -, -, rfl⟩ := h; exact .wake hst
  | distRd | cntRd | ctlRd | flgRd => obtain ⟨-, -, -, rfl⟩ := h; exact .kept _
  | distClr => obtain ⟨-, -, -, rfl⟩ := h; exact .empty
  | ctlSet m => obtain ⟨-, -, -, rfl⟩ := h; exact .ctlSet m
  | ctlClr m => obtain ⟨-, -, -, rfl⟩ := h; exact .ctlClr m
  | flgClr m => obtain ⟨-, -, -, rfl⟩ := h; exact .flgClr m
  | execFwd | execRev | execRt | execLt | execBrk | execStp | execDnt | shift =>
    obtain ⟨-, -, rfl⟩ := acceptOp_ok_iff.1 h; exact .kept _
  | encStep => exact .of_eq (encoderStep_ecu h)
  | lock r =>
    obtain ⟨_, -, h⟩ := h
    obtain ⟨-, -, rfl⟩ := acquire_ok_iff.1 (lockOp_ok_iff.1 h).2.2; exact .kept _
  | unlock r =>
    obtain ⟨_, -, h⟩ := h
    obtain ⟨_, _, -, -, -, rfl⟩ := release_ok_iff.1 (unlockOp_ok_iff.1 h).2.2; exact .kept _
  | svcRx => obtain ⟨-, -, -, -, rfl⟩ := h; exact .of_eq (by simp [ingested])

/-! ### What NAV's operations write to the capture unit (R220 to R227) -/

/-- The operations that the documented NAV issues (R221 to R227). -/
def issuedByNav : Instr → Bool
  | .trigReq | .distRd | .distClr | .encStep | .lock _ | .unlock _ => true
  | i => !startsNone i

theorem navInstr_issuedByNav {a : NavAct} {i : Instr} (h : navInstr a = some i) : issuedByNav i = true := by
  cases a with
  | exec c => cases c <;> cases h <;> rfl
  | _ => cases h <;> rfl

/-- NAV's operations start the emitter and empty the mailbox; nothing else of theirs is in the capture unit. -/
theorem EcuWrite.ofNav {i : Instr} {e : Ecu} (h : EcuWrite s i e) (hi : issuedByNav i = true) :
    e = s.ecu ∨ e = { s.ecu with trigSt := .pending } ∨ e = { s.ecu with distmb := none } := by
  cases h with
  | kept => exact .inl rfl
  | request _ => exact .inr (.inl rfl)
  | empty => exact .inr (.inr rfl)
  | _ => cases hi

theorem navTurnStep_ecu (h : navTurnStep s = .next t) :
    t.ecu = s.ecu ∨ t.ecu = { s.ecu with trigSt := .pending } ∨ t.ecu = { s.ecu with distmb := none } := by
  rcases navTurnStep_next h with ⟨_, rfl⟩ | ⟨_, rfl⟩ | ⟨i, u, _, hi, hu, rfl⟩
  · exact .inl rfl
  · exact .inl rfl
  · exact hu.ecuWrite.ofNav (navInstr_issuedByNav hi)

/-! ### Which operations touch the arbiter, the encoder and the pins -/

/-- What every operation leaves, and what RES can be after it (R128, R133 to R135): ERR is a refusal's only, and what NAV has read
and still has to do is NAV's own. -/
structure OperationFrame (s t : State) : Prop where
  err : t.err = s.err
  navsOwn : t.host.dr = s.host.dr ∧ t.host.dl = s.host.dl ∧ t.host.nav = s.host.nav
  res : t.res = s.res ∨ t.res = s.ecu.distmb ∨ ∃ v : BitVec 32, t.res = some v.toNat

/-- The arbiter, the encoder and the record of the pins are left. -/
structure LeavesDrivers (s t : State) : Prop extends OperationFrame s t where
  pcl : t.pcl = s.pcl
  mpe : t.mpe = s.mpe
  pinTrace : t.pinTrace = s.pinTrace

/-- An operation by what it touches of the arbiter, the encoder and the pins. -/
inductive Touches (s t : State) : Instr → Prop
  | emitter (h : emitterStep s = .ok t) : Touches s t .trigStep
  | serializer (h : encoderStep s = .ok t) : Touches s t .encStep
  | acceptance (i : Instr) (cmd : Option Command) (p : Byte) (h : acceptOp cmd p s = .ok t) : Touches s t i
  | lock (i : Instr) (q : Resource) (h : acquire q s = .ok t) : Touches s t i
  | unlock (i : Instr) (q : Resource) (h : release q s = .ok t) : Touches s t i
  | none (i : Instr) (hi : i ≠ .trigStep) (h : LeavesDrivers s t) : Touches s t i

theorem OperationFrame.of_eq (he : t.err = s.err) (hh : t.host = s.host) (hr : t.res = s.res) : OperationFrame s t :=
  ⟨he, by rw [hh]; exact ⟨rfl, rfl, rfl⟩, .inl hr⟩

/-- The handler writes fields of the host only, and none of NAV's (R211). -/
theorem ingested_leavesDrivers : LeavesDrivers s (ingested P s) := by
  have navsOwn : ∀ (t : OpenBytes) (b : Byte) (u : State), (decodeOperator t b u).host.dr = u.host.dr ∧
      (decodeOperator t b u).host.dl = u.host.dl ∧ (decodeOperator t b u).host.nav = u.host.nav := by
    intro t b u
    unfold decodeOperator
    cases classifyByte t b <;> cases u.host.mode <;> exact ⟨rfl, rfl, rfl⟩
  exact ⟨⟨by simp [ingested], navsOwn _ _ (receiveByte s), .inl (by simp [ingested])⟩,
    by simp [ingested], by simp [ingested], by simp [ingested]⟩

theorem captureArm_leavesDrivers : LeavesDrivers s (captureArm P s) :=
  ⟨.of_eq (by simp) (by simp) (by simp), by simp, by simp, by simp⟩

theorem requestPulse_leavesDrivers : LeavesDrivers s (requestPulse s) :=
  ⟨.of_eq (by simp) (by simp) (by simp), by simp, by simp, by simp⟩

theorem Effect.touches {i : Instr} (h : Effect s t i) : Touches s t i := by
  cases i with
  | trigStep => exact .emitter h
  | encStep => exact .serializer h
  | execFwd | execRev | execRt | execLt | execBrk | execStp | execDnt | shift => exact .acceptance _ _ _ h
  | lock r => obtain ⟨q, -, h⟩ := h; exact .lock _ q (lockOp_ok_iff.1 h).2.2
  | unlock r => obtain ⟨q, -, h⟩ := h; exact .unlock _ q (unlockOp_ok_iff.1 h).2.2
  | tick => subst h; exact .none _ nofun ⟨.of_eq rfl rfl rfl, rfl, rfl, rfl⟩
  | rx => subst h; exact .none _ nofun ⟨⟨rfl, ⟨rfl, rfl, rfl⟩, .inl rfl⟩, rfl, rfl, rfl⟩
  | echoR | echoF => obtain ⟨-, rfl⟩ := h; exact .none _ nofun ⟨.of_eq rfl rfl rfl, rfl, rfl, rfl⟩
  | svcOvf => obtain ⟨-, -, rfl⟩ := h; exact .none _ nofun ⟨.of_eq rfl rfl rfl, rfl, rfl, rfl⟩
  | svcCap => obtain ⟨-, -, rfl⟩ := h; exact .none _ nofun captureArm_leavesDrivers
  | trigReq => obtain ⟨-, -, rfl⟩ := h; exact .none _ nofun requestPulse_leavesDrivers
  | trigWake => obtain ⟨-, -, -, rfl⟩ := h; exact .none _ nofun ⟨.of_eq rfl rfl rfl, rfl, rfl, rfl⟩
  | distClr | ctlSet | ctlClr | flgClr =>
    obtain ⟨-, -, -, rfl⟩ := h; exact .none _ nofun ⟨.of_eq rfl rfl rfl, rfl, rfl, rfl⟩
  | distRd =>
    obtain ⟨-, -, -, rfl⟩ := h; exact .none _ nofun ⟨⟨rfl, ⟨rfl, rfl, rfl⟩, .inr (.inl rfl)⟩, rfl, rfl, rfl⟩
  | cntRd | ctlRd | flgRd =>
    obtain ⟨-, -, -, rfl⟩ := h; exact .none _ nofun ⟨⟨rfl, ⟨rfl, rfl, rfl⟩, .inr (.inr ⟨_, rfl⟩)⟩, rfl, rfl, rfl⟩
  | svcRx => obtain ⟨-, -, -, -, rfl⟩ := h; exact .none _ nofun ingested_leavesDrivers

theorem emitterStep_frame (h : emitterStep s P = .ok t) : OperationFrame s t := by
  rcases emitterStep_ok_iff.1 h with ⟨-, h⟩ | ⟨-, -, -, ⟨-, rfl⟩ | ⟨-, -, rfl⟩ | ⟨-, -, h⟩⟩
  · obtain ⟨-, rfl⟩ := startPulse_ok_iff.1 h; exact .of_eq rfl rfl rfl
  · exact .of_eq rfl rfl rfl
  · exact .of_eq rfl rfl rfl
  · obtain ⟨_, _, -, -, -, rfl⟩ := leave_ok_iff.1 h; exact .of_eq rfl rfl rfl

theorem encoderStep_frame (h : encoderStep s P = .ok t) : OperationFrame s t := by
  obtain ⟨-, -, -, ⟨-, h⟩ | ⟨-, h⟩⟩ := encoderStep_ok_iff.1 h
  · obtain ⟨-, rfl⟩ := endHold_ok_iff.1 h; exact .of_eq rfl rfl rfl
  · obtain ⟨-, ⟨-, rfl⟩ | ⟨-, rfl⟩⟩ := serialStep_ok_iff.1 h <;> exact .of_eq (by simp) (by simp) (by simp)

/-- The emitter is none of the encoder. -/
theorem emitterStep_mpe {P : Params} (h : emitterStep s P = .ok t) : t.mpe = s.mpe := by
  rcases emitterStep_ok_iff.1 h with ⟨-, h⟩ | ⟨-, -, -, ⟨-, rfl⟩ | ⟨-, -, rfl⟩ | ⟨-, -, h⟩⟩
  · obtain ⟨-, rfl⟩ := startPulse_ok_iff.1 h; rfl
  · rfl
  · rfl
  · obtain ⟨_, _, -, -, -, rfl⟩ := leave_ok_iff.1 h; rfl

/-- The encoder is none of the arbiter. -/
theorem encoderStep_pcl {P : Params} (h : encoderStep s P = .ok t) : t.pcl = s.pcl := by
  obtain ⟨-, -, -, ⟨-, h⟩ | ⟨-, h⟩⟩ := encoderStep_ok_iff.1 h
  · obtain ⟨-, rfl⟩ := endHold_ok_iff.1 h; rfl
  · obtain ⟨-, ⟨-, rfl⟩ | ⟨-, rfl⟩⟩ := serialStep_ok_iff.1 h <;> simp

theorem Effect.frame {i : Instr} (h : Effect s t i) : OperationFrame s t := by
  cases h.touches with
  | emitter h => exact emitterStep_frame h
  | serializer h => exact encoderStep_frame h
  | acceptance _ cmd p h => obtain ⟨-, -, rfl⟩ := acceptOp_ok_iff.1 h; exact .of_eq rfl rfl rfl
  | lock _ q h => obtain ⟨-, -, rfl⟩ := acquire_ok_iff.1 h; exact .of_eq rfl rfl rfl
  | unlock _ q h => obtain ⟨_, _, -, -, -, rfl⟩ := release_ok_iff.1 h; exact .of_eq rfl rfl rfl
  | none _ _ h => exact h.toOperationFrame

end Sys2Proof.Machine
end

section
/-! PROOF. The capture machine, its polarity and its flag between two edges (10_state.md R24, R29, R30). -/

namespace Sys2Proof.Machine

/-! ### The bits that the named rules write (R25 to R30) -/

section
variable (ctl : BitVec 4) (f : BitVec 2) {n : Nat} (v m : BitVec n)

@[simp] theorem pol_ctlArm : (ctlArm ctl)[3] = ctl[3] := by simp [ctlArm]
@[simp] theorem pol_ctlDisarm : (ctlDisarm ctl)[3] = ctl[3] := by simp [ctlDisarm]
@[simp] theorem pol_ctlTurn : (ctlTurn ctl)[3] = !ctl[3] := by simp [ctlTurn]
@[simp] theorem capf_flgClearCap : (flgClearCap f)[0] = false := by simp [flgClearCap]
@[simp] theorem capf_flgSetOvf : (flgSetOvf f)[0] = f[0] := by simp [flgSetOvf]
@[simp] theorem capf_flgClearOvf : (flgClearOvf f)[0] = f[0] := by simp [flgClearOvf]
@[simp] theorem maskSet_getElem {i : Nat} (hi : i < n) : (maskSet v m)[i] = (v[i] || m[i]) := by simp [maskSet]
@[simp] theorem maskClear_getElem {i : Nat} (hi : i < n) : (maskClear v m)[i] = (v[i] && !m[i]) := by simp [maskClear]

end

section
variable {s t : State} {i : Instr} {e : Ecu}

/-- Ticks set the overflow flag at most (R110). -/
theorem Ecu.afterTicks_capture (e : Ecu) (n : Nat) :
    (e.afterTicks n).ecs = e.ecs ∧ (e.afterTicks n).ctl = e.ctl ∧ (e.afterTicks n).capf = e.capf := by
  unfold Ecu.afterTicks Ecu.capf
  split
  · refine ⟨rfl, rfl, ?_⟩
    simp only
    split
    · exact capf_flgSetOvf _
    · rfl
  · exact ⟨rfl, rfl, rfl⟩

/-- A change of the echo line writes ECHO and sets CAPF, on a capture edge only (R112, R113). -/
theorem Ecu.afterEdge_capf {e : Ecu} {b : Bool} (h0 : e.capf = false) (h1 : (e.afterEdge b).capf = true) :
    e.isCaptureEdge b = true := by
  by_contra hedge
  simp only [Ecu.afterEdge, if_neg hedge] at h1
  exact Bool.false_ne_true (h0.symm.trans h1)

theorem Ecu.isCaptureEdge_iff {e : Ecu} {b : Bool} : e.isCaptureEdge b = true ↔ e.capen = true ∧ e.pol = !b := by
  simp [Ecu.isCaptureEdge]

/-- ECS moves by the capture service only, which is taken with CAPF set and clears it (R116 to R118). -/
theorem EcuWrite.ecs_change (h : EcuWrite s i e) (hne : e.ecs ≠ s.ecu.ecs) :
    i = .svcCap ∧ s.ecu.capf = true ∧ e.capf = false := by
  cases h with
  | captureIdle ht => exact ⟨rfl, takeable_pending ht, capf_flgClearCap _⟩
  | captureDone ht => exact ⟨rfl, takeable_pending ht, capf_flgClearCap _⟩
  | tick n => exact absurd (Ecu.afterTicks_capture _ _).1 hne
  | _ => exact absurd rfl hne

/-- CAPF is set by the edges only (R30, R112, R113). -/
theorem EcuWrite.capf_set (h : EcuWrite s i e) (h0 : s.ecu.capf = false) (h1 : e.capf = true) :
    ∃ b, s.ecu.isCaptureEdge b = true ∧ i = if b then .echoR else .echoF := by
  have unset : e.capf ≠ s.ecu.capf := by rw [h0, h1]; exact Bool.noConfusion
  cases h with
  | echoR => exact ⟨true, Ecu.afterEdge_capf h0 h1, rfl⟩
  | echoF => exact ⟨false, Ecu.afterEdge_capf h0 h1, rfl⟩
  | tick n => exact absurd (Ecu.afterTicks_capture _ _).2.2 unset
  | overflow => exact absurd (capf_flgClearOvf _) unset
  | captureIdle | captureDone => exact absurd h1 (by simp [Ecu.capf])
  | flgClr m => simp_all [Ecu.capf]
  | _ => exact absurd rfl unset

/-- The polarity is Rising exactly in state Idle (R29). -/
def Ecu.polarityOk (e : Ecu) : Prop := e.pol = false ↔ e.ecs = .idle

/-- The service turns the polarity as it changes the state; of the others only a mask with the POL bit writes POL (R29). -/
theorem EcuWrite.polarityOk (h : EcuWrite s i e) (hset : ∀ m, i = .ctlSet m → m.getLsbD 3 = false)
    (hclr : ∀ m, i = .ctlClr m → m.getLsbD 3 = false) (hp : s.ecu.polarityOk) : e.polarityOk := by
  unfold Ecu.polarityOk Ecu.pol at *
  cases h with
  | tick n =>
    obtain ⟨hecs, hctl, -⟩ := Ecu.afterTicks_capture s.ecu n.toNat
    rwa [hecs, hctl]
  | captureIdle ht he => simpa [he] using hp
  | captureDone ht he => simpa [he] using hp
  | pulseStart => simpa using hp
  | ctlSet m => simpa [show m[3] = false from hset m rfl] using hp
  | ctlClr m => simpa [show m[3] = false from hclr m rfl] using hp
  | _ => exact hp

/-- A refusal leaves the capture unit, so every operation writes what its effect does. -/
theorem exec_ecuWrite (h : exec i s = .next t) : EcuWrite s i t.ecu := by
  rcases exec_next h with ⟨c, rfl⟩ | h
  · exact .kept i
  · exact h.ecuWrite

end

/-- Settles O23, from what each operation writes to the capture unit (`exec_ecuWrite`) and what NAV's do (`navTurnStep_ecu`). -/
theorem captureStateAlternatesOnEdges : Obligations.CaptureStateAlternatesOnEdges := by
  refine ⟨fun i s t h => ⟨(exec_ecuWrite h).ecs_change, fun h0 h1 => ?_⟩, fun s t h => ?_⟩
  · obtain ⟨b, hedge, rfl⟩ := (exec_ecuWrite h).capf_set h0 h1
    obtain ⟨hcapen, hpol⟩ := Ecu.isCaptureEdge_iff.1 hedge
    cases b with
    | true => exact ⟨hcapen, .inl ⟨rfl, hpol⟩⟩
    | false => exact ⟨hcapen, .inr ⟨rfl, hpol⟩⟩
  · rcases navTurnStep_ecu h with h | h | h <;> exact h ▸ ⟨rfl, rfl⟩

/-- Settles O24: `Ecu.polarityOk` is an invariant of every operation that writes no POL by a mask. -/
theorem polarityFollowsTheCaptureState : Obligations.PolarityFollowsTheCaptureState := by
  refine ⟨fun i s t hset hclr h => (exec_ecuWrite h).polarityOk hset hclr, fun s t h => ?_⟩
  rcases navTurnStep_ecu h with h | h | h <;> exact h ▸ ⟨rfl, rfl⟩

end Sys2Proof.Machine
end

section
/-! PROOF. The invariant of the block (10_state.md R22, R32, R37, R41 to R43, R49; 41_encoder.md R161, R165; 42_lock_arbiter.md
R192): each part, and what keeps it. -/

namespace Sys2Proof.Machine

variable {s t : State}

/-! ### The arbiter (R41 to R43, R192) -/

theorem le_raise_right (e c : Prio) : c ≤ raise e c := by
  unfold raise; split
  · exact le_rfl
  · exact not_lt.1 ‹_›

theorem three_le_ceil (r : Resource) : 3 ≤ ceil r := by cases r <;> decide

theorem lockChain_cons_iff {a : Agent} {base e : Prio} {x : LockEntry} {l : List LockEntry} :
    lockChain a base (x :: l) e = true ↔
      x.agent = a ∧ e = raise x.saved (ceil x.res) ∧ lockChain a base l x.saved = true := by
  simp [lockChain, and_assoc]

theorem lockChain_nil_iff {a : Agent} {base e : Prio} : lockChain a base [] e = true ↔ e = base := by simp [lockChain]

theorem lockChain_agent {a : Agent} {base e : Prio} {l : List LockEntry} (h : lockChain a base l e = true) :
    ∀ x ∈ l, x.agent = a := by
  induction l generalizing e with
  | nil => simp
  | cons x l ih =>
    obtain ⟨hx, -, htail⟩ := lockChain_cons_iff.1 h
    exact List.forall_mem_cons.2 ⟨hx, ih htail⟩

/-- Below every ceiling no lock is held (R181). -/
theorem lockChain_eq_nil_of_lt {a : Agent} {base e : Prio} {l : List LockEntry} (h : lockChain a base l e = true)
    (he : e < 3) : l = [] := by
  cases l with
  | nil => rfl
  | cons x l =>
    obtain ⟨-, rfl, -⟩ := lockChain_cons_iff.1 h
    exact absurd ((three_le_ceil x.res).trans (le_raise_right _ _)) (not_le.2 he)

theorem heldBy_eq_none_iff {r : Resource} : heldBy s r = none ↔ r ∉ s.pcl.lckstk.map (·.res) := by
  simp [heldBy]

theorem contextOk_iff :
    contextOk s = true ↔
      (s.pcl.act = [⟨.nav, 0⟩] ∧ s.ecu.trigSt.isRun = false) ∨
      (s.pcl.act = [⟨.trig, 1⟩, ⟨.nav, 0⟩] ∧ s.ecu.trigSt.isRun = true) := by
  unfold contextOk
  split <;> simp_all

theorem arbiterOk_iff :
    arbiterOk s = true ↔
      contextOk s = true ∧ lockChain (run s) (prio (run s)) s.pcl.lckstk s.pcl.epri = true ∧
        (s.pcl.lckstk.map (·.res)).Nodup := by
  simp [arbiterOk, locksDistinct, and_assoc]

/-- The arbiter's invariant reads the arbiter, and of the emitter whether it runs. -/
theorem arbiterOk_of_same (hs : arbiterOk s = true) (hp : t.pcl = s.pcl) (hr : t.ecu.trigSt.isRun = s.ecu.trigSt.isRun) :
    arbiterOk t = true := by
  simpa only [arbiterOk, contextOk, locksDistinct, run, hp, hr] using hs

theorem acquire_arbiterOk {r : Resource} (h : acquire r s = .ok t) (hs : arbiterOk s = true) : arbiterOk t = true := by
  obtain ⟨hctx, hchain, hdistinct⟩ := arbiterOk_iff.1 hs
  obtain ⟨-, hfree, rfl⟩ := acquire_ok_iff.1 h
  exact arbiterOk_iff.2 ⟨hctx, lockChain_cons_iff.2 ⟨rfl, rfl, hchain⟩,
    List.nodup_cons.2 ⟨heldBy_eq_none_iff.1 hfree, hdistinct⟩⟩

theorem release_arbiterOk {r : Resource} (h : release r s = .ok t) (hs : arbiterOk s = true) : arbiterOk t = true := by
  obtain ⟨hctx, hchain, hdistinct⟩ := arbiterOk_iff.1 hs
  obtain ⟨e, rest, hstk, -, -, rfl⟩ := release_ok_iff.1 h
  rw [hstk] at hchain hdistinct
  exact arbiterOk_iff.2 ⟨hctx, (lockChain_cons_iff.1 hchain).2.2, (List.nodup_cons.1 hdistinct).2⟩

/-- Between two steps NAV alone runs, or the emitter's task over NAV (R41). -/
theorem act_of_arbiterOk (hs : arbiterOk s = true) :
    s.pcl.act = if s.ecu.trigSt.isRun then [⟨.trig, 1⟩, ⟨.nav, 0⟩] else [⟨.nav, 0⟩] := by
  rcases contextOk_iff.1 (arbiterOk_iff.1 hs).1 with ⟨hact, hrun⟩ | ⟨hact, hrun⟩ <;> rw [hact, hrun] <;> rfl

/-- The locks are those of the agent of the top frame (R192). -/
theorem lockChain_of_act {f : Frame} {l : List Frame} (hs : arbiterOk s = true) (hact : s.pcl.act = f :: l) :
    lockChain f.agent (prio f.agent) s.pcl.lckstk s.pcl.epri = true := by
  have hrun : run s = f.agent := by rw [run, hact]
  obtain ⟨-, hchain, -⟩ := arbiterOk_iff.1 hs
  rwa [hrun] at hchain

/-- The emitter enters over NAV, which then holds no lock: EPRI is below 2 (R121, R185). -/
theorem startPulse_arbiterOk (hst : s.ecu.trigSt.isRun = false) (h : startPulse s = .ok t) (hs : arbiterOk s = true) :
    arbiterOk t = true := by
  obtain ⟨htake, rfl⟩ := startPulse_ok_iff.1 h
  have hact : s.pcl.act = [⟨.nav, 0⟩] := by rw [act_of_arbiterOk hs, hst]; rfl
  have hchain : lockChain .nav 1 s.pcl.lckstk s.pcl.epri = true := lockChain_of_act hs hact
  have hepri : s.pcl.epri < 2 := takeable_epri htake
  have hnone : s.pcl.lckstk = [] := lockChain_eq_nil_of_lt hchain (hepri.trans (by decide))
  have hbase : s.pcl.epri = 1 := by rwa [hnone, lockChain_nil_iff] at hchain
  refine arbiterOk_iff.2 ⟨contextOk_iff.2 (.inr ⟨?_, rfl⟩), ?_, ?_⟩
  · simp only [hact, hbase]
  · rw [hnone]; rfl
  · rw [hnone]; exact List.nodup_nil

/-- The emitter's task leaves to NAV with no lock held (R124, R187). -/
theorem leave_arbiterOk {u : State} (hs : arbiterOk s = true) (h : leave u = .ok t) (hst : s.ecu.trigSt.isRun = true)
    (hp : u.pcl = s.pcl) (hu : u.ecu.trigSt.isRun = false) : arbiterOk t = true := by
  have hact : s.pcl.act = [⟨.trig, 1⟩, ⟨.nav, 0⟩] := by rw [act_of_arbiterOk hs, hst]; rfl
  have hchain : lockChain .trig 2 s.pcl.lckstk s.pcl.epri = true := lockChain_of_act hs hact
  obtain ⟨f, rest, hf, -, hholds, rfl⟩ := leave_ok_iff.1 h
  rw [hp, hact] at hf
  obtain ⟨rfl, rfl⟩ := List.cons.inj hf
  have hnone : s.pcl.lckstk = [] := by
    refine List.eq_nil_iff_forall_not_mem.2 fun x hx => ?_
    simp only [holdsAny, hp, List.any_eq_false, beq_iff_eq] at hholds
    exact hholds x hx (lockChain_agent hchain x hx)
  refine arbiterOk_iff.2 ⟨contextOk_iff.2 (.inl ⟨rfl, hu⟩), ?_, ?_⟩
  · simp only [hp, hnone]; rfl
  · simp only [hp, hnone]; exact List.nodup_nil

theorem emitterStep_arbiterOk (h : emitterStep s = .ok t) (hs : arbiterOk s = true) : arbiterOk t = true := by
  rcases emitterStep_ok_iff.1 h with ⟨hst, h⟩ | ⟨-, -, -, ⟨hst, rfl⟩ | ⟨hst, -, rfl⟩ | ⟨hst, -, h⟩⟩
  · exact startPulse_arbiterOk (by rw [hst]; rfl) h hs
  · exact arbiterOk_of_same hs rfl (by rw [hst]; rfl)
  · exact arbiterOk_of_same hs rfl (by rw [hst]; rfl)
  · exact leave_arbiterOk hs h (by rw [hst]; rfl) rfl rfl

theorem Effect.arbiterOk {i : Instr} (h : Effect s t i) (hs : arbiterOk s = true) : arbiterOk t = true := by
  cases h.touches with
  | emitter h => exact emitterStep_arbiterOk h hs
  | serializer h' => exact arbiterOk_of_same hs (encoderStep_pcl h') (h.ecuWrite.isRun nofun)
  | acceptance _ _ _ h => obtain ⟨-, -, rfl⟩ := acceptOp_ok_iff.1 h; exact hs
  | lock _ _ h => exact acquire_arbiterOk h hs
  | unlock _ _ h => exact release_arbiterOk h hs
  | none _ hi h' => exact arbiterOk_of_same hs h'.pcl (h.ecuWrite.isRun hi)

/-! ### The encoder (R37, R161, R163, R165) -/

/-- The encoder's invariant by its parts. -/
structure Mpe.Ok (m : Mpe) : Prop where
  idle : m.busy = false → m.cmd = none ∧ m.pos = 0
  hold : m.busy = true → m.phase = .hold → m.pos = 0 ∧ (m.cmd.bind holdMs).isSome = true
  closing : m.busy = true → m.phase = .zero → m.pat = 0 ∧ (m.cmd.bind holdMs).isSome = true
  clk : m.clk = (m.inFrame && decide (m.pos.val % 3 = 0))
  latch : m.inFrame = true → m.latch = false

theorem encoderOk_iff : encoderOk s = true ↔ s.mpe.Ok := by
  have parts : encoderOk s = true ↔ (s.mpe.busy = false → s.mpe.cmd = none ∧ s.mpe.pos = 0) ∧
      (s.mpe.busy = true → s.mpe.phase = .hold → s.mpe.pos = 0 ∧ (s.mpe.cmd.bind holdMs).isSome = true) ∧
      (s.mpe.busy = true → s.mpe.phase = .zero → s.mpe.pat = 0 ∧ (s.mpe.cmd.bind holdMs).isSome = true) ∧
      s.mpe.clk = (s.mpe.inFrame && decide (s.mpe.pos.val % 3 = 0)) ∧ (s.mpe.inFrame = true → s.mpe.latch = false) := by
    simp [encoderOk, and_assoc, or_iff_not_imp_left]
  exact parts.trans ⟨fun ⟨h1, h2, h3, h4, h5⟩ => ⟨h1, h2, h3, h4, h5⟩, fun ⟨h1, h2, h3, h4, h5⟩ => ⟨h1, h2, h3, h4, h5⟩⟩

/-- The encoder is busy with a serialization: its phase is Main or Zero (R162). -/
def Mpe.Serializing (m : Mpe) : Prop := m.busy = true ∧ m.phase ≠ .hold

theorem Mpe.Serializing.inFrame_eq {m : Mpe} (h : m.Serializing) : m.inFrame = decide (0 < m.pos.val) := by
  obtain ⟨hbusy, hphase⟩ := h
  cases hp : m.phase with
  | hold => exact absurd hp hphase
  | main | zero => simp [Mpe.inFrame, hbusy, hp]

/-- The invariant during a serialization (R161, R163, R165). -/
theorem Mpe.Serializing.ok_iff {m : Mpe} (h : m.Serializing) :
    m.Ok ↔ (m.phase = .zero → m.pat = 0 ∧ (m.cmd.bind holdMs).isSome = true) ∧
      m.clk = decide (0 < m.pos.val ∧ m.pos.val % 3 = 0) ∧ (0 < m.pos.val → m.latch = false) := by
  constructor
  · intro hok
    refine ⟨hok.closing h.1, ?_, fun hpos => hok.latch ?_⟩
    · rw [hok.clk, h.inFrame_eq, Bool.decide_and]
    · rw [h.inFrame_eq]; exact decide_eq_true hpos
  · rintro ⟨hclosing, hclk, hlatch⟩
    refine ⟨fun hb => absurd (hb.symm.trans h.1) Bool.noConfusion, fun _ hp => absurd hp h.2, fun _ => hclosing, ?_, fun hf => ?_⟩
    · rw [hclk, h.inFrame_eq, Bool.decide_and]
    · rw [h.inFrame_eq] at hf; exact hlatch (of_decide_eq_true hf)

/-- Outside a frame CLK is low (R161). -/
theorem Mpe.Ok.clk_low {m : Mpe} (h : m.Ok) (hf : m.inFrame = false) : m.clk = false := by
  rw [h.clk, hf, Bool.false_and]

/-- The table of R162 by the remainder of the position: which pin a position writes. -/
theorem microStep_cases (p : Fin 26) :
    (p.val = 0 ∧ microStep p = .latchLow) ∨
    (p.val % 3 = 1 ∧ p.val ≠ 25 ∧ microStep p = .data ((p.val - 1) / 3)) ∨
    (p.val % 3 = 2 ∧ microStep p = .clkHigh) ∨
    (0 < p.val ∧ p.val % 3 = 0 ∧ microStep p = .clkLow) ∨
    (p.val = 25 ∧ microStep p = .latchHigh) := by
  revert p; decide

theorem val_succ_of_ne_last {p : Fin 26} (h : p.val ≠ 25) : (p + 1).val = p.val + 1 := by
  rw [Fin.val_add_one, if_neg (fun hp => h (by rw [hp]; rfl))]

/-- A micro-step that is not the last: CLK goes high at the positions of remainder 2 and low at those of remainder 0, and LATCH
stays low after position 0 (R161, R165). -/
theorem microStep_mpeOk (hser : s.mpe.Serializing) (hok : s.mpe.Ok) (hlast : s.mpe.pos.val ≠ 25) (dl : Nat) :
    Mpe.Ok { (setLevel (microPin s.mpe.pat (microStep s.mpe.pos)).1 (microPin s.mpe.pat (microStep s.mpe.pos)).2 s).mpe with
      pos := s.mpe.pos + 1, dl := dl } := by
  obtain ⟨hclosing, hclk, hlatch⟩ := hser.ok_iff.1 hok
  have hpos := val_succ_of_ne_last hlast
  rcases microStep_cases s.mpe.pos with ⟨hp, hm⟩ | ⟨hp, -, hm⟩ | ⟨hp, hm⟩ | ⟨hp0, hp, hm⟩ | ⟨hp, -⟩
  · rw [hm]
    refine Mpe.Serializing.ok_iff (m := { s.mpe with latch := false, pos := s.mpe.pos + 1, dl := dl }) hser |>.2
      ⟨hclosing, ?_, fun _ => rfl⟩
    simp only [hclk, hpos, hp]; decide
  · rw [hm]
    refine Mpe.Serializing.ok_iff (m := { s.mpe with
      data := !patternBit s.mpe.pat (7 - (s.mpe.pos.val - 1) / 3), pos := s.mpe.pos + 1, dl := dl }) hser |>.2
      ⟨hclosing, ?_, fun _ => hlatch (by omega)⟩
    simp only [hclk, hpos, decide_eq_decide]; omega
  · rw [hm]
    refine Mpe.Serializing.ok_iff (m := { s.mpe with clk := true, pos := s.mpe.pos + 1, dl := dl }) hser |>.2
      ⟨hclosing, ?_, fun _ => hlatch (by omega)⟩
    simp only [hpos, true_eq_decide_iff]; omega
  · rw [hm]
    refine Mpe.Serializing.ok_iff (m := { s.mpe with clk := false, pos := s.mpe.pos + 1, dl := dl }) hser |>.2
      ⟨hclosing, ?_, fun _ => hlatch hp0⟩
    simp only [hpos, false_eq_decide_iff]; omega
  · exact absurd hp hlast

/-- The encoder at the end of an operation, or idle (R37, R163). -/
theorem Mpe.ok_idle {m : Mpe} (hb : m.busy = false) (hcmd : m.cmd = none) (hpos : m.pos = 0) (hclk : m.clk = false) : m.Ok where
  idle _ := ⟨hcmd, hpos⟩
  hold h := absurd (hb.symm.trans h) Bool.noConfusion
  closing h := absurd (hb.symm.trans h) Bool.noConfusion
  clk := by simp [Mpe.inFrame, hb, hclk]
  latch h := by simp [Mpe.inFrame, hb] at h

/-- The encoder in the hold of a transient command (R163). -/
theorem Mpe.ok_hold {m : Mpe} (hp : m.phase = .hold) (hb : m.busy = true) (hpos : m.pos = 0)
    (hcmd : (m.cmd.bind holdMs).isSome = true) (hclk : m.clk = false) : m.Ok where
  idle h := absurd (h.symm.trans hb) Bool.noConfusion
  hold _ _ := ⟨hpos, hcmd⟩
  closing _ h := by rw [hp] at h; cases h
  clk := by simp [Mpe.inFrame, hp, hclk]
  latch h := by simp [Mpe.inFrame, hp] at h

/-- The encoder before the first write of a frame: of the operation itself, or of the closing frame (R158, R163). -/
theorem Mpe.ok_frameStart {m : Mpe} (hser : m.Serializing) (hpos : m.pos = 0) (hclk : m.clk = false)
    (hclosing : m.phase = .zero → m.pat = 0 ∧ (m.cmd.bind holdMs).isSome = true) : m.Ok :=
  hser.ok_iff.2 ⟨hclosing, by simp [hclk, hpos], by simp [hpos]⟩

/-- After the last micro-step the encoder is idle, or holds a transient command (R163). -/
theorem endSerialization_mpeOk (hb : s.mpe.busy = true) (hclk : s.mpe.clk = false) : (endSerialization s).mpe.Ok := by
  unfold endSerialization
  split
  · rename_i h hhold
    exact Mpe.ok_hold rfl hb rfl (by simp [hhold]) hclk
  · exact Mpe.ok_idle rfl rfl rfl hclk

theorem serialStep_mpeOk (hser : s.mpe.Serializing) (h : serialStep s = .ok t) (hok : s.mpe.Ok) : t.mpe.Ok := by
  obtain ⟨-, ⟨hlast, rfl⟩ | ⟨hlast, rfl⟩⟩ := serialStep_ok_iff.1 h
  · have hm : microStep s.mpe.pos = .latchHigh := by
      rw [show s.mpe.pos = 25 from Fin.ext hlast]; rfl
    obtain ⟨-, hclk, -⟩ := hser.ok_iff.1 hok
    rw [hm]
    refine endSerialization_mpeOk hser.1 ?_
    change s.mpe.clk = false
    simp [hclk, hlast]
  · exact microStep_mpeOk hser hok hlast _

/-- The step out of the hold opens the closing frame (R163). -/
theorem endHold_mpeOk (hb : s.mpe.busy = true) (hp : s.mpe.phase = .hold) (h : endHold s = .ok t) (hok : s.mpe.Ok) :
    t.mpe.Ok := by
  have hclk : s.mpe.clk = false := hok.clk_low (by simp [Mpe.inFrame, hp])
  obtain ⟨-, rfl⟩ := endHold_ok_iff.1 h
  exact Mpe.ok_frameStart ⟨hb, EncPhase.noConfusion⟩ rfl hclk fun _ => ⟨rfl, (hok.hold hb hp).2⟩

theorem encoderStep_mpeOk (h : encoderStep s = .ok t) (hok : s.mpe.Ok) : t.mpe.Ok := by
  obtain ⟨hb, -, -, ⟨hp, h⟩ | ⟨hp, h⟩⟩ := encoderStep_ok_iff.1 h
  · exact endHold_mpeOk hb hp h hok
  · exact serialStep_mpeOk ⟨hb, hp⟩ h hok

/-- An accepted operation stands at position 0, and no pin is written (R158). -/
theorem acceptOp_mpeOk {cmd : Option Command} {p : Byte} (h : acceptOp cmd p s = .ok t) (hok : s.mpe.Ok) : t.mpe.Ok := by
  obtain ⟨-, hb, rfl⟩ := acceptOp_ok_iff.1 h
  have hclk : s.mpe.clk = false := hok.clk_low (by simp [Mpe.inFrame, hb])
  exact Mpe.ok_frameStart ⟨rfl, EncPhase.noConfusion⟩ rfl hclk EncPhase.noConfusion

theorem Effect.mpeOk {i : Instr} (h : Effect s t i) (hok : s.mpe.Ok) : t.mpe.Ok := by
  cases h.touches with
  | emitter h => rwa [emitterStep_mpe h]
  | serializer h => exact encoderStep_mpeOk h hok
  | acceptance _ _ _ h => exact acceptOp_mpeOk h hok
  | lock _ _ h => obtain ⟨-, -, rfl⟩ := acquire_ok_iff.1 h; exact hok
  | unlock _ _ h => obtain ⟨_, _, -, -, -, rfl⟩ := release_ok_iff.1 h; exact hok
  | none _ _ h => rwa [h.mpe]

/-! ### The widths (R22, R32, R49, R50) -/

/-- OVF and DISTMB are within their widths. -/
def Ecu.Fits (e : Ecu) : Prop := e.ovf < 65535 ∧ ∀ d ∈ e.distmb, d < 2 ^ 32

/-- The readings that NAV has taken, and those it still has to store, are distances of DIST_WIDTH. -/
def HostSide.Fits (k : HostSide) : Prop :=
  k.dr < 2 ^ 32 ∧ k.dl < 2 ^ 32 ∧ ∀ a ∈ k.nav, ∀ d ∈ a.reading, d < 2 ^ 32

theorem ovfOk_iff : ovfOk s = true ↔ s.ecu.ovf < 65535 := decide_eq_true_iff

theorem distanceFits_iff {d : Nat} : distanceFits d = true ↔ d < 2 ^ 32 := decide_eq_true_iff

theorem widthsOk_iff : widthsOk s = true ↔ s.ecu.Fits ∧ (∀ v ∈ s.res, v < 2 ^ 32) ∧ s.host.Fits := by
  simp only [widthsOk, Bool.and_eq_true, ovfOk_iff, Option.all_eq_true, distanceFits_iff, decide_eq_true_eq, List.all_eq_true,
    Ecu.Fits, HostSide.Fits, and_assoc, Option.mem_def]

theorem EcuWrite.fits {i : Instr} {e : Ecu} (h : EcuWrite s i e) (hf : s.ecu.Fits) : e.Fits := by
  obtain ⟨hovf, hdist⟩ := hf
  cases h with
  | tick n => unfold Ecu.afterTicks; split <;> exact ⟨hovf, hdist⟩
  | overflow => exact ⟨ovfNext_default_lt hovf, hdist⟩
  | captureIdle => exact ⟨Nat.zero_lt_succ _, hdist⟩
  | captureDone _ _ d hd => exact ⟨hovf, by rintro _ ⟨⟩; exact hd⟩
  | empty => exact ⟨hovf, nofun⟩
  | _ => exact ⟨hovf, hdist⟩

/-! ### The invariant of the block -/

/-- The invariant but for what NAV holds (R41 to R43, R37, R241, R22, R32, R49). -/
structure BlockOk (s : State) : Prop where
  arbiter : arbiterOk s = true
  encoder : s.mpe.Ok
  err : s.err.toNat ≤ 8
  ecu : s.ecu.Fits
  res : ∀ v ∈ s.res, v < 2 ^ 32

theorem stateOk_iff : stateOk s = true ↔ BlockOk s ∧ s.host.Fits := by
  simp only [stateOk, Bool.and_eq_true, encoderOk_iff, errOk, decide_eq_true_eq, widthsOk_iff]
  exact ⟨fun ⟨⟨⟨ha, he⟩, hr⟩, hc, hres, hh⟩ => ⟨⟨ha, he, hr, hc, hres⟩, hh⟩,
    fun ⟨⟨ha, he, hr, hc, hres⟩, hh⟩ => ⟨⟨⟨ha, he⟩, hr⟩, hc, hres, hh⟩⟩

/-- The host record is none of the block's. -/
theorem BlockOk.withHost (h : BlockOk s) (k : HostSide) : BlockOk { s with host := k } :=
  ⟨h.arbiter, h.encoder, h.err, h.ecu, h.res⟩

/-- The port is none of the block's. -/
theorem stateOk_withStream (l : List PortItem) : stateOk { s with stream := l } = stateOk s := rfl

theorem refusalCode_range (c : RefusalCode) : 1 ≤ (refusalCode c).toNat ∧ (refusalCode c).toNat ≤ 8 := by
  cases c <;> decide

theorem BlockOk.refuse (h : BlockOk s) (c : RefusalCode) : BlockOk (refuse c s) := by
  refine ⟨h.arbiter, h.encoder, ?_, h.ecu, h.res⟩
  rw [refuse_err]
  split
  · exact (refusalCode_range c).2
  · exact h.err

theorem Effect.blockOk {i : Instr} (h : Effect s t i) (hs : BlockOk s) : BlockOk t where
  arbiter := h.arbiterOk hs.arbiter
  encoder := h.mpeOk hs.encoder
  err := by rw [h.frame.err]; exact hs.err
  ecu := h.ecuWrite.fits hs.ecu
  res := by
    rcases h.frame.res with hr | hr | ⟨v, hr⟩ <;> rw [hr]
    · exact hs.res
    · exact hs.ecu.2
    · rintro _ ⟨⟩; exact v.isLt

theorem exec_stateOk {i : Instr} (h : exec i s = .next t) (hs : stateOk s = true) : stateOk t = true := by
  obtain ⟨hblock, hhost⟩ := stateOk_iff.1 hs
  rcases exec_next h with ⟨c, rfl⟩ | h
  · exact stateOk_iff.2 ⟨hblock.refuse c, hhost⟩
  · refine stateOk_iff.2 ⟨h.blockOk hblock, ?_⟩
    obtain ⟨hdr, hdl, hnav⟩ := h.frame.navsOwn
    rwa [HostSide.Fits, hdr, hdl, hnav]

theorem navTurnStep_blockOk (h : navTurnStep s = .next t) (hs : BlockOk s) : BlockOk t := by
  rcases navTurnStep_next h with ⟨c, rfl⟩ | ⟨k, rfl⟩ | ⟨i, u, k, -, hu, rfl⟩
  · exact hs.refuse c
  · exact hs.withHost k
  · exact (hu.blockOk hs).withHost k

/-- NAV stores only readings it held, and takes new ones from RES (R223 to R225). -/
theorem navTurnStep_hostFits (h : navTurnStep s = .next t) (hres : ∀ v ∈ s.res, v < 2 ^ 32) (hs : s.host.Fits) :
    t.host.Fits := by
  obtain ⟨hdr, hdl, hnav⟩ := hs
  obtain ⟨hdr', hdl', hnav'⟩ := navTurnStep_readings h
  refine ⟨?_, ?_, fun a ha d hd => ?_⟩
  · rcases hdr' with heq | ⟨a, ha, hread⟩
    · rwa [heq]
    · exact hnav a ha _ hread
  · rcases hdl' with heq | ⟨a, ha, hread⟩
    · rwa [heq]
    · exact hnav a ha _ hread
  · rcases hnav' a ha with hold | hnone | hnew
    · exact hnav a hold d hd
    · rw [hnone] at hd; cases hd
    · exact hres d (hnew ▸ hd)

/-- Settles O51: each part is kept by every operation's effect (`Effect.blockOk`), a refusal writes ERR only, and NAV's turn is one of
these with a write of its own place and readings. -/
theorem everyStepKeepsTheInvariant : Obligations.EveryStepKeepsTheInvariant := by
  intro s t hs h
  rcases step_next h with rfl | ⟨x, rest, -, h⟩
  · exact hs
  have htaken : stateOk { s with stream := rest } = true := (stateOk_withStream rest).trans hs
  obtain ⟨hblock, hhost⟩ := stateOk_iff.1 htaken
  rcases h with ⟨c, rfl⟩ | ⟨i, h⟩ | h
  · exact stateOk_iff.2 ⟨hblock.refuse c, hhost⟩
  · exact exec_stateOk h htaken
  · exact stateOk_iff.2 ⟨navTurnStep_blockOk h hblock, navTurnStep_hostFits h hblock.res hhost⟩

end Sys2Proof.Machine
end

section
/-! PROOF. The pins and their record (10_state.md R33, R36, R45), and the error code (R48; 60_exceptions.md R240). -/

namespace Sys2Proof.Machine

variable {s t : State}

/-! ### Who writes a pin (R33, R36, R45) -/

/-- TRIGPIN is the emitter's (R122 to R124). -/
theorem EcuWrite.trigPin {i : Instr} {e : Ecu} (h : EcuWrite s i e) (hi : i ≠ .trigStep) : e.trigPin = s.ecu.trigPin := by
  cases h with
  | tick n => unfold Ecu.afterTicks; split <;> rfl
  | pulseStart | pulseEdge => exact absurd rfl hi
  | _ => rfl

/-- The record of the pins is extended, and nothing of it is lost (R45). -/
theorem emitterStep_pinTrace {P : Params} (h : emitterStep s P = .ok t) : s.pinTrace <+: t.pinTrace := by
  rcases emitterStep_ok_iff.1 h with ⟨-, h⟩ | ⟨-, -, -, ⟨-, rfl⟩ | ⟨-, -, rfl⟩ | ⟨-, -, h⟩⟩
  · obtain ⟨-, rfl⟩ := startPulse_ok_iff.1 h; exact List.prefix_rfl
  · exact List.prefix_append _ _
  · exact List.prefix_append _ _
  · obtain ⟨_, _, -, -, -, rfl⟩ := leave_ok_iff.1 h; exact List.prefix_append _ _

theorem encoderStep_pinTrace {P : Params} (h : encoderStep s P = .ok t) : s.pinTrace <+: t.pinTrace := by
  obtain ⟨-, -, -, ⟨-, h⟩ | ⟨-, h⟩⟩ := encoderStep_ok_iff.1 h
  · obtain ⟨-, rfl⟩ := endHold_ok_iff.1 h; exact List.prefix_rfl
  · obtain ⟨-, ⟨-, rfl⟩ | ⟨-, rfl⟩⟩ := serialStep_ok_iff.1 h <;> simp

/-- The levels of the encoder's pins are the same in both states. -/
def SameEncoderPins (s t : State) : Prop :=
  t.mpe.data = s.mpe.data ∧ t.mpe.clk = s.mpe.clk ∧ t.mpe.latch = s.mpe.latch

theorem SameEncoderPins.of_mpe (h : t.mpe = s.mpe) : SameEncoderPins s t := by
  rw [SameEncoderPins, h]; exact ⟨rfl, rfl, rfl⟩

theorem Effect.encoderPins {i : Instr} (h : Effect s t i) (hi : i ≠ .encStep) : SameEncoderPins s t := by
  cases h.touches with
  | emitter h => exact .of_mpe (emitterStep_mpe h)
  | serializer => exact absurd rfl hi
  | acceptance _ _ _ h => obtain ⟨-, -, rfl⟩ := acceptOp_ok_iff.1 h; exact ⟨rfl, rfl, rfl⟩
  | lock _ _ h => obtain ⟨-, -, rfl⟩ := acquire_ok_iff.1 h; exact .of_mpe rfl
  | unlock _ _ h => obtain ⟨_, _, -, -, -, rfl⟩ := release_ok_iff.1 h; exact .of_mpe rfl
  | none _ _ h => exact .of_mpe h.mpe

theorem Effect.pinTrace_eq {i : Instr} (h : Effect s t i) (htrig : i ≠ .trigStep) (henc : i ≠ .encStep) :
    t.pinTrace = s.pinTrace := by
  cases h.touches with
  | emitter => exact absurd rfl htrig
  | serializer => exact absurd rfl henc
  | acceptance _ _ _ h => obtain ⟨-, -, rfl⟩ := acceptOp_ok_iff.1 h; rfl
  | lock _ _ h => obtain ⟨-, -, rfl⟩ := acquire_ok_iff.1 h; rfl
  | unlock _ _ h => obtain ⟨_, _, -, -, -, rfl⟩ := release_ok_iff.1 h; rfl
  | none _ _ h => exact h.pinTrace

theorem Effect.pinTrace_grows {i : Instr} (h : Effect s t i) : s.pinTrace <+: t.pinTrace := by
  by_cases htrig : i = .trigStep
  · subst htrig; exact emitterStep_pinTrace h
  by_cases henc : i = .encStep
  · subst henc; exact encoderStep_pinTrace h
  · rw [h.pinTrace_eq htrig henc]

/-- NAV issues an `ENC.STEP` only where its place says so (R222, R225). -/
theorem navInstr_navNext_ne_encStep {i : Instr} (h : navInstr (navNext s).1 = some i)
    (hn : s.host.nav.head? ≠ some .encRun) : i ≠ .encStep := by
  rintro rfl
  unfold navNext at h
  cases hnav : s.host.nav with
  | nil => rw [hnav] at h; cases h
  | cons a rest =>
    rw [hnav] at h hn
    cases a with
    | encRun => exact hn rfl
    | exec c => cases c <;> cases h
    | _ => cases h

theorem navInstr_ne_trigStep {a : NavAct} {i : Instr} (h : navInstr a = some i) : i ≠ .trigStep := by
  rintro rfl; cases navInstr_issuedByNav h

/-- Settles O59: every effect extends the record of the pins; only `TRIG.STEP` and `ENC.STEP` write a pin, and of these NAV issues
the second at its ENC.STEPs. -/
theorem onlyStepsOfTheDriversWritePins : Obligations.OnlyStepsOfTheDriversWritePins := by
  refine ⟨fun i s t h => ?_, fun s t h => ?_⟩
  · rcases exec_next h with ⟨c, rfl⟩ | h
    · exact ⟨List.prefix_rfl, fun _ => rfl, fun _ => ⟨rfl, rfl, rfl⟩, fun _ _ => rfl⟩
    · exact ⟨h.pinTrace_grows, h.ecuWrite.trigPin, h.encoderPins, h.pinTrace_eq⟩
  · rcases navTurnStep_next h with ⟨c, rfl⟩ | ⟨k, rfl⟩ | ⟨i, u, k, hi, hu, rfl⟩
    · exact ⟨List.prefix_rfl, rfl, fun _ => ⟨rfl, rfl, rfl, rfl⟩⟩
    · exact ⟨List.prefix_rfl, rfl, fun _ => ⟨rfl, rfl, rfl, rfl⟩⟩
    · have htrig := navInstr_ne_trigStep hi
      refine ⟨hu.pinTrace_grows, hu.ecuWrite.trigPin htrig, fun hn => ?_⟩
      have henc := navInstr_navNext_ne_encStep hi hn
      obtain ⟨hdata, hclk, hlatch⟩ := hu.encoderPins henc
      exact ⟨hdata, hclk, hlatch, hu.pinTrace_eq htrig henc⟩

/-! ### The error code (R48, R240) -/

/-- A step changes ERR by a refusal only, and what is presented is taken either way (R240). -/
theorem step_err (h : step s = .next t) :
    t.err = s.err ∨ ∃ x rest c, s.stream = x :: rest ∧ t = refuse c { s with stream := rest } := by
  rcases step_next h with rfl | ⟨x, rest, hx, ⟨c, h⟩ | ⟨i, h⟩ | h⟩
  · exact .inl rfl
  · exact .inr ⟨x, rest, c, hx, h⟩
  · rcases exec_next h with ⟨c, h⟩ | h
    · exact .inr ⟨x, rest, c, hx, h⟩
    · exact .inl h.frame.err
  · rcases navTurnStep_next h with ⟨c, h⟩ | ⟨k, rfl⟩ | ⟨i, u, k, -, hu, rfl⟩
    · exact .inr ⟨x, rest, c, hx, h⟩
    · exact .inl rfl
    · exact .inl hu.frame.err

/-- Settles O57: of a state whose ERR is not 0 a refusal changes nothing, and of one whose ERR is 0 it writes ERR only. -/
theorem errorCodeIsSticky : Obligations.ErrorCodeIsSticky := by
  intro s t h
  rcases step_err h with hkept | ⟨x, rest, c, hx, rfl⟩
  · exact ⟨fun _ => hkept, fun hne => absurd hkept hne⟩
  · by_cases hzero : s.err = 0
    · have hcode : (refuse c { s with stream := rest }).err = refusalCode c := if_pos hzero
      obtain ⟨hlow, hhigh⟩ := refusalCode_range c
      rw [hcode]
      exact ⟨absurd hzero, fun _ => ⟨hzero, hlow, hhigh, x, rest, hx, by rw [refuse_eq, hcode]⟩⟩
    · have hkept : (refuse c { s with stream := rest }).err = s.err := if_neg hzero
      exact ⟨fun _ => hkept, fun hne => absurd hkept hne⟩

end Sys2Proof.Machine
end

section
/-! PROOF. The driver chip after a frame (10_state.md R40, 41_encoder.md R165): the shift register over a list of bits. -/

namespace Sys2Proof.Machine

/-- The three pin writes of one bit (R162). -/
def bitWrites (b : Bool) : List (Pin × Bool) := [(.data, b), (.clk, true), (.clk, false)]

/-- The DATA levels of a frame, first bit sent first: the bits of the pattern inverted, P[7] first (R92, R162). -/
def frameBits (p : Byte) : List Bool := (List.range 8).map fun k => !p.getLsbD (7 - k)

theorem frameWrites_eq (p : Byte) :
    frameWrites p = (.latch, false) :: (frameBits p).flatMap bitWrites ++ [(.latch, true)] := rfl

theorem frameBits_reverse (p : Byte) : (frameBits p).reverse = (List.range 8).map fun k => !p.getLsbD k := rfl

namespace DriverChip

variable (d : DriverChip)

theorem seeAll_cons (x : Pin × Bool) (l : List (Pin × Bool)) : d.seeAll (x :: l) = (d.see x.1 x.2).seeAll l := rfl

theorem seeAll_append (l k : List (Pin × Bool)) : d.seeAll (l ++ k) = (d.seeAll l).seeAll k := List.foldl_append

/-- A falling or low LATCH transfers nothing. -/
theorem see_latch_low : d.see .latch false = { d with latch := false } := by simp [see]

/-- A rising LATCH shows the shift register (R40). -/
theorem see_latch_rising (h : d.latch = false) : d.see .latch true = { d with latch := true, out := d.sr } := by simp [see, h]

/-- One bit moves the register by one stage (R40). -/
theorem seeAll_bitWrites (b : Bool) (h : d.clk = false) :
    d.seeAll (bitWrites b) = { d with data := b, sr := b :: d.sr.dropLast } := by
  simp [seeAll, bitWrites, see, h]

/-- After a list of bits the register holds the latest of them, the last one at stage 0; LATCH is as before. -/
theorem seeAll_bits {n : Nat} (l : List Bool) (hclk : d.clk = false) (hlen : d.sr.length = n + 1) :
    (d.seeAll (l.flatMap bitWrites)).sr = (l.reverse ++ d.sr).take (n + 1) ∧
      (d.seeAll (l.flatMap bitWrites)).latch = d.latch := by
  induction l generalizing d with
  | nil => exact ⟨(List.take_of_length_le hlen.le).symm, rfl⟩
  | cons b l ih =>
    rw [List.flatMap_cons, seeAll_append, seeAll_bitWrites d b hclk]
    have hstage : b :: d.sr.dropLast = (b :: d.sr).take (n + 1) := by
      rw [List.take_succ_cons, List.dropLast_eq_take, hlen, Nat.add_sub_cancel]
    obtain ⟨hsr, hlatch⟩ := ih { d with data := b, sr := b :: d.sr.dropLast } hclk (by simp [hlen])
    refine ⟨hsr.trans ?_, hlatch⟩
    calc (l.reverse ++ b :: d.sr.dropLast).take (n + 1)
        = (l.reverse ++ (b :: d.sr).take (n + 1)).take (n + 1) := by rw [hstage]
      _ = (l.reverse ++ b :: d.sr).take (n + 1) := by
        rw [List.take_append, List.take_append, List.take_take, min_eq_left (Nat.sub_le _ _)]
      _ = ((b :: l).reverse ++ d.sr).take (n + 1) := by simp

/-- After a frame the outputs are the bits of the frame, in the order of the pattern (R40, R165). -/
theorem seeAll_frameWrites_out (p : Byte) (hlen : d.sr.length = 8) (hclk : d.clk = false) :
    (d.seeAll (frameWrites p)).out = (List.range 8).map fun k => !p.getLsbD k := by
  rw [frameWrites_eq, List.cons_append, seeAll_cons, seeAll_append, see_latch_low]
  obtain ⟨hsr, hlatch⟩ := seeAll_bits { d with latch := false } (frameBits p) hclk hlen
  calc (seeAll _ [(.latch, true)]).out
      = (seeAll { d with latch := false } ((frameBits p).flatMap bitWrites)).sr :=
        congrArg DriverChip.out (see_latch_rising _ hlatch)
    _ = ((frameBits p).reverse ++ d.sr).take 8 := hsr
    _ = (List.range 8).map fun k => !p.getLsbD k := by rw [frameBits_reverse]; exact List.take_left' (by simp)

end DriverChip

/-- Settles O43: the frame shifts eight bits through eight stages, so nothing of what the chip held before is left. -/
theorem driverChipShowsThePattern : Obligations.DriverChipShowsThePattern := by
  intro p d hlen hclk
  have hout := d.seeAll_frameWrites_out p hlen hclk
  refine ⟨hout, fun k hk => ?_⟩
  simp [DriverChip.active, hout, hk]

end Sys2Proof.Machine
end

section
/-! PROOF. The enabling conditions of 10_state.md R37 and R44: which source is taken, when the emitter wakes, and what is left to
the owner of the encoder. -/

namespace Sys2Proof.Machine

variable {P : Params} {s : State}

/-! ### The services and the wake wait for higher sources (R44, R185) -/

theorem takeable_ovf_eq (s : State) : takeable s .ovf = contends s .ovf := Bool.eq_iff_iff.2 takeable_ovf_iff

/-- A source contends and no higher one is taken: the order of R185 from the top (R180). -/
theorem takeable_cap_iff_pending :
    takeable s .cap = true ↔ s.ecu.capf = true ∧ s.pcl.epri < 4 ∧ takeable s .ovf = false := by
  rw [takeable_cap_iff, contends_iff, takeable_ovf_eq, and_assoc]; rfl

/-- With no overflow service to take, the capture source contends exactly when it is taken. -/
theorem takeable_cap_eq (h : takeable s .ovf = false) : takeable s .cap = contends s .cap := by
  rw [Bool.eq_iff_iff, takeable_cap_iff, ← takeable_ovf_eq]
  exact and_iff_left h

theorem takeable_uart_iff_pending :
    takeable s .uart = true ↔
      s.host.rxf = true ∧ s.host.rxie = true ∧ s.pcl.epri < 3 ∧ takeable s .ovf = false ∧ takeable s .cap = false := by
  have hpending : pending s .uart = true ↔ s.host.rxf = true ∧ s.host.rxie = true := by simp [pending]
  rw [takeable_uart_iff, contends_iff, hpending, ← takeable_ovf_eq, and_assoc, and_assoc]
  refine and_congr_right fun _ => and_congr_right fun _ => and_congr_right fun _ => and_congr_right fun hovf => ?_
  rw [takeable_cap_eq hovf]

theorem takeable_uart_eq (hovf : takeable s .ovf = false) (hcap : takeable s .cap = false) :
    takeable s .uart = contends s .uart := by
  rw [Bool.eq_iff_iff, takeable_uart_iff, ← takeable_ovf_eq, ← takeable_cap_eq hovf]
  exact and_iff_left ⟨hovf, hcap⟩

/-- The capture service in one step is not enabled while its source is not taken (R116). -/
theorem serviceCapture_not_takeable (hP : P.captureSplit = false) (h : takeable s .cap P = false) :
    serviceCapture P s = .error .notEnabled := by
  rw [serviceCapture, hP, if_neg Bool.false_ne_true, serve_not_takeable h]

/-- Settles O16: the two sources by `takeable_cap_iff` and `takeable_uart_iff`; a service of a source that is not takeable is not
enabled. -/
theorem servicesWaitForHigherInterrupts : Obligations.ServicesWaitForHigherInterrupts := fun _ =>
  ⟨takeable_cap_iff_pending, fun h => conclude_notEnabled (serviceCapture_not_takeable rfl h),
    takeable_uart_iff_pending, fun h => conclude_notEnabled (serve_not_takeable h)⟩

/-- The sleeping emitter is taken after its deadline (R44, R125). -/
theorem takeable_trig_iff_of_sleep (hst : s.ecu.trigSt = .sleep) :
    takeable s .trig = true ↔ s.ecu.trigDl ≤ s.now ∧ s.pcl.epri < 2 ∧
      takeable s .ovf = false ∧ takeable s .cap = false ∧ takeable s .uart = false := by
  have hpending : pending s .trig = true ↔ s.ecu.trigDl ≤ s.now := by simp [pending, hst]
  rw [takeable_trig_iff, contends_iff, hpending, ← takeable_ovf_eq, and_assoc]
  refine and_congr_right fun _ => and_congr_right fun _ => and_congr_right fun hovf => ?_
  rw [← takeable_cap_eq hovf]
  exact and_congr_right fun hcap => by rw [takeable_uart_eq hovf hcap]

theorem wakeOp_notEnabled (h : ¬ (s.ecu.trigSt = .sleep ∧ takeable s .trig P = true)) :
    wakeOp s P = .error .notEnabled := by
  unfold wakeOp
  split
  · rename_i hst; exact serve_not_takeable (Bool.eq_false_iff.2 fun ht => h ⟨hst, ht⟩)
  · rfl

/-- Settles O29: the wake is the service of the sleeping emitter (`wakeOp_ok_iff`), taken as `takeable_trig_iff_of_sleep` says. -/
theorem triggerWakeReturnsToOff : Obligations.TriggerWakeReturnsToOff := by
  intro s
  refine ⟨fun hst hdl hepri hovf hcap huart hfree => ?_, fun hne => ?_⟩
  · have ht := (takeable_trig_iff_of_sleep hst).2 ⟨hdl, hepri, hovf, hcap, huart⟩
    exact conclude_next_iff.2 (.inl (wakeOp_ok_iff.2 ⟨hst, ht, hfree, rfl⟩))
  · refine conclude_notEnabled (wakeOp_notEnabled fun ⟨hst, ht⟩ => hne ⟨hst, ?_⟩)
    exact (takeable_trig_iff_of_sleep hst).1 ht

/-! ### The owner of an operation in progress is blocked (R37, R158)

`asRunning_blocked` is the lemma for the operations that are an `asRunning`. -/

theorem ownerBlocked_of_busy (hbusy : s.mpe.busy = true) (howner : s.mpe.owner = run s) : ownerBlocked s = true := by
  simp [ownerBlocked, hbusy, howner]

theorem emitterStep_blocked (hrun : s.ecu.trigSt.isRun = true) (h : ownerBlocked s = true) :
    emitterStep s P = .error .notEnabled := by
  have microStep : ∀ dl k, asEmitter s dl k P = .error .notEnabled := by
    intro dl k; rw [asEmitter, asRunning_blocked h, ite_self]
  unfold emitterStep
  cases hst : s.ecu.trigSt with
  | run1 | run2 | run3 => exact microStep _ _
  | off | pending | sleep => simp [hst, TrigState.isRun] at hrun

/-- Of NAV's actions only its ENC.STEPs and an EXEC are not held by the operation in progress. -/
theorem navDo_blocked {a : NavAct} (rest : List NavAct) (henc : a ≠ .encRun) (hexec : ∀ c, a ≠ .exec c)
    (h : ownerBlocked s = true) : navDo P a rest s = .error .notEnabled := by
  have guarded : ∀ k, asRunning s k P = .error .notEnabled := fun _ => asRunning_blocked h
  have issued : ∀ k, navIssue rest (asRunning s k P) = .error .notEnabled := by
    intro k; rw [guarded]; exact navIssue_error rest _
  cases a with
  | encRun => exact absurd rfl henc
  | exec c => exact absurd rfl (hexec c)
  | lock | unlock | request | distRd | distClr => exact issued _
  | readMode | readCmd | clearCmd | takeReading | setDr | setDl | scanner | delay | setScan | setDeb | decideTurn =>
    exact guarded _

theorem navStep_blocked (henc : (navNext s).1 ≠ .encRun) (hexec : ∀ c, (navNext s).1 ≠ .exec c)
    (h : ownerBlocked s = true) : navStep P s = .error .notEnabled := by
  rw [navStep, navDo_blocked _ henc hexec h, ite_self]

/-- Settles O37: `ownerBlocked` is part of the general condition of each of these operations and of NAV's actions. -/
theorem blockedOwnerHasOnlyEncoderSteps : Obligations.BlockedOwnerHasOnlyEncoderSteps := by
  intro s m k r hbusy howner hr
  have h := ownerBlocked_of_busy hbusy howner
  obtain ⟨q, hq⟩ := resourceOfId_of_le hr
  have guarded : ∀ u, conclude s (asRunning s u) = .next (refusedWith 2 s) := fun _ =>
    conclude_notEnabled (asRunning_blocked h)
  have onId : ∀ f, f q = .error .notEnabled → conclude s (onResourceId r f) = .next (refusedWith 2 s) := fun _ hf =>
    conclude_notEnabled ((onResourceId_eq hq).trans hf)
  refine ⟨?_, fun hrun => conclude_notEnabled (emitterStep_blocked hrun h), fun _ hnav => ?_, fun a rest _ hnav henc hexec => ?_⟩
  · simp only [List.forall_mem_cons]
    exact ⟨guarded _, guarded _, guarded _, guarded _, guarded _, guarded _, guarded _, guarded _, guarded _,
      onId _ (asRunning_blocked h), onId _ (asRunning_blocked h), List.forall_mem_nil _⟩
  · refine conclude_notEnabled (navStep_blocked ?_ ?_ h) <;> simp [navNext, hnav]
  · have hnext : (navNext s).1 = a := by rw [navNext, hnav]
    exact conclude_notEnabled (navStep_blocked (hnext ▸ henc) (hnext ▸ hexec) h)

end Sys2Proof.Machine
end

section
/-! PROOF. An operation is read back from its word (30_encoding.md R81 to R85), and from that word's four bytes in memory
(20_memory.md R65). -/

namespace Sys2Proof

/-! ### The decoder on a word put together from its fields, one equation per unit (R81, R82) -/

variable (fn : BitVec 4) (a : BitVec 24)

theorem decodeWord_pack_env : decodeWord (pack 0 fn a) = decodeEnv fn a := by simp [decodeWord]

theorem decodeWord_pack_ecu : decodeWord (pack 1 fn a) = decodeEcu fn a := by simp [decodeWord]

theorem decodeWord_pack_mpe : decodeWord (pack 2 fn a) = decodeMpe fn a := by simp [decodeWord]

theorem decodeWord_pack_pcl : decodeWord (pack 3 fn a) = decodePcl fn a := by simp [decodeWord]

theorem decodeWord_pack_host : decodeWord (pack 4 fn a) = decodeHost fn a := by simp [decodeWord]

/-! ### The operand checks accept what the encoder writes (R83, R85) -/

theorem argLow_setWidth {k : Nat} (hk : k ≤ 24) (b : BitVec k) (f : BitVec k → Except DecodeError Instr) :
    argLow k (b.setWidth 24) f = f b := by
  have hfits : (b.setWidth 24).toNat < 2 ^ k := by
    rw [BitVec.toNat_setWidth_of_le hk]
    exact b.isLt
  rw [argLow, if_pos hfits, BitVec.setWidth_setWidth_of_le b hk, BitVec.setWidth_eq]

theorem decodeResource_of_ok {r : BitVec 3} (h : resourceIdOk r = true) (i : Instr) : decodeResource r i = .ok i :=
  if_pos h

/-! ### The operation from its word and from its bytes -/

/-- The cases follow R85 unit by unit: the operations without an operand field, then each one with it. -/
theorem decodeWord_encode {i : Instr} (h : i.wellFormed = true) : decodeWord (encode i) = .ok i := by
  cases i with
  | tick | echoR | echoF => exact decodeWord_pack_env _ _
  | rx b => exact (decodeWord_pack_env _ _).trans (argLow_setWidth (by decide) b (.ok <| .rx ·))
  | svcOvf | svcCap | trigReq | trigStep | trigWake | distRd | distClr | cntRd | ctlRd | flgRd =>
    exact decodeWord_pack_ecu _ _
  | ctlSet m => exact (decodeWord_pack_ecu _ _).trans (argLow_setWidth (by decide) m (.ok <| .ctlSet ·))
  | ctlClr m => exact (decodeWord_pack_ecu _ _).trans (argLow_setWidth (by decide) m (.ok <| .ctlClr ·))
  | flgClr m => exact (decodeWord_pack_ecu _ _).trans (argLow_setWidth (by decide) m (.ok <| .flgClr ·))
  | execFwd | execRev | execRt | execLt | execBrk | execStp | execDnt | encStep => exact decodeWord_pack_mpe _ _
  | shift p => exact (decodeWord_pack_mpe _ _).trans (argLow_setWidth (by decide) p (.ok <| .shift ·))
  | lock r => exact (decodeWord_pack_pcl _ _).trans <|
      (argLow_setWidth (by decide) r fun r => decodeResource r (.lock r)).trans (decodeResource_of_ok h _)
  | unlock r => exact (decodeWord_pack_pcl _ _).trans <|
      (argLow_setWidth (by decide) r fun r => decodeResource r (.unlock r)).trans (decodeResource_of_ok h _)
  | svcRx => exact decodeWord_pack_host _ _

/-- Stored bytes read as the word they hold, and the bytes after the word are left. -/
theorem decode_bytesOfWord_append {w : Word} {i : Instr} (h : decodeWord w = .ok i) (rest : List Byte) :
    decode (bytesOfWord w ++ rest) = .ok (i, rest) := by
  simp [bytesOfWord, decode, h]

/-- Settles O5: the four bytes give the operation's word back, and its word gives the operation. -/
theorem storedOperationReadsBack : Obligations.StoredOperationReadsBack := fun _ rest h =>
  decode_bytesOfWord_append (decodeWord_encode h) rest

end Sys2Proof
end

section
/-! PROOF. The decoder and the encoder agree (30_encoding.md R81 to R85): an operation is read from its own word only, and the words
that hold none are the reserved ones (R100). -/

namespace Sys2Proof

open Machine

variable {u fn : BitVec 4} {a : BitVec 24} {i j : Instr} {w : Word}

/-! ### The one word of an operation (R82) -/

/-- `i` is an operation of R80, and `w` is its word. -/
def IsWordOf (w : Word) (i : Instr) : Prop := i.wellFormed = true ∧ encode i = w

theorem eq_ofNat_of_toNat_eq {n k : Nat} {x : BitVec n} (h : x.toNat = k) : x = BitVec.ofNat n k := by
  rw [← h, BitVec.ofNat_toNat, BitVec.setWidth_eq]

theorem argNone_isWordOf (hi : IsWordOf (pack u fn 0) i) (h : argNone a i = .ok j) : IsWordOf (pack u fn a) j := by
  obtain ⟨rfl, rfl⟩ := argNone_ok_iff.1 h
  exact hi

/-- The operand that is read fills the argument field, so that the word read is the word written. -/
theorem argLow_isWordOf {k : Nat} {f : BitVec k → Except DecodeError Instr}
    (hf : ∀ b j, f b = .ok j → IsWordOf (pack u fn (b.setWidth 24)) j) (h : argLow k a f = .ok j) :
    IsWordOf (pack u fn a) j := by
  obtain ⟨hfits, hj⟩ := argLow_ok_iff.1 h
  have hword := hf _ _ hj
  rwa [setWidth_setWidth_of_lt hfits] at hword

/-- The case of `argLow_isWordOf` in which every operand value is admitted. -/
theorem argLow_ok_isWordOf {k : Nat} {f : BitVec k → Instr} (hf : ∀ b, IsWordOf (pack u fn (b.setWidth 24)) (f b))
    (h : argLow k a (fun b => .ok (f b)) = .ok j) : IsWordOf (pack u fn a) j :=
  argLow_isWordOf (fun b j hb => by obtain rfl := Except.ok.inj hb; exact hf b) h

theorem decodeResource_ok_iff {r : BitVec 3} : decodeResource r i = .ok j ↔ resourceIdOk r = true ∧ i = j := by
  unfold decodeResource; split <;> simp_all

/-- The codes of R91: the operation that is read encodes the code it was read from. -/
theorem decodeCommand_isWordOf {c : BitVec 3} (h : decodeCommand c = .ok i) : IsWordOf (pack 2 0 (c.setWidth 24)) i := by
  unfold decodeCommand at h
  split at h <;> rename_i hc
  case h_8 => cases h
  all_goals
    obtain rfl := eq_ofNat_of_toNat_eq hc
    obtain rfl := Except.ok.inj h
    exact ⟨rfl, rfl⟩

theorem decodeEnv_isWordOf (h : decodeEnv fn a = .ok i) : IsWordOf (pack 0 fn a) i := by
  unfold decodeEnv at h
  split at h <;> rename_i hfn
  case h_5 => cases h
  all_goals obtain rfl := eq_ofNat_of_toNat_eq hfn
  case h_1 => obtain rfl := Except.ok.inj h; exact ⟨rfl, rfl⟩
  case h_2 | h_3 => exact argNone_isWordOf ⟨rfl, rfl⟩ h
  case h_4 => exact argLow_ok_isWordOf (fun _ => ⟨rfl, rfl⟩) h

theorem decodeEcu_isWordOf (h : decodeEcu fn a = .ok i) : IsWordOf (pack 1 fn a) i := by
  unfold decodeEcu at h
  split at h <;> rename_i hfn
  case h_14 => cases h
  all_goals obtain rfl := eq_ofNat_of_toNat_eq hfn
  case h_8 | h_9 | h_10 => exact argLow_ok_isWordOf (fun _ => ⟨rfl, rfl⟩) h
  all_goals exact argNone_isWordOf ⟨rfl, rfl⟩ h

theorem decodeMpe_isWordOf (h : decodeMpe fn a = .ok i) : IsWordOf (pack 2 fn a) i := by
  unfold decodeMpe at h
  split at h <;> rename_i hfn
  case h_4 => cases h
  all_goals obtain rfl := eq_ofNat_of_toNat_eq hfn
  case h_1 => exact argLow_isWordOf (fun _ _ => decodeCommand_isWordOf) h
  case h_2 => exact argLow_ok_isWordOf (fun _ => ⟨rfl, rfl⟩) h
  case h_3 => exact argNone_isWordOf ⟨rfl, rfl⟩ h

/-- The check of the resource id is the one condition of `Instr.wellFormed`. -/
theorem decodePcl_isWordOf (h : decodePcl fn a = .ok i) : IsWordOf (pack 3 fn a) i := by
  unfold decodePcl at h
  split at h <;> rename_i hfn
  case h_3 => cases h
  all_goals
    obtain rfl := eq_ofNat_of_toNat_eq hfn
    refine argLow_isWordOf (fun r j hr => ?_) h
    obtain ⟨hid, rfl⟩ := decodeResource_ok_iff.1 hr
    exact ⟨hid, rfl⟩

theorem decodeHost_isWordOf (h : decodeHost fn a = .ok i) : IsWordOf (pack 4 fn a) i := by
  unfold decodeHost at h
  split at h <;> rename_i hfn
  · obtain rfl := eq_ofNat_of_toNat_eq hfn
    exact argNone_isWordOf ⟨rfl, rfl⟩ h
  · cases h

theorem decodeWord_isWordOf (h : decodeWord w = .ok i) : IsWordOf w i := by
  rw [← pack_fields w]
  unfold decodeWord at h
  split at h <;> rename_i hunit
  case h_6 => cases h
  all_goals rw [eq_ofNat_of_toNat_eq hunit]
  case h_1 => exact decodeEnv_isWordOf h
  case h_2 => exact decodeEcu_isWordOf h
  case h_3 => exact decodeMpe_isWordOf h
  case h_4 => exact decodePcl_isWordOf h
  case h_5 => exact decodeHost_isWordOf h

/-- The decoder reads exactly the operations that the encoder writes (R82, R85). -/
theorem decodeWord_ok_iff : decodeWord w = .ok i ↔ IsWordOf w i := by
  refine ⟨decodeWord_isWordOf, ?_⟩
  rintro ⟨hwf, rfl⟩
  exact decodeWord_encode hwf

/-- Settles O1 by `decodeWord_encode`, the case split over the rows of R85. -/
theorem decodeOfEncodeIsIdentity : Obligations.DecodeOfEncodeIsIdentity := fun _ => decodeWord_encode

/-- Settles O2, unit by unit from the operand checks of R83. -/
theorem encodeOfDecodeIsIdentity : Obligations.EncodeOfDecodeIsIdentity := fun _ _ => decodeWord_isWordOf

/-- Settles O3: each of the words written out is what the encoder writes for its operation. -/
theorem writtenOutWordsDecode : Obligations.WrittenOutWordsDecode := by
  have reads : ∀ i w, i.wellFormed = true → encode i = w → decodeWord w = .ok i := fun _ _ hwf hw =>
    decodeWord_ok_iff.2 ⟨hwf, hw⟩
  exact ⟨reads _ _ rfl rfl, reads _ _ rfl rfl, reads _ _ rfl rfl, reads _ _ rfl rfl, reads _ _ rfl rfl, reads _ _ rfl rfl,
    reads _ _ rfl rfl, reads _ _ rfl rfl, reads _ _ rfl rfl, reads _ _ rfl rfl, reads _ _ rfl rfl, reads _ _ rfl rfl⟩

/-! ### The words that hold an operation, by the numbers in their fields (R83, R85) -/

theorem argNone_readable_iff : (∃ j, argNone a i = .ok j) ↔ a.toNat = 0 := by
  simp [argNone_ok_iff, ← BitVec.toNat_inj]

theorem argLow_readable_iff {k : Nat} {f : BitVec k → Except DecodeError Instr} :
    (∃ j, argLow k a f = .ok j) ↔ a.toNat < 2 ^ k ∧ ∃ j, f (a.setWidth k) = .ok j := by
  simp [argLow_ok_iff]

theorem decodeResource_readable_iff {r : BitVec 3} : (∃ j, decodeResource r i = .ok j) ↔ r.toNat < 5 := by
  simp [decodeResource_ok_iff, resourceIdOk, Nat.lt_succ_iff]

theorem decodeCommand_readable_iff {c : BitVec 3} : (∃ j, decodeCommand c = .ok j) ↔ c.toNat < 7 := by
  unfold decodeCommand
  split
  case h_8 => simp_all only [imp_false, reduceCtorEq, exists_false, false_iff]; omega
  all_goals simp [*]

theorem decodeEnv_readable_iff : (∃ j, decodeEnv fn a = .ok j) ↔
    fn.toNat = 1 ∨ ((fn.toNat = 2 ∨ fn.toNat = 3) ∧ a.toNat = 0) ∨ (fn.toNat = 4 ∧ a.toNat < 256) := by
  unfold decodeEnv
  split <;> simp_all [argNone_readable_iff, argLow_readable_iff]

theorem decodeEcu_readable_iff : (∃ j, decodeEcu fn a = .ok j) ↔
    ((fn.toNat < 7 ∨ (9 < fn.toNat ∧ fn.toNat < 13)) ∧ a.toNat = 0) ∨
      ((fn.toNat = 7 ∨ fn.toNat = 8) ∧ a.toNat < 16) ∨ (fn.toNat = 9 ∧ a.toNat < 4) := by
  unfold decodeEcu
  split
  case h_14 => simp_all; omega
  all_goals simp [*, argNone_readable_iff, argLow_readable_iff]

theorem argLow_decodeCommand_readable_iff : (∃ j, argLow 3 a decodeCommand = .ok j) ↔ a.toNat < 7 := by
  rw [argLow_readable_iff, decodeCommand_readable_iff, BitVec.toNat_setWidth]
  omega

theorem argLow_decodeResource_readable_iff {f : BitVec 3 → Instr} :
    (∃ j, argLow 3 a (fun r => decodeResource r (f r)) = .ok j) ↔ a.toNat < 5 := by
  rw [argLow_readable_iff, decodeResource_readable_iff, BitVec.toNat_setWidth]
  omega

theorem decodeMpe_readable_iff : (∃ j, decodeMpe fn a = .ok j) ↔
    (fn.toNat = 0 ∧ a.toNat < 7) ∨ (fn.toNat = 1 ∧ a.toNat < 256) ∨ (fn.toNat = 2 ∧ a.toNat = 0) := by
  unfold decodeMpe
  split
  case h_1 => simp [*, argLow_decodeCommand_readable_iff]
  all_goals simp_all [argNone_readable_iff, argLow_readable_iff]

theorem decodePcl_readable_iff : (∃ j, decodePcl fn a = .ok j) ↔ (fn.toNat = 0 ∨ fn.toNat = 1) ∧ a.toNat < 5 := by
  unfold decodePcl
  split <;> simp_all [argLow_decodeResource_readable_iff]

theorem decodeHost_readable_iff : (∃ j, decodeHost fn a = .ok j) ↔ fn.toNat = 0 ∧ a.toNat = 0 := by
  unfold decodeHost
  split <;> simp_all [argNone_readable_iff]

/-! ### The reserved words (R100) -/

theorem unitField_toNat (w : Word) : (unitField w).toNat = wordUnit w := by
  have := w.isLt
  simp only [unitField, wordUnit, BitVec.extractLsb'_toNat, Nat.shiftRight_eq_div_pow]
  omega

theorem fnField_toNat (w : Word) : (fnField w).toNat = wordFn w := by
  simp only [fnField, wordFn, BitVec.extractLsb'_toNat, Nat.shiftRight_eq_div_pow]

theorem argField_toNat (w : Word) : (argField w).toNat = wordArg w := by
  simp only [argField, wordArg, BitVec.extractLsb'_toNat, Nat.shiftRight_zero]

/-- The list of R100 is complete and exact: unit by unit it is the complement of what the decoder reads. -/
theorem readable_iff_not_reserved (w : Word) : (∃ i, decodeWord w = .ok i) ↔ reservedWord w = false := by
  unfold decodeWord
  rw [unitField_toNat, ← Bool.not_eq_true]
  split
  case h_6 => simp_all [reservedWord]; omega
  all_goals
    simp only [decodeEnv_readable_iff, decodeEcu_readable_iff, decodeMpe_readable_iff, decodePcl_readable_iff,
      decodeHost_readable_iff, fnField_toNat, argField_toNat]
    simp [reservedWord, wordTakesNoOperand, *]
    omega

/-- A word that holds no operation is refused with ILLEGAL_OP (R100, R241). -/
theorem step_unreadable_word {s : State} {rest : List PortItem} (hs : s.stream = .word w :: rest)
    (hw : ∀ i, decodeWord w ≠ .ok i) : step s = .next (refusedWith 1 { s with stream := rest }) := by
  unfold step presented
  rw [hs]
  cases hd : decodeWord w with
  | ok i => exact absurd hd (hw i)
  | error e => simp only [hd]; rfl

/-- Settles O4: the list of R100 is the complement of what the decoder reads, and the step refuses what the decoder does not read. -/
theorem reservedWordsAreRefusedWithIllegalOp : Obligations.ReservedWordsAreRefusedWithIllegalOp := by
  intro w
  have hlist : reservedWord w = true ↔ ∀ i, decodeWord w ≠ .ok i := by
    rw [← not_exists, readable_iff_not_reserved, Bool.not_eq_false]
  exact ⟨hlist, fun _ _ hw hs => step_unreadable_word hs (hlist.1 hw)⟩

end Sys2Proof
end

section
/-! PROOF. What the encoder does (30_encoding.md R90 to R93; 41_encoder.md R151 to R163): the acceptance of a command, the micro-step
of each position, and the end of a serialization. -/

namespace Sys2Proof.Machine

variable {s : State} {m : MicroStep} {p : Fin 26} {k : Nat}

/-! ### Acceptance (R90, R151 to R158) -/

theorem commandOp_ok (c : Command) (hfree : heldOff s = false) (hidle : s.mpe.busy = false) :
    commandOp c s = .ok { s with mpe := { s.mpe with
      busy := true, owner := run s, cmd := some c, pat := pattern c, phase := .main, pos := 0 } } :=
  acceptOp_ok_iff.2 ⟨hfree, hidle, rfl⟩

/-- Settles O34: every `EXEC` is the acceptance of its command, with the pattern that R90 gives. -/
theorem commandIsAcceptedWithItsPattern : Obligations.CommandIsAcceptedWithItsPattern := by
  intro s hfree hidle
  have accepted : ∀ c, conclude s (commandOp c s) = .next { s with mpe := { s.mpe with
      busy := true, owner := run s, cmd := some c, pat := pattern c, phase := .main, pos := 0 } } := fun c => by
    rw [commandOp_ok c hfree hidle, conclude_ok]
  simp only [List.forall_mem_cons]
  exact ⟨accepted .forward, accepted .reverse, accepted .rightTurn, accepted .leftTurn, accepted .brake, accepted .stop,
    accepted .donut, List.forall_mem_nil _⟩

/-- Settles O44: the seven rows of R90 and R91, and the five frames of R93, each a finite table. -/
theorem commandTableIsTheSources : Obligations.CommandTableIsTheSources := ⟨by decide, by decide⟩

/-! ### The micro-step of each position (R162) -/

theorem microStep_zero (hp : p.val = 0) : microStep p = .latchLow := by
  rw [microStep, if_pos hp]

theorem microStep_data (hk : k < 8) (hp : p.val = 1 + 3 * k) : microStep p = .data k := by
  rcases microStep_cases p with ⟨h, -⟩ | ⟨-, -, hm⟩ | ⟨h, -⟩ | ⟨-, h, -⟩ | ⟨h, -⟩
  case inr.inl => rw [hm, hp]; congr; omega
  all_goals omega

theorem microStep_clkHigh (hp : p.val = 2 + 3 * k) : microStep p = .clkHigh := by
  rcases microStep_cases p with ⟨h, -⟩ | ⟨h, -⟩ | ⟨-, hm⟩ | ⟨-, h, -⟩ | ⟨h, -⟩
  case inr.inr.inl => exact hm
  all_goals omega

theorem microStep_clkLow (hk : k < 8) (hp : p.val = 3 + 3 * k) : microStep p = .clkLow := by
  rcases microStep_cases p with ⟨h, -⟩ | ⟨h, -⟩ | ⟨h, -⟩ | ⟨-, -, hm⟩ | ⟨h, -⟩
  case inr.inr.inr.inl => exact hm
  all_goals omega

theorem microStep_last (hp : p.val = 25) : microStep p = .latchHigh := by
  rw [show p = 25 from Fin.ext hp]; rfl

/-! ### The steps of the owner (R162, R163) -/

theorem exec_encStep_serial (hturn : encoderTurn s) (hphase : s.mpe.phase ≠ .hold) :
    exec .encStep s = conclude s (serialStep s) := by
  change conclude s (encoderStep s) = _
  rw [encoderStep, if_pos hturn]
  cases hp : s.mpe.phase with
  | hold => exact absurd hp hphase
  | main | zero => rfl

theorem exec_encStep_hold (hturn : encoderTurn s) (hphase : s.mpe.phase = .hold) :
    exec .encStep s = conclude s (endHold s) := by
  change conclude s (encoderStep s) = _
  rw [encoderStep, if_pos hturn, hphase]

/-- A micro-step before its deadline. -/
theorem serialStep_early (hm : microStep s.mpe.pos = m) (hwaits : microWaits m = true) (hdl : s.now < s.mpe.dl) :
    serialStep s = .error .notEnabled := by
  simp [serialStep, hm, hwaits, hdl]

/-- A micro-step that is not the last drives its pin and goes on to the next position. -/
theorem serialStep_next (hm : microStep s.mpe.pos = m) (hlast : s.mpe.pos.val ≠ 25)
    (hdl : microWaits m = true → s.mpe.dl ≤ s.now) :
    serialStep s = .ok { drivePin (microPin s.mpe.pat m).1 (microPin s.mpe.pat m).2 s with
      mpe := { (setLevel (microPin s.mpe.pat m).1 (microPin s.mpe.pat m).2 s).mpe with
        pos := s.mpe.pos + 1, dl := microDeadline s.now s.mpe.dl m } } := by
  subst hm
  exact serialStep_ok_iff.2 ⟨hdl, .inr ⟨hlast, rfl⟩⟩

theorem serialStep_end (hpos : s.mpe.pos.val = 25) (hdl : s.mpe.dl ≤ s.now) :
    serialStep s = .ok (endSerialization (drivePin .latch true s)) := by
  refine serialStep_ok_iff.2 ⟨fun _ => hdl, .inl ⟨hpos, ?_⟩⟩
  rw [microStep_last hpos]; rfl

theorem endSerialization_hold {h : Nat} (hphase : s.mpe.phase = .main) (hhold : s.mpe.cmd.bind holdMs = some h) :
    endSerialization s = { s with mpe := { s.mpe with phase := .hold, dl := s.now + ms h, pos := 0 } } := by
  rw [endSerialization, hphase, hhold]

theorem endSerialization_idle (h : s.mpe.phase ≠ .main ∨ s.mpe.cmd.bind holdMs = none) :
    endSerialization s = { s with mpe := { s.mpe with busy := false, cmd := none, pos := 0 } } := by
  unfold endSerialization
  split
  · rename_i hphase hhold; simp [hphase, hhold] at h
  · rfl

/-- Settles O38: position by position the micro-step of R162, and what `serialStep` does with it. -/
theorem serializerFollowsItsTable : Obligations.SerializerFollowsItsTable := by
  intro s hturn hphase
  rw [exec_encStep_serial hturn hphase]
  refine ⟨fun hp => ?_, fun k hk => ⟨fun hp hdl => ?_, fun hp hpos hdl => ?_, fun hp => ?_, fun hp => ?_⟩⟩
  · have hpos : s.mpe.pos = 0 := Fin.ext hp
    rw [serialStep_next (microStep_zero hp) (by omega) Bool.noConfusion, hpos]
    rfl
  · have hwait : microWaits (.data k) = true → s.mpe.dl ≤ s.now := fun hw =>
      hdl.resolve_left (Nat.ne_of_gt (of_decide_eq_true hw))
    rw [serialStep_next (microStep_data hk hp) (by omega) hwait]
    rfl
  · rw [serialStep_early (microStep_data hk hp) (decide_eq_true hpos) hdl]
    rfl
  · rw [serialStep_next (microStep_clkHigh hp) (by omega) Bool.noConfusion]
    rfl
  · rw [serialStep_next (microStep_clkLow hk hp) (by omega) Bool.noConfusion]
    rfl

/-- Settles O39: the last micro-step is LATCH high and `endSerialization`, and the step out of the hold is `endHold`. -/
theorem serializationEndsInHoldOrIdle : Obligations.SerializationEndsInHoldOrIdle := by
  intro s hturn
  refine ⟨fun hphase hpos hdl => ?_, fun hphase hpos hdl => ?_, fun hphase hdl => ?_, fun hphase hdl => ?_⟩
  · have hend : exec .encStep s = .next (endSerialization (drivePin .latch true s)) := by
      rw [exec_encStep_serial hturn hphase, serialStep_end hpos hdl, conclude_ok]
    refine ⟨fun c h hmain hcmd hc => ?_, fun hidle => ?_⟩
    · have held : ∀ x ∈ [(Command.rightTurn, 250), (.leftTurn, 250), (.brake, 200), (.donut, 2000)],
          holdMs x.1 = some x.2 := by decide
      have hhold : s.mpe.cmd.bind holdMs = some h := by rw [hcmd]; exact held _ hc
      rw [hend, endSerialization_hold (s := drivePin .latch true s) hmain hhold]
      rfl
    · have free : ∀ c ∈ [none, some .forward, some .reverse, some .stop], c.bind holdMs = none := by decide
      have hnone : s.mpe.phase ≠ .main ∨ s.mpe.cmd.bind holdMs = none :=
        hidle.imp (fun hzero => by rw [hzero]; decide) (free _)
      rw [hend, endSerialization_idle (s := drivePin .latch true s) hnone]
      rfl
  · rw [exec_encStep_serial hturn hphase, serialStep_early (microStep_last hpos) rfl hdl]
    rfl
  · rw [exec_encStep_hold hturn hphase, endHold_ok_iff.2 ⟨hdl, rfl⟩, conclude_ok]
  · rw [exec_encStep_hold hturn hphase, endHold, if_pos hdl]
    rfl

end Sys2Proof.Machine
end

section
/-! PROOF. The operations that change nothing (30_encoding.md R101), and the operator bytes (R94). -/

namespace Sys2Proof.Machine

variable {P : Params} {s : State}

/-! ### No time, and the zero masks (R101) -/

theorem Ecu.afterTicks_zero (e : Ecu) : e.afterTicks 0 = e := by
  have hlow : ¬ 65536 ≤ e.cnt.toNat + 0 := Nat.not_le.2 e.cnt.isLt
  rw [Ecu.afterTicks, if_neg hlow, BitVec.add_zero]
  exact ite_self _

theorem elapse_zero (s : State) : elapse 0 s = s := by
  rw [elapse, Ecu.afterTicks_zero, Nat.add_zero]

theorem maskSet_zero {n : Nat} (v : BitVec n) : maskSet v 0 = v := BitVec.or_zero

theorem maskClear_zero {n : Nat} (v : BitVec n) : maskClear v 0 = v := by
  simp [maskClear]

/-- Writing back what was read (R62). -/
theorem memWrite_memRead (r : Resource) (s : State) : memWrite (memRead r s) s = s := by
  cases r <;> rfl

theorem onShared_ok {r : Resource} {u : State} (hfree : agentFree s P) (hheld : holds s r) : onShared s r u P = .ok u :=
  onShared_ok_iff.2 ⟨hfree.1, hfree.2, hheld, rfl⟩

/-- The holder check of an agent that is free to act (R189). -/
theorem onShared_notHolder {r : Resource} {u : State} (hfree : agentFree s P) (hheld : ¬ holds s r) :
    onShared s r u P = .error .notHolder := by
  rw [onShared, asRunning_free hfree.1 hfree.2, withHeld, if_neg hheld]

/-- Settles O13: a wait of no ticks and the zero masks write what was there, and the holder check comes before the write. -/
theorem hintsChangeNothing : Obligations.HintsChangeNothing := by
  intro s
  refine ⟨decodeWord_encode (i := .tick 0) rfl, congrArg _ (elapse_zero s), fun hfree hheld => ?_, fun hfree hheld => ?_⟩
  · have kept : ∀ ctl flg, ctl = s.ecu.ctl → flg = s.ecu.flg →
        conclude s (onShared s .captmr (memWrite (.captmr s.ecu.cnt ctl flg) s)) = .next s := by
      rintro _ _ rfl rfl
      rw [onShared_ok hfree hheld, conclude_ok]
      exact congrArg _ (memWrite_memRead .captmr s)
    exact ⟨kept _ _ (maskSet_zero _) rfl, kept _ _ (maskClear_zero _) rfl, kept _ _ rfl (maskClear_zero _)⟩
  · have refused : ∀ u, conclude s (onShared s .captmr u) = .next (refusedWith 6 s) := fun u => by
      rw [onShared_notHolder hfree hheld]; rfl
    exact ⟨refused _, refused _, refused _⟩

/-! ### The operator bytes (R94) -/

/-- Whichever bytes are drawn, those that the model holds are admissible. -/
theorem openBytes_admissible : Config.openBytes.admissible = true := by
  unfold Config.openBytes
  split
  · assumption
  · decide

/-- Settles O54: the eight values are distinct because only admissible bytes are held. -/
theorem operatorBytesAreDistinct : Obligations.OperatorBytesAreDistinct :=
  ⟨of_decide_eq_true openBytes_admissible, rfl⟩

end Sys2Proof.Machine
end

section
/-! PROOF. The events of the environment (40_capture.md R110, R112, R113): the closed form of `TICK` is the loop of the rule, and an
edge of the echo line is captured exactly when it is enabled and of the selected polarity. -/

namespace Sys2Proof.Machine

variable {s : State} {e : Ecu}

/-! ### The single tick, repeated (R110) -/

theorem flgSetOvf_idem (f : BitVec 2) : flgSetOvf (flgSetOvf f) = flgSetOvf f := by
  simp only [flgSetOvf, BitVec.or_assoc, BitVec.or_self]

/-- One more tick after `n`: the counter stands at 65535 exactly when the next rollover is reached. -/
theorem Ecu.afterTick_afterTicks (e : Ecu) (n : Nat) : (e.afterTicks n).afterTick = e.afterTicks (n + 1) := by
  by_cases hen : e.cnten = true
  swap
  · simp [Ecu.afterTicks, Ecu.afterTick, hen]
  have hcount : e.afterTicks n = { e with
      cnt := e.cnt + BitVec.ofNat 16 n
      flg := if 65536 ≤ e.cnt.toNat + n then flgSetOvf e.flg else e.flg } := if_pos hen
  have hen' : (e.afterTicks n).cnten = true := by rw [hcount]; exact hen
  have hnext : e.cnt + BitVec.ofNat 16 n + 1 = e.cnt + BitVec.ofNat 16 (n + 1) := by
    rw [BitVec.ofNat_add, BitVec.add_assoc]; rfl
  have hfull : e.cnt + BitVec.ofNat 16 n = 65535#16 ↔ (e.cnt.toNat + n) % 65536 = 65535 := by
    rw [← BitVec.toNat_inj]; simp
  rw [Ecu.afterTick, if_pos hen', hcount]
  simp only [Ecu.afterTicks, hen, if_true, hfull]
  split
  · rename_i hroll
    have hzero : e.cnt + BitVec.ofNat 16 (n + 1) = 0 := by rw [← hnext, hfull.2 hroll]; rfl
    rw [hzero, if_pos (show 65536 ≤ e.cnt.toNat + (n + 1) by omega)]
    congr 1
    split
    · exact flgSetOvf_idem _
    · rfl
  · rename_i hroll
    have hsame : 65536 ≤ e.cnt.toNat + (n + 1) ↔ 65536 ≤ e.cnt.toNat + n := by omega
    simp only [hsame, hnext]

/-- The closed form of `TICK` is the loop of R110 (log 17). -/
theorem elapseOne_iterate (n : Nat) (s : State) : elapseOne^[n] s = elapse n s := by
  induction n with
  | zero => exact (elapse_zero s).symm
  | succ n ih =>
    rw [Function.iterate_succ_apply', ih, elapseOne, elapse_ecu, Ecu.afterTick_afterTicks]
    rfl

/-- Settles O9: the body that the statement writes out is `elapseOne`, and its iterate is the closed form. -/
theorem tickRepeatsTheSingleTick : Obligations.TickRepeatsTheSingleTick := fun n s =>
  ⟨pack_or 0 1 n, congrArg _ (elapseOne_iterate n.toNat s).symm⟩

/-! ### The edges of the echo line (R112, R113) -/

/-- An edge to `b`: CAPF is set exactly when CAPEN is set and POL is the polarity of the edge. -/
theorem echoChange_ok {b : Bool} (h : s.ecu.echo ≠ b) :
    echoChange b s = .ok { s with ecu := { s.ecu with
      echo := b
      flg := if s.ecu.ctl.getLsbD 1 = true ∧ s.ecu.ctl.getLsbD 3 = !b then s.ecu.flg ||| 0b01#2 else s.ecu.flg } } := by
  have hedge : s.ecu.isCaptureEdge b = true ↔ s.ecu.ctl.getLsbD 1 = true ∧ s.ecu.ctl.getLsbD 3 = !b :=
    Ecu.isCaptureEdge_iff
  refine echoChange_ok_iff.2 ⟨h, ?_⟩
  simp only [Ecu.afterEdge, hedge]
  rfl

theorem echoChange_same {b : Bool} (h : s.ecu.echo = b) : echoChange b s = .error .notEnabled := if_pos h

/-- Settles O10: the rising edge is the change of the line to high. -/
theorem echoRiseIsCapturedWhenArmed : Obligations.EchoRiseIsCapturedWhenArmed := by
  refine ⟨rfl, fun s => ⟨fun hlow => ?_, fun hhigh => conclude_notEnabled (echoChange_same hhigh)⟩⟩
  exact congrArg (conclude s) (echoChange_ok (by simp [hlow]))

/-- Settles O11: the falling edge is the change of the line to low. -/
theorem echoFallIsCapturedWhenArmed : Obligations.EchoFallIsCapturedWhenArmed := by
  refine ⟨rfl, fun s => ⟨fun hhigh => ?_, fun hlow => conclude_notEnabled (echoChange_same hlow)⟩⟩
  exact congrArg (conclude s) (echoChange_ok (by simp [hhigh]))

end Sys2Proof.Machine
end

section
/-! PROOF. The numbers of a measurement (40_capture.md R114, R115, R119, R120): the overflow counter under both rules and every
OVF_WIDTH, the elapsed time, and its distance. -/

namespace Sys2Proof.Machine

variable {P : Params} {s : State}

/-! ### The overflow counter (R115) -/

theorem ovfNext_after (hrule : P.ovfRule = .after) {v : Nat} (hv : v < 2 ^ P.ovfWidth - 1) :
    ovfNext P v = if v + 1 = 2 ^ P.ovfWidth - 1 then 0 else v + 1 := by
  simp only [ovfNext, hrule, ovfMax]
  rw [Nat.mod_eq_of_lt (by omega)]

/-- Under `after` the counter counts the rollovers as long as OVF_MAX is not reached. -/
theorem ovfNext_iterate_after (hrule : P.ovfRule = .after) (k : Nat) (hk : k < 2 ^ P.ovfWidth - 1) :
    (ovfNext P)^[k] 0 = k := by
  induction k with
  | zero => rfl
  | succ k ih => rw [Function.iterate_succ_apply', ih (by omega), ovfNext_after hrule (by omega), if_neg (by omega)]

/-- The last of OVF_MAX rollovers takes the counter from OVF_MAX − 1 to 0. -/
theorem ovfNext_iterate_max (hrule : P.ovfRule = .after) : (ovfNext P)^[2 ^ P.ovfWidth - 1] 0 = 0 := by
  cases hmax : 2 ^ P.ovfWidth - 1 with
  | zero => rfl
  | succ k =>
    rw [Function.iterate_succ_apply', ovfNext_iterate_after hrule k (by omega), ovfNext_after hrule (by omega),
      if_pos hmax.symm]

/-- Under `before` the counter is the sum of OVF_WIDTH bits. -/
theorem ovfNext_before (hrule : P.ovfRule = .before) {v : Nat} (hv : v < 2 ^ P.ovfWidth) :
    ovfNext P v = (v + 1) % 2 ^ P.ovfWidth := by
  simp only [ovfNext, hrule, ovfMax]
  split
  · rw [show v + 1 = 2 ^ P.ovfWidth by omega, Nat.mod_self]
  · rfl

/-- Settles O15: `ovfNext` by its rule, and its iterate from 0 up to the value before OVF_MAX and once more. -/
theorem overflowCounterNeverStoresItsMaximum : Obligations.OverflowCounterNeverStoresItsMaximum := by
  refine ⟨rfl, rfl, ovfMax_default, fun P => ⟨fun hrule => ?_, fun hrule v hv => ⟨?_, ovfNext_before hrule hv⟩⟩⟩
  · exact ⟨fun v hv => ovfNext_after hrule hv, ovfNext_iterate_after hrule, ovfNext_iterate_max hrule⟩
  · rw [ovfNext_before hrule hv]
    split
    · rw [show v + 1 = 2 ^ P.ovfWidth by omega, Nat.mod_self]
    · exact Nat.mod_eq_of_lt (by omega)

/-! ### The overflow service (R114) -/

theorem takeable_ovf_iff_pending :
    takeable s .ovf = true ↔ s.ecu.flg.getLsbD 1 = true ∧ s.ecu.ctl.getLsbD 2 = true ∧ s.pcl.epri < 5 := by
  rw [takeable_ovf_iff, contends_iff, pending, Bool.and_eq_true, and_assoc]
  rfl

/-- Settles O14: the overflow source has no higher one, so its own conditions are the service's. -/
theorem overflowServiceCountsOneRollover : Obligations.OverflowServiceCountsOneRollover := by
  refine fun s => ⟨fun hflag hie hepri hfree => ?_, fun hne => ?_⟩
  · have htake : takeable s .ovf = true := takeable_ovf_iff_pending.2 ⟨hflag, hie, hepri⟩
    exact congrArg (conclude s) (serviceOverflow_ok htake hfree)
  · have hnot : takeable s .ovf = false := Bool.eq_false_iff.2 fun htake => hne (takeable_ovf_iff_pending.1 htake)
    exact conclude_notEnabled (serve_not_takeable hnot)

/-! ### The elapsed time and its distance (R119, R120) -/

/-- Settles O20: two counter values are less than one rollover apart. -/
theorem elapsedIsNegativeOnlyWithoutRollover : Obligations.ElapsedIsNegativeOnlyWithoutRollover := by
  intro t1 t2 ovf hovf
  have h1 := t1.isLt
  have h2 := t2.isLt
  rw [ovfMax_default] at hovf
  unfold elapsed
  omega

theorem distanceOf_eq (t : Nat) : distanceOf t = 17 * t / 1000 := rfl

/-- The distance is the floor of 17 T / 1000. -/
theorem distanceOf_floor (t : Nat) : 1000 * distanceOf t ≤ 17 * t ∧ 17 * t < 1000 * (distanceOf t + 1) := by
  rw [distanceOf_eq]; omega

theorem distanceOf_mono {t u : Nat} (h : t ≤ u) : distanceOf t ≤ distanceOf u :=
  Nat.div_le_div_right (Nat.mul_le_mul_left 17 h)

/-- The stop threshold is passed from 1236 ticks on (R120). -/
theorem stopThreshold_lt_distanceOf_iff (t : Nat) : 20 < distanceOf t ↔ 1236 ≤ t := by
  have hfloor := distanceOf_floor t
  omega

/-- Settles O21: the floor, from which the threshold follows, its monotony, and the values of the rule by evaluation. -/
theorem distanceIsTheExactFloor : Obligations.DistanceIsTheExactFloor :=
  ⟨distanceOf_floor, fun _ _ => distanceOf_mono, stopThreshold_lt_distanceOf_iff, rfl, rfl, rfl, rfl, rfl, by decide⟩

end Sys2Proof.Machine
end

section
/-! PROOF. The capture service (40_capture.md R116 to R118, R138): its two arms in one step, and its three steps under
CAPTURE_SPLIT = true. -/

namespace Sys2Proof.Machine

variable {P : Params} {s : State}

/-! ### The two arms in one step (R117, R118) -/

/-- A publication (R118): the distance where the time is not negative and it fits, otherwise a free value (log 4). -/
theorem publish_eq (P : Params) (e : Int) (s : State) :
    publish P e s = { s with
      ecu := { s.ecu with
        distmb := some (if 0 ≤ e ∧ 17 * e.toNat / 1000 < 2 ^ P.distWidth then 17 * e.toNat / 1000
          else (Config.anyDistance P.distWidth s.draws).toNat) }
      draws := if 0 ≤ e ∧ 17 * e.toNat / 1000 < 2 ^ P.distWidth then s.draws else s.draws + 1 } := by
  by_cases hfits : 0 ≤ e ∧ 17 * e.toNat / 1000 < 2 ^ P.distWidth
  · simp only [if_pos hfits]
    exact if_pos hfits
  · simp only [if_neg hfits]
    exact if_neg hfits

/-- `SVC.CAP` at R12's defaults is the arm of the state of the capture machine (R116). -/
theorem exec_svcCap (htake : takeable s .cap = true) (hfree : holdsAny s .cap = false) :
    exec .svcCap s = .next (captureArm Config.params s) :=
  congrArg (conclude s) ((serviceCapture_ok_iff rfl).2 ⟨htake, hfree, rfl⟩)

/-- Settles O17: in state Idle the service is the Idle arm. -/
theorem idleArmStartsAMeasurement : Obligations.IdleArmStartsAMeasurement := by
  intro s htake hfree hidle
  rw [exec_svcCap htake hfree, captureArm, hidle]
  rfl

/-- Settles O18: the Done arm publishes the distance of the elapsed time. -/
theorem doneArmPublishesTheDistance : Obligations.DoneArmPublishesTheDistance := by
  intro s htake hfree hdone e d
  rw [exec_svcCap htake hfree, captureArm, hdone]
  exact congrArg _ (publish_eq Config.params e _)

/-! ### The three steps of the split service (R138) -/

theorem leave_top {a : Agent} {e : Prio} {rest : List Frame} (hact : s.pcl.act = ⟨a, e⟩ :: rest) (ha : a ≠ .nav)
    (hfree : holdsAny s a = false) : leave s = .ok { s with pcl := { s.pcl with act := rest, epri := e } } :=
  leave_ok_iff.2 ⟨_, _, hact, ha, hfree, rfl⟩

/-- A leave with a lock of the running agent undoes the step (R187). -/
theorem leave_locked (hrun : run s ≠ .nav) (hlock : holdsAny s (run s) = true) : leave s = .error .leaveLocked := by
  unfold run at hrun hlock
  unfold leave
  cases hact : s.pcl.act with
  | nil => rw [hact] at hrun; exact absurd rfl hrun
  | cons f rest =>
    rw [hact] at hrun hlock
    obtain ⟨a, e⟩ := f
    cases a with
    | nav => exact absurd rfl hrun
    | _ => exact if_pos hlock

theorem asRunning_not_free {k : Except RefusalCode State} (h : ¬ agentFree s P) :
    asRunning s k P = .error .notEnabled := by
  refine if_pos ?_
  rw [Bool.or_eq_true]
  by_contra hnone
  rw [not_or, Bool.not_eq_true, Bool.not_eq_true] at hnone
  exact h hnone

theorem splitA_eq (s : State) :
    splitA s = { s with ecu := { s.ecu with
      t1 := if s.ecu.ecs = .idle then s.ecu.cnt else s.ecu.t1
      t2 := if s.ecu.ecs = .done then s.ecu.cnt else s.ecu.t2
      ctl := if s.ecu.ecs = .idle then ctlArm (ctlTurn s.ecu.ctl) else ctlDisarm (ctlTurn s.ecu.ctl)
      flg := flgClearCap s.ecu.flg
      capPh := .b } } := by
  unfold splitA
  cases s.ecu.ecs <;> rfl

theorem splitB_eq (s : State) :
    splitB s = { s with ecu := { s.ecu with
      ovf := if s.ecu.ecs = .idle then 0 else s.ecu.ovf
      capOvf := if s.ecu.ecs = .done then s.ecu.ovf else s.ecu.capOvf
      capPh := .c } } := by
  unfold splitB
  cases s.ecu.ecs <;> rfl

theorem splitC_pcl (P : Params) (s : State) : (splitC P s).pcl = s.pcl := by
  unfold splitC
  cases s.ecu.ecs with
  | idle => rfl
  | done => exact publish_pcl _ _ _

/-- The split service by its position (R138). -/
theorem execUnder_svcCap_split (hP : P.captureSplit = true) : execUnder P .svcCap s = conclude s (serviceSplit P s) :=
  congrArg (conclude s) (if_pos hP)

theorem serviceSplit_a (hph : s.ecu.capPh = .a) (htake : takeable s .cap P = true) :
    serviceSplit P s = .ok (splitA (enter .cap s P)) := by
  rw [serviceSplit, hph]; exact if_pos htake

theorem serviceSplit_a_not_takeable (hph : s.ecu.capPh = .a) (htake : takeable s .cap P = false) :
    serviceSplit P s = .error .notEnabled := by
  rw [serviceSplit, hph]; exact if_neg (Bool.eq_false_iff.1 htake)

theorem serviceSplit_b (hph : s.ecu.capPh = .b) (hrun : run s = .cap) (hfree : agentFree s P) :
    serviceSplit P s = .ok (splitB s) := by
  rw [serviceSplit, hph]; exact (if_pos hrun).trans (asRunning_free hfree.1 hfree.2)

theorem serviceSplit_c (hph : s.ecu.capPh = .c) (hrun : run s = .cap) (hfree : agentFree s P) :
    serviceSplit P s = leave (splitC P s) := by
  rw [serviceSplit, hph]; exact (if_pos hrun).trans (asRunning_free hfree.1 hfree.2)

/-- Past A the handler is the running agent, and acts as one (log 15). -/
theorem serviceSplit_notEnabled (hph : s.ecu.capPh = .b ∨ s.ecu.capPh = .c) (hne : ¬ (run s = .cap ∧ agentFree s P)) :
    serviceSplit P s = .error .notEnabled := by
  have guarded : ∀ k, (if run s = .cap then asRunning s k P else .error .notEnabled) = .error .notEnabled := by
    intro k
    split
    · rename_i hrun; exact asRunning_not_free fun hfree => hne ⟨hrun, hfree⟩
    · rfl
  rcases hph with hph | hph
  · rw [serviceSplit, hph]; exact guarded _
  · rw [serviceSplit, hph]; exact guarded _

/-- The last step leaves the handler that ran it, with the frame's EPRI (R138, R187). -/
theorem serviceSplit_leaves {e : Prio} {rest : List Frame} (hph : s.ecu.capPh = .c) (hfree : agentFree s P)
    (hlock : holdsAny s .cap = false) (hact : s.pcl.act = ⟨.cap, e⟩ :: rest) :
    serviceSplit P s = .ok { splitC P s with pcl := { s.pcl with act := rest, epri := e } } := by
  have hrun : run s = .cap := by rw [run, hact]
  have hpcl := splitC_pcl P s
  rw [serviceSplit_c hph hrun hfree, leave_top (by rw [hpcl]; exact hact) (by decide) (by rw [holdsAny, hpcl]; exact hlock), hpcl]

/-- Settles O19: one clause for each position of the service and each way it is refused there. -/
theorem splitCaptureRunsInThreeSteps : Obligations.SplitCaptureRunsInThreeSteps := by
  intro P s hP
  rw [execUnder_svcCap_split hP]
  refine ⟨fun hph htake => ?_, fun hph htake => ?_, fun hph hrun hfree => ?_, fun hph hne => ?_,
    fun hph hidle hfree hlock e rest hact => ?_, fun hph hdone hfree hlock e rest hact => ?_,
    fun hph hrun hfree hlock => ?_⟩
  · rw [serviceSplit_a hph htake, splitA_eq]
    rfl
  · exact conclude_notEnabled (serviceSplit_a_not_takeable hph htake)
  · rw [serviceSplit_b hph hrun hfree, splitB_eq]
    rfl
  · exact conclude_notEnabled (serviceSplit_notEnabled hph hne)
  · rw [serviceSplit_leaves hph hfree hlock hact, splitC, hidle]
    rfl
  · intro T d
    rw [serviceSplit_leaves hph hfree hlock hact, splitC, hdone]
    simp only [publish_eq]
    rfl
  · have hpcl := splitC_pcl P s
    have hrunC : run (splitC P s) = .cap := by rw [run, hpcl]; exact hrun
    rw [serviceSplit_c hph hrun hfree, leave_locked (by rw [hrunC]; decide) (by rw [hrunC, holdsAny, hpcl]; exact hlock)]
    rfl

end Sys2Proof.Machine
end

section
/-! PROOF. The measurement (40_capture.md R119, R139): between two capture services OVF and CNT, read as one
number with the rollover still to be served, advance by the time since the first service. -/

namespace Sys2Proof.Machine

variable {s t : State} {e e' : Ecu} {i : Instr} {T t₀ : Nat}

/-! ### The bits of the counting (R26, R28, R30) -/

section
variable (ctl : BitVec 4) (f : BitVec 2)

@[simp] theorem cnten_ctlArm : (ctlArm ctl)[0] = ctl[0] := by simp [ctlArm]
@[simp] theorem cnten_ctlTurn : (ctlTurn ctl)[0] = ctl[0] := by simp [ctlTurn]
@[simp] theorem ovfie_ctlArm : (ctlArm ctl)[2] = ctl[2] := by simp [ctlArm]
@[simp] theorem ovfie_ctlTurn : (ctlTurn ctl)[2] = ctl[2] := by simp [ctlTurn]
@[simp] theorem ovff_flgSetCap : (flgSetCap f)[1] = f[1] := by simp [flgSetCap]
@[simp] theorem ovff_flgClearCap : (flgClearCap f)[1] = f[1] := by simp [flgClearCap]
@[simp] theorem ovff_flgSetOvf : (flgSetOvf f)[1] = true := by simp [flgSetOvf]
@[simp] theorem ovff_flgClearOvf : (flgClearOvf f)[1] = false := by simp [flgClearOvf]

end

theorem Ecu.ovff_afterEdge (e : Ecu) (b : Bool) : (e.afterEdge b).ovff = e.ovff := by
  unfold Ecu.afterEdge Ecu.ovff
  simp only
  split
  · exact ovff_flgSetCap _
  · rfl

/-! ### The unit while a measurement runs (R119) -/

/-- The extended counter of the unit. -/
def Ecu.extended (e : Ecu) : Nat := e.ovf * 65536 + e.cnt.toNat + (if e.ovff then 65536 else 0)

theorem Ecu.extended_of_ovff (h : e.ovff = true) : e.extended = e.ovf * 65536 + e.cnt.toNat + 65536 := by
  rw [Ecu.extended, if_pos h]

theorem Ecu.extended_of_no_ovff (h : e.ovff = false) : e.extended = e.ovf * 65536 + e.cnt.toNat := by
  rw [Ecu.extended, if_neg (Bool.eq_false_iff.1 h), Nat.add_zero]

theorem extended_eq (s : State) : extended s = s.ecu.extended := rfl

/-- The unit in a measurement, `T` ticks after its first service: it counts, its rollovers are served, and the extended counter has
gone on from T1 by `T`. -/
structure Ecu.Measures (e : Ecu) (T : Nat) : Prop where
  done : e.ecs = .done
  counts : e.cnten = true
  served : e.ovfie = true
  below : e.ovf < 65535
  time : e.extended = e.t1.toNat + T

/-- The measurement rests on the counters, the state of the machine and three bits. -/
theorem Ecu.Measures.of_same (h : e.Measures T)
    (hsame : e'.ecs = e.ecs ∧ e'.t1 = e.t1 ∧ e'.ovf = e.ovf ∧ e'.cnt = e.cnt) (hcnten : e'.cnten = e.cnten)
    (hovfie : e'.ovfie = e.ovfie) (hovff : e'.ovff = e.ovff) : e'.Measures T := by
  obtain ⟨hecs, ht1, hovf, hcnt⟩ := hsame
  refine ⟨hecs.trans h.done, hcnten.trans h.counts, hovfie.trans h.served, hovf ▸ h.below, ?_⟩
  have htime := h.time
  rwa [Ecu.extended, ht1, hovf, hcnt, hovff]

/-- Ticks that lose no rollover: at most one is reached, and none while another is still to be served. -/
theorem Ecu.Measures.tick {n : Nat} (h : e.Measures T)
    (hn : e.cnt.toNat + n < 65536 ∨ (e.ovff = false ∧ e.cnt.toNat + n < 131072)) : (e.afterTicks n).Measures (T + n) := by
  have htime := h.time
  rw [Ecu.afterTicks, if_pos h.counts]
  refine ⟨h.done, h.counts, h.served, h.below, ?_⟩
  have hsum : (e.cnt + BitVec.ofNat 16 n).toNat = (e.cnt.toNat + n) % 65536 := by simp
  by_cases hroll : 65536 ≤ e.cnt.toNat + n
  · obtain ⟨hovff, hlt⟩ := hn.resolve_left (Nat.not_lt.2 hroll)
    rw [Ecu.extended_of_no_ovff hovff] at htime
    rw [if_pos hroll]
    refine Eq.trans (Ecu.extended_of_ovff (ovff_flgSetOvf _)) ?_
    show e.ovf * 65536 + (e.cnt + BitVec.ofNat 16 n).toNat + 65536 = e.t1.toNat + (T + n)
    have hwrap : (e.cnt.toNat + n) % 65536 + 65536 = e.cnt.toNat + n := by omega
    rw [hsum, Nat.add_assoc, hwrap]
    omega
  · rw [Ecu.extended] at htime
    rw [if_neg hroll]
    show e.ovf * 65536 + (e.cnt + BitVec.ofNat 16 n).toNat + (if e.ovff then 65536 else 0) = e.t1.toNat + (T + n)
    omega

/-- A served rollover moves from OVFF to OVF (R114). -/
theorem Ecu.Measures.serveRollover (h : e.Measures T) (hovff : e.ovff = true) (hbelow : e.ovf + 1 < 65535) :
    Ecu.Measures { e with flg := flgClearOvf e.flg, ovf := ovfNext Config.params e.ovf } T := by
  have hnext : ovfNext Config.params e.ovf = e.ovf + 1 := by rw [ovfNext_default]; split <;> omega
  have htime := h.time
  rw [Ecu.extended_of_ovff hovff] at htime
  rw [hnext]
  refine ⟨h.done, h.counts, h.served, hbelow, ?_⟩
  refine Eq.trans (Ecu.extended_of_no_ovff (ovff_flgClearOvf _)) ?_
  show (e.ovf + 1) * 65536 + e.cnt.toNat = e.t1.toNat + T
  omega

/-- What a counted operation, other than a `TICK`, writes to the unit keeps the measurement. -/
theorem EcuWrite.measures (h : EcuWrite s i e) (hm : s.ecu.Measures T) (hc : countsAt s i = true) (hi : ∀ n, i ≠ .tick n)
    (hovf : i = .svcOvf → s.ecu.ovff = true) : e.Measures T := by
  have hen : s.ecu.ctl[0] = true := hm.counts
  have hie : s.ecu.ctl[2] = true := hm.served
  cases h with
  | tick n => exact absurd rfl (hi n)
  | captureIdle | captureDone => exact absurd hc Bool.false_ne_true
  | overflow => exact hm.serveRollover (hovf rfl) (of_decide_eq_true hc)
  | echoR | echoF => exact hm.of_same ⟨rfl, rfl, rfl, rfl⟩ rfl rfl (Ecu.ovff_afterEdge _ _)
  | pulseStart => exact hm.of_same ⟨rfl, rfl, rfl, rfl⟩ (cnten_ctlArm _) (ovfie_ctlArm _) rfl
  | ctlSet m =>
    exact hm.of_same ⟨rfl, rfl, rfl, rfl⟩ (by simp [Ecu.cnten, hen]) (by simp [Ecu.ovfie, hie]) rfl
  | ctlClr m =>
    obtain ⟨h0, h2⟩ : m[0] = false ∧ m[2] = false := by simpa [countsAt] using hc
    exact hm.of_same ⟨rfl, rfl, rfl, rfl⟩ (by simp [Ecu.cnten, h0]) (by simp [Ecu.ovfie, h2]) rfl
  | flgClr m =>
    have h1 : m[1] = false := by simpa [countsAt] using hc
    exact hm.of_same ⟨rfl, rfl, rfl, rfl⟩ rfl rfl (by simp [Ecu.ovff, h1])
  | kept | request | pulseEdge | wake | empty => exact hm.of_same ⟨rfl, rfl, rfl, rfl⟩ rfl rfl rfl

/-! ### A run between two services (R139) -/

/-- A measurement that began at `t₀` is under way, in a state of the arbiter's invariant. -/
structure MeasuringSince (t₀ : Nat) (s : State) : Prop where
  arbiter : arbiterOk s = true
  began : t₀ ≤ s.now
  ecu : s.ecu.Measures (s.now - t₀)

theorem Effect.measuringSince (h : Effect s t i) (hc : countsAt s i = true) (hm : MeasuringSince t₀ s) :
    MeasuringSince t₀ t := by
  have harb := h.arbiterOk hm.arbiter
  by_cases htick : ∃ n, i = .tick n
  · obtain ⟨n, rfl⟩ := htick
    obtain rfl : t = elapse n.toNat s := h
    have hn : s.ecu.cnt.toNat + n.toNat < 65536 ∨ (s.ecu.ovff = false ∧ s.ecu.cnt.toNat + n.toNat < 131072) := by
      simpa [countsAt] using hc
    refine ⟨harb, hm.began.trans (Nat.le_add_right _ _), ?_⟩
    rw [elapse_now, Nat.sub_add_comm hm.began]
    exact hm.ecu.tick hn
  · rw [not_exists] at htick
    have hnow : t.now = s.now := (h.sameClock htick).1
    refine ⟨harb, hnow ▸ hm.began, hnow ▸ h.ecuWrite.measures hm.ecu hc htick ?_⟩
    rintro rfl
    exact (takeable_ovf_iff_pending.1 h.1).1

/-- A counted operation keeps the measurement: a refusal writes ERR only. -/
theorem exec_measuringSince (h : exec i s = .next t) (hc : countsAt s i = true) (hm : MeasuringSince t₀ s) :
    MeasuringSince t₀ t := by
  rcases exec_next h with ⟨c, rfl⟩ | h
  · exact ⟨hm.arbiter, hm.began, hm.ecu⟩
  · exact h.measuringSince hc hm

theorem countedRun_measuringSince {ops : List Instr} (h : countedRun ops s = some t) (hm : MeasuringSince t₀ s) :
    MeasuringSince t₀ t := by
  induction ops generalizing s with
  | nil => exact Option.some.inj h ▸ hm
  | cons i rest ih =>
    rw [countedRun] at h
    split at h
    · rename_i hc
      cases hexec : exec i s with
      | next u => rw [hexec] at h; exact ih h (exec_measuringSince hexec hc hm)
      | fault r => rw [hexec] at h; cases h
      | refused r => rw [hexec] at h; cases h
    · cases h

/-! ### The two services (R117, R118) -/

/-- Between two steps the handlers hold no lock (R41, R192). -/
theorem holdsAny_cap_of_arbiterOk (hs : arbiterOk s = true) : holdsAny s .cap = false := by
  obtain ⟨-, hchain, -⟩ := arbiterOk_iff.1 hs
  have hrun : run s ≠ .cap := by
    rw [run, act_of_arbiterOk hs]
    cases s.ecu.trigSt.isRun <;> decide
  refine List.any_eq_false.2 fun x hx => ?_
  rw [lockChain_agent hchain x hx, beq_iff_eq]
  exact hrun

/-- A capture service finds no rollover to be served (R116). -/
theorem ovff_of_takeable_cap (htake : takeable s .cap = true) (hie : s.ecu.ovfie = true) : s.ecu.ovff = false := by
  obtain ⟨-, hepri, hovf⟩ := takeable_cap_iff_pending.1 htake
  refine Bool.eq_false_iff.2 fun hovff => Bool.eq_false_iff.1 hovf ?_
  exact takeable_ovf_iff_pending.2 ⟨hovff, hie, hepri.trans (by decide)⟩

/-- The first service begins a measurement of no time. -/
theorem idleArm_measuringSince (hs : arbiterOk s = true) (htake : takeable s .cap = true) (hen : s.ecu.cnten = true)
    (hie : s.ecu.ovfie = true) : MeasuringSince s.now (idleArm s) := by
  have hctl0 : s.ecu.ctl[0] = true := hen
  have hctl2 : s.ecu.ctl[2] = true := hie
  have hflg : s.ecu.flg[1] = false := ovff_of_takeable_cap htake hie
  refine ⟨arbiterOk_of_same hs rfl rfl, le_rfl, ?_⟩
  rw [idleArm_ecu, idleArm_now]
  refine ⟨rfl, ?_, ?_, Nat.zero_lt_succ _, ?_⟩
  · simp [Ecu.cnten, hctl0]
  · simp [Ecu.ovfie, hctl2]
  · simp [Ecu.extended, Ecu.ovff, hflg]

/-- The second service publishes the distance of the time measured, which is below 2^32 ticks. -/
theorem captureArm_publishes (hm : s.ecu.Measures T) (hovff : s.ecu.ovff = false) :
    (captureArm Config.params s).ecu.distmb = some (17 * T / 1000) := by
  have htime := hm.time
  have hbelow := hm.below
  have hcnt := s.ecu.cnt.isLt
  rw [Ecu.extended_of_no_ovff hovff] at htime
  have hT : elapsed s.ecu.t1 s.ecu.cnt s.ecu.ovf = (T : Int) := by
    unfold elapsed
    omega
  have hfits : 0 ≤ (T : Int) ∧ 17 * T / 1000 < 2 ^ Config.params.distWidth := by
    rw [params_distWidth]
    omega
  rw [captureArm, hm.done]
  simp only [doneArm, hT, publish_eq, Int.toNat_natCast, if_pos hfits]

/-- Settles O22: the first service begins a measurement, every counted operation keeps it, and the second publishes its distance. -/
theorem measuredDistanceIsTheTimeBetweenServices : Obligations.MeasuredDistanceIsTheTimeBetweenServices := by
  intro s₀ s₁ s₂ ops hs hidle htake hen hie hfirst hrun hsecond
  rw [exec_svcCap htake (holdsAny_cap_of_arbiterOk hs), captureArm, hidle] at hfirst
  obtain rfl : idleArm s₀ = s₁ := Host.Outcome.next.inj hfirst
  have hm : MeasuringSince s₀.now s₂ := countedRun_measuringSince hrun (idleArm_measuringSince hs htake hen hie)
  refine ⟨_, exec_svcCap hsecond (holdsAny_cap_of_arbiterOk hm.arbiter), ?_⟩
  exact captureArm_publishes hm.ecu (ovff_of_takeable_cap hsecond hm.ecu.served)

end Sys2Proof.Machine
end

section
/-! PROOF. The trigger emitter (40_capture.md R121 to R124, R126): the request, the entry with capture armed, the three pin writes,
and when a micro-step is refused. -/

namespace Sys2Proof.Machine

variable {P : Params} {s : State}

/-! ### The request (R126) -/

theorem requestOp_ok (hfree : agentFree s P) : requestOp s P = .ok (requestPulse s) :=
  asRunning_free hfree.1 hfree.2

theorem requestPulse_off (hst : s.ecu.trigSt = .off) :
    requestPulse s = { s with ecu := { s.ecu with trigSt := .pending } } := by
  rw [requestPulse_eq, if_pos hst]

theorem requestPulse_busy (hst : s.ecu.trigSt ≠ .off) : requestPulse s = s := by
  rw [requestPulse_eq, if_neg hst]

/-- The request as one write, which is that of the value itself while the emitter is busy. -/
theorem requestPulse_write (s : State) :
    requestPulse s =
      { s with ecu := { s.ecu with trigSt := if s.ecu.trigSt = .off then .pending else s.ecu.trigSt } } := by
  by_cases hst : s.ecu.trigSt = .off
  · rw [requestPulse_off hst, if_pos hst]
  · rw [requestPulse_busy hst, if_neg hst]

theorem exec_trigReq (hfree : agentFree s) : exec .trigReq s = .next (requestPulse s) :=
  congrArg (conclude s) (requestOp_ok hfree)

/-- NAV's turn at its request (R223). -/
theorem navTurnStep_request {rest : List NavAct} (hrun : run s = .nav) (hfree : agentFree s)
    (hnav : s.host.nav = .request :: rest) : navTurnStep s = .next (navGo rest (requestPulse s)) := by
  have hnext : navNext s = (.request, rest) := by rw [navNext, hnav]
  rw [navTurnStep_nav hrun, hnext, navDo, requestOp_ok hfree]
  rfl

/-- Settles O25: the word and NAV's turn are the same `requestPulse`, under the general condition. -/
theorem triggerRequestIsIdempotent : Obligations.TriggerRequestIsIdempotent := by
  refine fun s => ⟨fun hfree hst => ?_, fun hfree hst => ?_, fun hheld => conclude_notEnabled (asRunning_heldOff hheld),
    fun rest hrun hfree hnav => ?_⟩
  · rw [exec_trigReq hfree, requestPulse_off hst]
  · rw [exec_trigReq hfree, requestPulse_busy hst]
  · rw [navTurnStep_request hrun hfree hnav, requestPulse_write]
    rfl

/-! ### The entry and the pulse (R121 to R124) -/

theorem exec_trigStep {t : State} (h : emitterStep s = .ok t) : exec .trigStep s = .next t :=
  congrArg (conclude s) h

/-- Settles O26: a pending emitter starts its pulse. -/
theorem triggerStartEntersAndArms : Obligations.TriggerStartEntersAndArms := fun _ htake hst =>
  exec_trigStep (emitterStep_ok_iff.2 (.inl ⟨hst, startPulse_ok_iff.2 ⟨htake, rfl⟩⟩))

/-- The last micro-step leaves the task, with the frame's EPRI (R124, R187). -/
theorem leave_pulseEdge {e : Prio} {rest : List Frame} {b : Bool} {w : Nat} {n : TrigState}
    (hact : s.pcl.act = ⟨.trig, e⟩ :: rest) (hlock : holdsAny s .trig = false) :
    leave (pulseEdge b w n s) = .ok { pulseEdge b w n s with pcl := { s.pcl with act := rest, epri := e } } :=
  leave_top (s := pulseEdge b w n s) hact (by decide) hlock

/-- Settles O27: in each Run state the micro-step is the pin write of that state. -/
theorem triggerPulseIsLowHighLow : Obligations.TriggerPulseIsLowHighLow := by
  intro s hrun hfree
  refine ⟨fun hst => ?_, fun hst hdl => ?_, fun hst hdl hlock e rest hact => ?_⟩
  · exact exec_trigStep (emitterStep_ok_iff.2 (.inr ⟨hrun, hfree.1, hfree.2, .inl ⟨hst, rfl⟩⟩))
  · exact exec_trigStep (emitterStep_ok_iff.2 (.inr ⟨hrun, hfree.1, hfree.2, .inr (.inl ⟨hst, hdl, rfl⟩)⟩))
  · exact exec_trigStep (emitterStep_ok_iff.2
      (.inr ⟨hrun, hfree.1, hfree.2, .inr (.inr ⟨hst, hdl, leave_pulseEdge hact hlock⟩)⟩))

/-! ### A micro-step that is not enabled (R121 to R124, R242) -/

theorem asEmitter_notEnabled {dl : Nat} {k : Except RefusalCode State} (h : run s = .trig → s.now < dl) :
    asEmitter s dl k P = .error .notEnabled :=
  if_neg fun ⟨hrun, hdl⟩ => Nat.not_lt.2 hdl (h hrun)

theorem emitterStep_idle (hst : s.ecu.trigSt = .off ∨ s.ecu.trigSt = .sleep) : emitterStep s P = .error .notEnabled := by
  unfold emitterStep
  rcases hst with hst | hst
  · rw [hst]
  · rw [hst]

theorem emitterStep_pending_not_takeable (hst : s.ecu.trigSt = .pending) (htake : takeable s .trig P = false) :
    emitterStep s P = .error .notEnabled := by
  rw [emitterStep, hst]
  exact if_neg (Bool.eq_false_iff.1 htake)

theorem emitterStep_not_running (hisRun : s.ecu.trigSt.isRun = true) (hrun : run s ≠ .trig) :
    emitterStep s P = .error .notEnabled := by
  have foreign : ∀ dl k, asEmitter s dl k P = .error .notEnabled := fun _ _ =>
    asEmitter_notEnabled fun h => absurd h hrun
  unfold emitterStep
  cases hst : s.ecu.trigSt with
  | run1 | run2 | run3 => exact foreign _ _
  | off | pending | sleep => simp [hst, TrigState.isRun] at hisRun

theorem emitterStep_early (hst : s.ecu.trigSt = .run2 ∨ s.ecu.trigSt = .run3) (hdl : s.now < s.ecu.trigDl) :
    emitterStep s P = .error .notEnabled := by
  unfold emitterStep
  rcases hst with hst | hst
  · rw [hst]; exact asEmitter_notEnabled fun _ => hdl
  · rw [hst]; exact asEmitter_notEnabled fun _ => hdl

/-- With a lock of the task the last micro-step is refused whole (R187). -/
theorem emitterStep_locked (hst : s.ecu.trigSt = .run3) (hdl : s.ecu.trigDl ≤ s.now) (hrun : run s = .trig)
    (hfree : agentFree s P) (hlock : holdsAny s .trig = true) : emitterStep s P = .error .leaveLocked := by
  have hrun' : run (pulseEdge false (ms trigSleepMs) .sleep s) = .trig := hrun
  rw [emitterStep, hst]
  simp only [asEmitter, if_pos (And.intro hrun hdl), asRunning_free hfree.1 hfree.2]
  exact leave_locked (by rw [hrun']; decide) (by rw [hrun']; exact hlock)

/-- Settles O28: each clause is one guard of the micro-step that fails. -/
theorem triggerStepBeforeItsTimeIsRefused : Obligations.TriggerStepBeforeItsTimeIsRefused := by
  refine fun s => ⟨fun hst => conclude_notEnabled (emitterStep_idle hst),
    fun hst htake => conclude_notEnabled (emitterStep_pending_not_takeable hst htake), fun hisRun hne => ?_,
    fun hst hdl => conclude_notEnabled (emitterStep_early hst hdl), fun hst hdl hrun hfree hlock => ?_⟩
  · rcases hne with hrun | hheld
    · exact conclude_notEnabled (emitterStep_not_running hisRun hrun)
    · exact conclude_notEnabled (emitterStep_heldOff hisRun hheld)
  · exact congrArg (conclude s) (emitterStep_locked hst hdl hrun hfree hlock)

end Sys2Proof.Machine
end

section
/-! PROOF. The operations on the DistanceMailbox and on the capture timer (40_capture.md R128 to R135): for the holder of the
resource the write or the read, for any other agent NOT_HOLDER. -/

namespace Sys2Proof.Machine

variable {s u : State} {r : Resource}

theorem conclude_onShared (hfree : agentFree s) (hheld : holds s r) : conclude s (onShared s r u) = .next u :=
  congrArg (conclude s) (onShared_ok hfree hheld)

theorem conclude_onShared_notHolder (hfree : agentFree s) (hheld : ¬ holds s r) :
    conclude s (onShared s r u) = .next (refusedWith 6 s) :=
  congrArg (conclude s) (onShared_notHolder hfree hheld)

/-- Settles O30: the read writes RES only, and the clear is the write of an empty mailbox. -/
theorem mailboxIsReadThenCleared : Obligations.MailboxIsReadThenCleared :=
  ⟨rfl, rfl, fun _ hfree =>
    ⟨fun hheld => ⟨conclude_onShared hfree hheld, conclude_onShared hfree hheld⟩,
      fun hheld => ⟨conclude_onShared_notHolder hfree hheld, conclude_onShared_notHolder hfree hheld⟩⟩⟩

/-- An operand of at most 24 bits lies in the low bits of its word (R83). -/
theorem pack_operand {n : Nat} (hn : n ≤ 24) (unit fn : BitVec 4) (m : BitVec n) :
    pack unit fn (m.setWidth 24) = pack unit fn 0 ||| m.setWidth 32 := by
  rw [pack_or, BitVec.setWidth_setWidth (by omega)]

/-- Settles O31: each mask is the whole content of the timer written back with one register replaced. -/
theorem timerMasksSetAndClear : Obligations.TimerMasksSetAndClear := by
  intro s m k
  refine ⟨⟨pack_operand (by decide) 1 7 m, pack_operand (by decide) 1 8 m, pack_operand (by decide) 1 9 k⟩,
    fun hfree hheld => ?_, fun hfree hheld => ?_⟩
  · have written : ∀ ctl flg, conclude s (onShared s .captmr (memWrite (.captmr s.ecu.cnt ctl flg) s)) =
        .next { s with ecu := { s.ecu with ctl := ctl, flg := flg } } := fun _ _ => conclude_onShared hfree hheld
    exact ⟨written _ _, written _ _, written _ _⟩
  · have refused : ∀ u, conclude s (onShared s .captmr u) = .next (refusedWith 6 s) := fun _ =>
      conclude_onShared_notHolder hfree hheld
    exact ⟨refused _, refused _, refused _⟩

/-- A register is read as the number it holds (R49). -/
theorem conclude_readTimer {n : Nat} (hn : n ≤ 32) (v : BitVec n) (hfree : agentFree s) (hheld : holds s .captmr) :
    conclude s (readTimer v s) = .next { s with res := some v.toNat } := by
  rw [← zext32_toNat v hn]
  exact conclude_onShared hfree hheld

/-- Settles O32: CNT, CTL and FLG have at most 32 bits, so each is read as it is. -/
theorem timerReadsHaveNoSideEffect : Obligations.TimerReadsHaveNoSideEffect := by
  refine ⟨rfl, rfl, rfl, fun s hfree => ⟨fun hheld => ⟨?_, ?_, ?_⟩, fun hheld => ?_⟩⟩
  · exact conclude_readTimer (by decide) s.ecu.cnt hfree hheld
  · exact conclude_readTimer (by decide) s.ecu.ctl hfree hheld
  · exact conclude_readTimer (by decide) s.ecu.flg hfree hheld
  · have refused : ∀ u, conclude s (onShared s .captmr u) = .next (refusedWith 6 s) := fun _ =>
      conclude_onShared_notHolder hfree hheld
    exact ⟨refused _, refused _, refused _⟩

end Sys2Proof.Machine
end

section
/-! PROOF. When the encoder takes an operation, and when it refuses one (41_encoder.md R158, R160, R162): the general condition comes
first, then ENC_BUSY. -/

namespace Sys2Proof.Machine

variable {P : Params} {s : State} {cmd : Option Command} {p : Byte}

theorem acceptOp_busy (hfree : heldOff s P = false) (hbusy : s.mpe.busy = true) : acceptOp cmd p s P = .error .encBusy := by
  simp [acceptOp, hfree, hbusy]

theorem conclude_acceptOp_busy (hfree : heldOff s = false) (hbusy : s.mpe.busy = true) :
    conclude s (acceptOp cmd p s) = .next (refusedWith 7 s) :=
  congrArg (conclude s) (acceptOp_busy hfree hbusy)

/-- Settles O35: `SHIFT p` is the acceptance of the pattern `p` without a command. -/
theorem shiftIsAcceptedForEveryPattern : Obligations.ShiftIsAcceptedForEveryPattern := fun p s =>
  ⟨pack_operand (by decide) 2 1 p,
    fun hfree hidle => congrArg (conclude s) (acceptOp_ok_iff.2 ⟨hfree, hidle, rfl⟩), conclude_acceptOp_busy⟩

/-- Settles O36: every `EXEC` and `SHIFT` is an acceptance. -/
theorem busyEncoderRefusesNewOperations : Obligations.BusyEncoderRefusesNewOperations := by
  intro s p
  have refused : ∀ c b, (heldOff s = false → s.mpe.busy = true → conclude s (acceptOp c b s) = .next (refusedWith 7 s)) ∧
      (heldOff s = true → conclude s (acceptOp c b s) = .next (refusedWith 2 s)) := fun _ _ =>
    ⟨conclude_acceptOp_busy, fun hheld => conclude_notEnabled (acceptOp_heldOff hheld)⟩
  simp only [List.forall_mem_cons]
  exact ⟨refused _ _, refused _ _, refused _ _, refused _ _, refused _ _, refused _ _, refused _ _, refused _ _,
    List.forall_mem_nil _⟩

/-- Settles O40: `encoderTurn` is the guard of `ENC.STEP`. -/
theorem encoderStepNeedsItsOwner : Obligations.EncoderStepNeedsItsOwner := fun _ hturn =>
  conclude_notEnabled (if_neg hturn)

end Sys2Proof.Machine
end

section
/-! PROOF. An encoder operation from its acceptance to its end (41_encoder.md R162 to R165): its pin writes are those of its script,
and its time is at least R164's, whatever runs in between. -/

namespace Sys2Proof.Machine

variable {s t u : State} {i : Instr} {ops : List Instr} {cmd : Option Command} {p : Byte} {m n : Mpe} {now now' t₀ : Nat}

/-! ### What the other operations leave of an operation in progress -/

/-- The encoder and its pin writes are left, and time does not go back. -/
structure LeavesEncoder (s t : State) : Prop where
  mpe : t.mpe = s.mpe
  writes : encoderWrites t = encoderWrites s
  now_le : s.now ≤ t.now

theorem encoderWrites_congr (h : t.pinTrace = s.pinTrace) : encoderWrites t = encoderWrites s := by
  rw [encoderWrites, h, encoderWrites]

/-- TRIGPIN is none of the encoder's pins. -/
theorem pulseEdge_encoderWrites (b : Bool) (w : Nat) (k : TrigState) :
    encoderWrites (pulseEdge b w k s) = encoderWrites s := by
  simp [encoderWrites]

theorem encoderWrites_drive {x : Pin × Bool} (hx : x.1 ≠ .trigPin) {k : Nat}
    (h : t.pinTrace = s.pinTrace ++ [⟨x.1, x.2, k⟩]) : encoderWrites t = encoderWrites s ++ [x] := by
  simp [encoderWrites, h, hx]

theorem emitterStep_encoderWrites (h : emitterStep s = .ok t) : encoderWrites t = encoderWrites s := by
  rcases emitterStep_ok_iff.1 h with ⟨-, h⟩ | ⟨-, -, -, ⟨-, rfl⟩ | ⟨-, -, rfl⟩ | ⟨-, -, h⟩⟩
  · obtain ⟨-, rfl⟩ := startPulse_ok_iff.1 h; rfl
  · exact pulseEdge_encoderWrites ..
  · exact pulseEdge_encoderWrites ..
  · obtain ⟨_, _, -, -, -, rfl⟩ := leave_ok_iff.1 h; exact pulseEdge_encoderWrites false (ms trigSleepMs) .sleep

theorem Effect.now_le (h : Effect s t i) : s.now ≤ t.now := by
  by_cases htick : ∃ k, i = .tick k
  · obtain ⟨k, rfl⟩ := htick
    obtain rfl : t = elapse k.toNat s := h
    exact Nat.le_add_right _ _
  · exact (h.sameClock (not_exists.1 htick)).1.ge

/-- Of the operations that start none, only `ENC.STEP` writes the encoder. -/
theorem Effect.mpe_eq (h : Effect s t i) (hi : startsNone i = true) (henc : i ≠ .encStep) : t.mpe = s.mpe := by
  cases i with
  | encStep => exact absurd rfl henc
  | execFwd | execRev | execRt | execLt | execBrk | execStp | execDnt | shift => cases hi
  | trigStep => exact emitterStep_mpe h
  | tick | rx => subst h; rfl
  | echoR | echoF => obtain ⟨-, rfl⟩ := h; rfl
  | svcOvf => obtain ⟨-, -, rfl⟩ := h; rfl
  | svcCap => obtain ⟨-, -, rfl⟩ := h; exact captureArm_mpe ..
  | trigReq => obtain ⟨-, -, rfl⟩ := h; exact requestPulse_mpe _
  | trigWake | distRd | distClr | ctlSet | ctlClr | flgClr | cntRd | ctlRd | flgRd => obtain ⟨-, -, -, rfl⟩ := h; rfl
  | lock =>
    obtain ⟨_, -, h⟩ := h
    obtain ⟨-, -, rfl⟩ := acquire_ok_iff.1 (lockOp_ok_iff.1 h).2.2; rfl
  | unlock =>
    obtain ⟨_, -, h⟩ := h
    obtain ⟨_, _, -, -, -, rfl⟩ := release_ok_iff.1 (unlockOp_ok_iff.1 h).2.2; rfl
  | svcRx => obtain ⟨-, -, -, -, rfl⟩ := h; exact ingested_leavesDrivers.mpe

theorem Effect.leavesEncoder (h : Effect s t i) (hi : startsNone i = true) (henc : i ≠ .encStep) : LeavesEncoder s t := by
  refine ⟨h.mpe_eq hi henc, ?_, h.now_le⟩
  by_cases htrig : i = .trigStep
  · subst htrig; exact emitterStep_encoderWrites h
  · exact encoderWrites_congr (h.pinTrace_eq htrig henc)

/-- An operation that starts none makes a step of the encoder, or leaves it. -/
theorem exec_startsNone (h : exec i s = .next t) (hi : startsNone i = true) :
    encoderStep s = .ok t ∨ LeavesEncoder s t := by
  rcases exec_next h with ⟨c, rfl⟩ | h
  · exact .inr ⟨rfl, rfl, le_rfl⟩
  · by_cases henc : i = .encStep
    · subst henc; exact .inl h
    · exact .inr (h.leavesEncoder hi henc)

theorem execAll_cons_iff : execAll (i :: ops) s = some u ↔ ∃ t, exec i s = .next t ∧ execAll ops t = some u := by
  rw [execAll]
  cases exec i s <;> simp

/-- An invariant of the encoder's steps and of what leaves the encoder holds after every list of operations that starts none. -/
theorem execAll_keeps {I : State → Prop} (hstep : ∀ {s t}, encoderStep s = .ok t → I s → I t)
    (hleaves : ∀ {s t}, LeavesEncoder s t → I s → I t) (hops : ∀ i ∈ ops, startsNone i = true)
    (h : execAll ops s = some u) (hs : I s) : I u := by
  induction ops generalizing s with
  | nil => exact Option.some.inj h ▸ hs
  | cons i rest ih =>
    obtain ⟨hi, hrest⟩ := List.forall_mem_cons.1 hops
    obtain ⟨t, hexec, hrun⟩ := execAll_cons_iff.1 h
    refine ih hrest hrun ?_
    rcases exec_startsNone hexec hi with h | h
    · exact hstep h hs
    · exact hleaves h hs

/-! ### The moves of the sequencer (R162, R163) -/

/-- One `ENC.STEP` at time `now`, by the place at which the encoder stands: the next position of a frame, the hold after the first
frame of a transient command, the end of the operation, or the closing frame after the hold. -/
inductive SequencerMove (m : Mpe) (now : Nat) : Mpe → Prop
  | next (hphase : m.phase ≠ .hold) (hpos : m.pos.val ≠ 25) (hdl : microWaits (microStep m.pos) = true → m.dl ≤ now)
      (data clk latch : Bool) :
      SequencerMove m now { m with
        data := data, clk := clk, latch := latch, pos := m.pos + 1, dl := microDeadline now m.dl (microStep m.pos) }
  | hold (h : Nat) (hphase : m.phase = .main) (hpos : m.pos.val = 25) (hdl : m.dl ≤ now) (hhold : m.cmd.bind holdMs = some h) :
      SequencerMove m now { m with latch := true, phase := .hold, dl := now + ms h, pos := 0 }
  | finish (hphase : m.phase ≠ .hold) (hpos : m.pos.val = 25) (hdl : m.dl ≤ now)
      (hlast : m.phase = .main → m.cmd.bind holdMs = none) :
      SequencerMove m now { m with latch := true, busy := false, cmd := none, pos := 0 }
  | close (hphase : m.phase = .hold) (hdl : m.dl ≤ now) : SequencerMove m now { m with phase := .zero, pat := 0, pos := 0 }

/-- The pin write of the next `ENC.STEP`; the step out of the hold has none. -/
def Mpe.nextWrites (m : Mpe) : List (Pin × Bool) :=
  if m.phase = .hold then [] else [microPin m.pat (microStep m.pos)]

/-- The micro-steps drive the encoder's pins, and of the encoder nothing but their levels. -/
theorem setLevel_microPin_mpe (s : State) (p : Byte) (k : MicroStep) :
    ∃ data clk latch, (setLevel (microPin p k).1 (microPin p k).2 s).mpe =
      { s.mpe with data := data, clk := clk, latch := latch } := by
  cases k <;> exact ⟨_, _, _, rfl⟩

theorem microPin_ne_trigPin (p : Byte) (k : MicroStep) : (microPin p k).1 ≠ .trigPin := by
  cases k <;> exact Pin.noConfusion

theorem endSerialization_move (hphase : s.mpe.phase ≠ .hold) (hpos : s.mpe.pos.val = 25) (hdl : s.mpe.dl ≤ s.now) :
    SequencerMove s.mpe s.now (endSerialization (drivePin .latch true s)).mpe := by
  by_cases hmain : s.mpe.phase = .main
  · cases hhold : s.mpe.cmd.bind holdMs with
    | some h =>
      rw [endSerialization_hold (s := drivePin .latch true s) hmain hhold]
      exact .hold h hmain hpos hdl hhold
    | none =>
      rw [endSerialization_idle (s := drivePin .latch true s) (.inr hhold)]
      exact .finish hphase hpos hdl fun _ => hhold
  · rw [endSerialization_idle (s := drivePin .latch true s) (.inl hmain)]
    exact .finish hphase hpos hdl fun h => absurd h hmain

theorem serialStep_move (hphase : s.mpe.phase ≠ .hold) (h : serialStep s = .ok t) : SequencerMove s.mpe s.now t.mpe := by
  obtain ⟨hdl, ⟨hpos, rfl⟩ | ⟨hpos, rfl⟩⟩ := serialStep_ok_iff.1 h
  · rw [microStep_last hpos] at hdl ⊢
    exact endSerialization_move hphase hpos (hdl rfl)
  · obtain ⟨data, clk, latch, hm⟩ := setLevel_microPin_mpe s s.mpe.pat (microStep s.mpe.pos)
    simp only [hm]
    exact .next hphase hpos hdl data clk latch

theorem serialStep_encoderWrites (h : serialStep s = .ok t) :
    encoderWrites t = encoderWrites s ++ [microPin s.mpe.pat (microStep s.mpe.pos)] := by
  refine encoderWrites_drive (microPin_ne_trigPin _ _) (k := s.now) ?_
  obtain ⟨-, ⟨-, rfl⟩ | ⟨-, rfl⟩⟩ := serialStep_ok_iff.1 h <;> simp

/-- Everything an `ENC.STEP` does to the sequencer, to the record of the pins and to the time. -/
theorem encoderStep_move (h : encoderStep s = .ok t) :
    s.mpe.busy = true ∧ SequencerMove s.mpe s.now t.mpe ∧ encoderWrites t = encoderWrites s ++ s.mpe.nextWrites ∧
      t.now = s.now := by
  obtain ⟨hbusy, -, -, hmove⟩ := encoderStep_ok_iff.1 h
  refine ⟨hbusy, ?_, ?_, (encoderStep_sameClock h).1⟩
  all_goals rcases hmove with ⟨hphase, h⟩ | ⟨hphase, h⟩
  · obtain ⟨hdl, rfl⟩ := endHold_ok_iff.1 h; exact .close hphase hdl
  · exact serialStep_move hphase h
  · obtain ⟨-, rfl⟩ := endHold_ok_iff.1 h
    rw [Mpe.nextWrites, if_pos hphase, List.append_nil]; rfl
  · rw [Mpe.nextWrites, if_neg hphase]; exact serialStep_encoderWrites h

/-! ### The sequencer within one operation -/

/-- The encoder stands within the operation `cmd` with the pattern `p`: past the first frame only a transient command (R163). -/
structure Mpe.Within (cmd : Option Command) (p : Byte) (m : Mpe) : Prop where
  cmd_eq : m.cmd = cmd
  pat_main : m.phase = .main → m.pat = p
  pat_zero : m.phase = .zero → m.pat = 0
  transient : m.phase ≠ .main → (cmd.bind holdMs).isSome = true

/-- The encoder is idle, or stands within the operation. -/
abbrev Mpe.AtMostWithin (cmd : Option Command) (p : Byte) (m : Mpe) : Prop := m.busy = true → m.Within cmd p

theorem SequencerMove.atMostWithin (h : SequencerMove m now n) (hm : m.Within cmd p) : n.AtMostWithin cmd p := by
  intro hbusy
  obtain ⟨hcmd, hmain, hzero, htransient⟩ := hm
  cases h with
  | next => exact ⟨hcmd, hmain, hzero, htransient⟩
  | hold _ _ _ _ hhold => exact ⟨hcmd, nofun, nofun, fun _ => by rw [← hcmd, hhold]; rfl⟩
  | finish => cases hbusy
  | close hphase => exact ⟨hcmd, nofun, fun _ => rfl, fun _ => htransient (by simp [hphase])⟩

/-! ### The writes of the script (R162 to R165) -/

/-- The script of a frame is the table of R162, position by position. -/
theorem frameWrites_eq_ofFn (p : Byte) : frameWrites p = List.ofFn fun k : Fin 26 => microPin p (microStep k) := rfl

theorem frameWrites_length (p : Byte) : (frameWrites p).length = 26 := rfl

theorem frameWrites_getElem? (p : Byte) (k : Fin 26) : (frameWrites p)[k.val]? = some (microPin p (microStep k)) := by
  rw [frameWrites_eq_ofFn, List.getElem?_ofFn, dif_pos k.isLt]

theorem scriptWrites_length (cmd : Option Command) (p : Byte) :
    (scriptWrites cmd p).length = if (cmd.bind holdMs).isSome then 52 else 26 := by
  rw [scriptWrites, List.length_append, frameWrites_length]
  split <;> rfl

/-- In a frame the next write is the one of the script at the encoder's place. -/
theorem Mpe.Within.scriptWrites_getElem? (hm : m.Within cmd p) (hbusy : m.busy = true) (hphase : m.phase ≠ .hold)
    (total : Nat) :
    (scriptWrites cmd p)[scriptDone total m]? = some (microPin m.pat (microStep m.pos)) := by
  have hpos : m.pos.val < (frameWrites p).length := m.pos.isLt
  cases hp : m.phase with
  | hold => exact absurd hp hphase
  | main =>
    simp only [scriptDone, hbusy, hp, if_true, scriptWrites]
    rw [List.getElem?_append_left hpos, frameWrites_getElem?, hm.pat_main hp]
  | zero =>
    simp only [scriptDone, hbusy, hp, if_true, scriptWrites, hm.transient (by simp [hp])]
    rw [List.getElem?_append_right (by rw [frameWrites_length]; omega), frameWrites_length, Nat.add_sub_cancel_left,
      frameWrites_getElem?, hm.pat_zero hp]

/-- The place in the script goes on with every write and with nothing else; the last write is the last of the script. -/
theorem SequencerMove.scriptDone_eq (h : SequencerMove m now n) (hm : m.Within cmd p) (hbusy : m.busy = true) :
    scriptDone (scriptWrites cmd p).length n = scriptDone (scriptWrites cmd p).length m + m.nextWrites.length := by
  rw [scriptWrites_length]
  cases h with
  | next hphase hpos =>
    have hsucc := val_succ_of_ne_last hpos
    cases hp : m.phase with
    | hold => exact absurd hp hphase
    | main => simp [scriptDone, Mpe.nextWrites, hbusy, hp, hsucc]
    | zero => simp [scriptDone, Mpe.nextWrites, hbusy, hp, hsucc, Nat.add_assoc]
  | hold _ hphase hpos => simp [scriptDone, Mpe.nextWrites, hbusy, hphase, hpos]
  | finish hphase hpos hdl hlast =>
    cases hp : m.phase with
    | hold => exact absurd hp hphase
    | main => simp [scriptDone, Mpe.nextWrites, hbusy, hp, hpos, ← hm.cmd_eq, hlast hp]
    | zero =>
      simp [scriptDone, Mpe.nextWrites, hbusy, hp, hpos, hm.transient (by simp [hp])]
  | close hphase => simp [scriptDone, Mpe.nextWrites, hbusy, hphase]

/-- The writes of the script up to the place after a move are those up to the place before it, and the move's own. -/
theorem SequencerMove.take_scriptWrites (h : SequencerMove m now n) (hm : m.Within cmd p) (hbusy : m.busy = true) :
    (scriptWrites cmd p).take (scriptDone (scriptWrites cmd p).length n) =
      (scriptWrites cmd p).take (scriptDone (scriptWrites cmd p).length m) ++ m.nextWrites := by
  rw [h.scriptDone_eq hm hbusy]
  by_cases hphase : m.phase = .hold
  · simp [Mpe.nextWrites, hphase]
  · rw [Mpe.nextWrites, if_neg hphase, List.length_singleton, List.take_add_one, hm.scriptWrites_getElem? hbusy hphase]
    rfl

/-- Since an acceptance at which the encoder had made the writes `l`, it has made the first of the script. -/
structure FollowsScript (l : List (Pin × Bool)) (cmd : Option Command) (p : Byte) (s : State) : Prop where
  place : s.mpe.AtMostWithin cmd p
  writes : encoderWrites s = l ++ (scriptWrites cmd p).take (scriptDone (scriptWrites cmd p).length s.mpe)

theorem encoderStep_followsScript {l : List (Pin × Bool)} (h : encoderStep s = .ok t) (hs : FollowsScript l cmd p s) :
    FollowsScript l cmd p t := by
  obtain ⟨hbusy, hmove, hwrites, -⟩ := encoderStep_move h
  have hplace := hs.place hbusy
  refine ⟨hmove.atMostWithin hplace, ?_⟩
  rw [hwrites, hs.writes, hmove.take_scriptWrites hplace hbusy, List.append_assoc]

theorem LeavesEncoder.followsScript {l : List (Pin × Bool)} (h : LeavesEncoder s t) (hs : FollowsScript l cmd p s) :
    FollowsScript l cmd p t := by
  obtain ⟨hplace, hwrites⟩ := hs
  exact ⟨h.mpe ▸ hplace, by rw [h.writes, h.mpe, hwrites]⟩

/-- An acceptance writes no pin, and stands before the first write (R158). -/
theorem acceptOp_followsScript (h : acceptOp cmd p s = .ok t) : FollowsScript (encoderWrites s) cmd p t := by
  obtain ⟨-, -, rfl⟩ := acceptOp_ok_iff.1 h
  exact ⟨fun _ => ⟨rfl, fun _ => rfl, nofun, absurd rfl⟩, (List.append_nil _).symm⟩

/-- Settles O41: `FollowsScript` holds at the acceptance and is kept by the encoder's steps and by whatever leaves the encoder. -/
theorem encoderWritesFollowTheScript : Obligations.EncoderWritesFollowTheScript := by
  intro s t cmd p ops haccept hops u hrun
  exact (execAll_keeps encoderStep_followsScript LeavesEncoder.followsScript hops hrun (acceptOp_followsScript haccept)).writes

/-! ### The time of an operation (R164) -/

/-- The hold of a command, in ticks; 0 for one that has none (R90). -/
def holdTicks (cmd : Option Command) : Nat := ms ((cmd.bind holdMs).getD 0)

/-- The ticks before a phase begins, the hold counted where it ends: the first frame, then the hold (R163, R164). -/
def phaseTicks (cmd : Option Command) : EncPhase → Nat
  | .main => 0
  | .hold => 40000 + holdTicks cmd
  | .zero => 40000 + holdTicks cmd

/-- The ticks from an operation's first pin write to the encoder's next move, at least: 5000 for every bit sent (R162). -/
def leastTicks (cmd : Option Command) (m : Mpe) : Nat :=
  if m.busy then phaseTicks cmd m.phase + 5000 * ((m.pos.val - 1) / 3) else minTicks cmd

/-- The next move waits for ENC_DL (R162, R163). -/
def Mpe.awaits (m : Mpe) : Bool := m.busy && (m.phase == .hold || microWaits (microStep m.pos))

/-- The next move of an operation that began at `t₀` is not made before its least time: the deadline is not earlier, or it has
passed. -/
def OnTime (t₀ : Nat) (cmd : Option Command) (m : Mpe) (now : Nat) : Prop :=
  t₀ + leastTicks cmd m ≤ if m.awaits then m.dl else now

theorem OnTime.mono (h : OnTime t₀ cmd m now) (hnow : now ≤ now') : OnTime t₀ cmd m now' := by
  unfold OnTime at *
  split
  · rename_i hw; rwa [if_pos hw] at h
  · rename_i hw; rw [if_neg hw] at h; exact h.trans hnow

/-- The positions that wait are the DATA writes after the first, and the last position (R162). -/
theorem microWaits_microStep (k : Fin 26) : microWaits (microStep k) = decide (1 < k.val ∧ k.val % 3 = 1) := by
  revert k; decide

/-- The deadline is set at the falling edges of the clock (R162). -/
theorem microDeadline_microStep (k : Fin 26) (dl : Nat) :
    microDeadline now dl (microStep k) = if 0 < k.val ∧ k.val % 3 = 0 then now + 5000 else dl := by
  rcases microStep_cases k with ⟨h, hm⟩ | ⟨h, -, hm⟩ | ⟨h, hm⟩ | ⟨h0, h, hm⟩ | ⟨h, hm⟩ <;> rw [hm]
  case inr.inr.inr.inl => rw [if_pos ⟨h0, h⟩]; rfl
  all_goals rw [if_neg (by omega)]; rfl

/-- A move that waits is made after its deadline. -/
theorem SequencerMove.deadline (h : SequencerMove m now n) (hw : m.awaits = true) : m.dl ≤ now := by
  cases h with
  | next hphase hpos hdl =>
    refine hdl ?_
    simpa [Mpe.awaits, hphase] using (Bool.and_eq_true_iff.1 hw).2
  | hold _ _ _ hdl | finish _ _ hdl | close _ hdl => exact hdl

/-- A move is made after the least time of its place. -/
theorem SequencerMove.leastTicks_le (h : SequencerMove m now n) (hm : OnTime t₀ cmd m now) :
    t₀ + leastTicks cmd m ≤ now := by
  unfold OnTime at hm
  split at hm
  · rename_i hw; exact hm.trans (h.deadline hw)
  · exact hm

theorem minTicks_eq (cmd : Option Command) :
    minTicks cmd = if (cmd.bind holdMs).isSome then 80000 + holdTicks cmd else 40000 := by
  unfold minTicks holdTicks
  cases cmd.bind holdMs <;> rfl

/-- Each move takes the encoder to a place whose least time has passed, or whose deadline is not earlier. -/
theorem SequencerMove.onTime (h : SequencerMove m now n) (hbusy : m.busy = true) (hm : m.Within cmd p)
    (htime : OnTime t₀ cmd m now) : OnTime t₀ cmd n now := by
  have hleast := h.leastTicks_le htime
  simp only [leastTicks, hbusy, if_true] at hleast
  cases h with
  | next hphase hpos =>
    have hsucc := val_succ_of_ne_last hpos
    simp only [OnTime, leastTicks, Mpe.awaits, hbusy, if_true, Bool.true_and, beq_eq_false_iff_ne.2 hphase, Bool.false_or,
      microWaits_microStep, microDeadline_microStep, hsucc, decide_eq_true_eq]
    by_cases hbit : 0 < m.pos.val ∧ m.pos.val % 3 = 0
    · rw [if_pos (by omega), if_pos hbit]; omega
    · rw [if_neg (by omega)]; omega
  | hold h hphase hpos hdl hhold =>
    have hticks : holdTicks cmd = ms h := by rw [holdTicks, ← hm.cmd_eq, hhold]; rfl
    simp only [hphase, phaseTicks, hpos] at hleast
    simp only [OnTime, leastTicks, Mpe.awaits, hbusy, if_true, beq_self_eq_true, Bool.true_or, Bool.and_self, phaseTicks,
      hticks, Fin.val_zero]
    omega
  | finish hphase hpos hdl hlast =>
    simp only [OnTime, leastTicks, Mpe.awaits, Bool.false_and, Bool.false_eq_true, if_false, minTicks_eq]
    rw [hpos] at hleast
    cases hp : m.phase with
    | hold => exact absurd hp hphase
    | main =>
      simp only [hp, phaseTicks] at hleast
      rw [← hm.cmd_eq, hlast hp]
      exact hleast
    | zero =>
      simp only [hp, phaseTicks] at hleast
      rw [if_pos (hm.transient (by simp [hp]))]
      omega
  | close hphase =>
    have hhold : t₀ + (40000 + holdTicks cmd) ≤ now := by
      simp only [hphase, phaseTicks] at hleast
      omega
    simpa [OnTime, leastTicks, Mpe.awaits, hbusy, phaseTicks, microWaits_microStep] using hhold

/-- The operation that began at `t₀` is in progress and on time, or over. -/
structure KeepsTime (t₀ : Nat) (cmd : Option Command) (p : Byte) (s : State) : Prop where
  place : s.mpe.AtMostWithin cmd p
  time : OnTime t₀ cmd s.mpe s.now

theorem encoderStep_keepsTime (h : encoderStep s = .ok t) (hs : KeepsTime t₀ cmd p s) : KeepsTime t₀ cmd p t := by
  obtain ⟨hbusy, hmove, -, hnow⟩ := encoderStep_move h
  have hplace := hs.place hbusy
  exact ⟨hmove.atMostWithin hplace, hnow ▸ hmove.onTime hbusy hplace hs.time⟩

theorem LeavesEncoder.keepsTime (h : LeavesEncoder s t) (hs : KeepsTime t₀ cmd p s) : KeepsTime t₀ cmd p t := by
  obtain ⟨hplace, htime⟩ := hs
  exact ⟨h.mpe ▸ hplace, h.mpe ▸ htime.mono h.now_le⟩

/-- Before its first pin write an operation has taken no time. -/
theorem keepsTime_of_first (hbusy : s.mpe.busy = true) (hphase : s.mpe.phase = .main) (hpos : s.mpe.pos.val = 0) :
    KeepsTime s.now s.mpe.cmd s.mpe.pat s := by
  refine ⟨fun _ => ⟨rfl, fun _ => rfl, ?_, absurd hphase⟩, ?_⟩
  · rw [hphase]; exact EncPhase.noConfusion
  · simp [OnTime, leastTicks, Mpe.awaits, hbusy, hphase, phaseTicks, hpos, microWaits_microStep]

/-- Settles O42: `KeepsTime` holds before the first pin write and is kept until the operation is over. -/
theorem encoderOperationLastsItsMinimum : Obligations.EncoderOperationLastsItsMinimum := by
  intro s t ops hturn hphase hpos hfirst hops u hrun hidle
  have hstart : execAll (.encStep :: ops) s = some u := execAll_cons_iff.2 ⟨t, hfirst, hrun⟩
  have hend := execAll_keeps encoderStep_keepsTime LeavesEncoder.keepsTime (List.forall_mem_cons.2 ⟨rfl, hops⟩) hstart
    (keepsTime_of_first hturn.1 hphase hpos)
  simpa [OnTime, leastTicks, Mpe.awaits, hidle] using hend.time

end Sys2Proof.Machine
end

section
/-! PROOF. The lock arbiter (10_state.md R43, R44; 42_lock_arbiter.md R180 to R192): the source that is taken, what a held lock
excludes, and the two operations on the locks. -/

namespace Sys2Proof.Machine

variable {P : Params} {s : State} {r : Resource}

/-! ### The highest contender is taken (R44, R180, R185) -/

theorem mem_sources_iff {b : Agent} : b ∈ sources ↔ b ≠ .nav := by cases b <;> decide

theorem contends_nav : contends s .nav P = false := rfl

/-- The numbers of R180 are those of five different agents. -/
theorem prio_injective {b c : Agent} (h : prio b = prio c) : b = c := by
  have listed : ∀ a : Agent, a ∈ .nav :: sources := fun a => by cases a <;> decide
  have distinct : ∀ b ∈ .nav :: sources, ∀ c ∈ .nav :: sources, prio b = prio c → b = c := by decide
  exact distinct b (listed b) c (listed c) h

theorem pending_trig_iff :
    pending s .trig = true ↔ s.ecu.trigSt = .pending ∨ (s.ecu.trigSt = .sleep ∧ s.ecu.trigDl ≤ s.now) := by
  simp [pending]

/-- `takeable` looks at the four sources only, and NAV, the fifth agent, never contends. -/
theorem takeable_iff {b : Agent} :
    takeable s b P = true ↔ contends s b P = true ∧ ∀ c, prio b P < prio c P → ¬ contends s c P = true := by
  have overSources : takeable s b P = true ↔
      contends s b P = true ∧ ∀ c ∈ sources, prio b P < prio c P → ¬ contends s c P = true := by
    simp [takeable, imp_iff_not_or]
  rw [overSources]
  refine and_congr_right fun _ => ⟨fun h c hlt => ?_, fun h c _ => h c⟩
  by_cases hc : c = .nav
  · rw [hc, contends_nav]; exact Bool.false_ne_true
  · exact h c (mem_sources_iff.2 hc) hlt

/-- Of two takeable sources neither is the higher. -/
theorem takeable_unique {b c : Agent} (hb : takeable s b = true) (hc : takeable s c = true) : b = c := by
  obtain ⟨hcontendsb, hhighb⟩ := takeable_iff.1 hb
  obtain ⟨hcontendsc, hhighc⟩ := takeable_iff.1 hc
  refine prio_injective (le_antisymm (not_lt.1 fun hlt => ?_) (not_lt.1 fun hlt => ?_))
  · exact hhighc b hlt hcontendsb
  · exact hhighb c hlt hcontendsc

theorem anyTakeable_iff : anyTakeable s P = true ↔ ∃ b, takeable s b P = true := by
  rw [anyTakeable, List.any_eq_true]
  exact exists_congr fun b => and_iff_right_of_imp fun h => mem_sources_iff.2 (takeable_ne_nav h)

/-- Settles O47: `takeable_iff` is R185's wording, and the priorities are distinct. -/
theorem highestPendingSourceIsTakeable : Obligations.HighestPendingSourceIsTakeable := by
  intro s
  refine ⟨⟨rfl, rfl, rfl, pending_trig_iff, rfl⟩, fun b => ?_, fun _ _ => takeable_unique, anyTakeable_iff⟩
  simp only [takeable_iff, contends_iff, and_assoc]

/-! ### A service leaves the arbiter as it entered it (R184, R187) -/

/-- Settles O49: a refusal changes ERR only, and of each service the entry and the leave cancel. -/
theorem servicesLeaveTheArbiterAsItWas : Obligations.ServicesLeaveTheArbiterAsItWas := by
  intro i s t hi hexec
  rcases exec_next hexec with ⟨c, rfl⟩ | heffect
  · exact refuse_pcl s c
  simp only [List.mem_cons, List.not_mem_nil, or_false] at hi
  rcases hi with rfl | rfl | rfl | rfl
  · obtain ⟨-, -, rfl⟩ := heffect; exact countRollover_pcl s _
  · obtain ⟨-, -, rfl⟩ := heffect; exact captureArm_pcl s _
  · obtain ⟨-, -, -, -, rfl⟩ := heffect; exact ingested_pcl _ s
  · obtain ⟨-, -, -, rfl⟩ := heffect; rfl

/-! ### What a held lock excludes (R43, R188, R192) -/

theorem le_raise_left (e c : Prio) : e ≤ raise e c := by
  unfold raise; split
  · exact le_of_lt ‹_›
  · exact le_rfl

/-- Each lock raised EPRI to its ceiling, and no lock after it lowered it. -/
theorem lockChain_ceil_le {a : Agent} {base e : Prio} {l : List LockEntry} (h : lockChain a base l e = true) :
    ∀ x ∈ l, ceil x.res ≤ e := by
  induction l generalizing e with
  | nil => simp
  | cons x l ih =>
    obtain ⟨-, rfl, htail⟩ := lockChain_cons_iff.1 h
    refine List.forall_mem_cons.2 ⟨le_raise_right _ _, fun y hy => ?_⟩
    exact (ih htail y hy).trans (le_raise_left _ _)

theorem exists_lock_of_heldBy {a : Agent} (h : heldBy s r = some a) : ∃ x ∈ s.pcl.lckstk, x.res = r ∧ x.agent = a := by
  obtain ⟨x, hfind, hagent⟩ := Option.map_eq_some_iff.1 h
  exact ⟨x, List.mem_of_find?_eq_some hfind, by simpa using List.find?_some hfind, hagent⟩

/-- There are five resources (R61), and none is locked twice. -/
theorem locks_length_le (hs : arbiterOk s = true) : s.pcl.lckstk.length ≤ 5 := by
  obtain ⟨-, -, hdistinct⟩ := arbiterOk_iff.1 hs
  have hsub : s.pcl.lckstk.map (·.res) ⊆ [.mode, .cmdmb, .distmb, .ovfcnt, .captmr] := fun q _ => by cases q <;> decide
  simpa using (List.subperm_of_subset hdistinct hsub).length_le

/-- Settles O52: EPRI is at least the ceiling of each lock in the chain, and a takeable source is above EPRI. -/
theorem lockExcludesItsCeiling : Obligations.LockExcludesItsCeiling := by
  intro s r a hs hheld
  obtain ⟨-, hchain, -⟩ := arbiterOk_iff.1 hs
  obtain ⟨x, hx, rfl, rfl⟩ := exists_lock_of_heldBy hheld
  have hceil : ceil x.res ≤ s.pcl.epri := lockChain_ceil_le hchain x hx
  refine ⟨lockChain_agent hchain x hx, hceil, fun b hb => ?_, locks_length_le hs⟩
  exact Bool.eq_false_iff.2 fun htake => not_lt.2 (hb.trans hceil) (takeable_epri htake)

/-! ### `LOCK` and `UNLOCK` on a resource (R182, R183) -/

theorem lockOp_ok (hfree : agentFree s P) (hceil : prio (run s) P ≤ ceil r P) (hnone : heldBy s r = none) :
    lockOp r s P = .ok { s with pcl := { s.pcl with
      lckstk := ⟨run s, r, s.pcl.epri⟩ :: s.pcl.lckstk, epri := raise s.pcl.epri (ceil r P) } } :=
  lockOp_ok_iff.2 ⟨hfree.1, hfree.2, acquire_ok_iff.2 ⟨not_lt.2 hceil, hnone, rfl⟩⟩

theorem lockOp_above_ceiling (hfree : agentFree s P) (hceil : ceil r P < prio (run s) P) :
    lockOp r s P = .error .lockCeiling := by
  rw [lockOp, asRunning_free hfree.1 hfree.2, acquire, if_pos hceil]

theorem lockOp_held (hfree : agentFree s P) (hceil : prio (run s) P ≤ ceil r P) (hheld : heldBy s r ≠ none) :
    lockOp r s P = .error .lockHeld := by
  rw [lockOp, asRunning_free hfree.1 hfree.2, acquire, if_neg (not_lt.2 hceil), if_pos (Option.isSome_iff_ne_none.2 hheld)]

theorem unlockOp_ok {e : Prio} {rest : List LockEntry} (hfree : agentFree s P)
    (htop : s.pcl.lckstk = ⟨run s, r, e⟩ :: rest) :
    unlockOp r s P = .ok { s with pcl := { s.pcl with lckstk := rest, epri := e } } :=
  unlockOp_ok_iff.2 ⟨hfree.1, hfree.2, release_ok_iff.2 ⟨_, _, htop, rfl, rfl, rfl⟩⟩

/-- The one refusal of `UNLOCK`: no lock is held, or the top one is another's or of another resource. -/
theorem release_not_top (hne : ∀ e rest, s.pcl.lckstk ≠ ⟨run s, r, e⟩ :: rest) : release r s = .error .unlockOrder := by
  unfold release
  split
  · rename_i x rest hstk
    refine if_neg ?_
    rintro ⟨hagent, hres⟩
    exact hne x.saved rest (by rw [hstk, ← hagent, ← hres])
  · rfl

theorem unlockOp_not_top (hfree : agentFree s P) (hne : ∀ e rest, s.pcl.lckstk ≠ ⟨run s, r, e⟩ :: rest) :
    unlockOp r s P = .error .unlockOrder := by
  rw [unlockOp, asRunning_free hfree.1 hfree.2, release_not_top hne]

/-! ### Their words, and the ids that name no resource (R66, R100) -/

section
variable {id : BitVec 3}

/-- The operand check of R83 refuses the ids 5 to 7. -/
theorem decodeWord_pack_pcl_reserved (fn : BitVec 4) (hid : 5 ≤ id.toNat) (i : Instr) :
    decodeWord (pack 3 fn (id.setWidth 24)) ≠ .ok i := by
  intro h
  rw [decodeWord_pack_pcl] at h
  have hlt : (id.setWidth 24).toNat < 5 := (decodePcl_readable_iff.1 ⟨i, h⟩).2
  rw [BitVec.toNat_setWidth_of_le (by decide)] at hlt
  exact absurd hid (not_le.2 hlt)

theorem resourceOfId_eq_none (hid : 5 ≤ id.toNat) : resourceOfId id = none := by
  have unnamed : ∀ id : BitVec 3, 5 ≤ id.toNat → resourceOfId id = none := by decide
  exact unnamed id hid

theorem conclude_onReservedId (k : Resource → Except RefusalCode State) (hid : 5 ≤ id.toNat) :
    conclude s (onResourceId id k) = .next (refusedWith 1 s) := by
  rw [onResourceId, resourceOfId_eq_none hid]; rfl

theorem exec_lock (hid : resourceOfId id = some r) : exec (.lock id) s = conclude s (lockOp r s) :=
  congrArg (conclude s) (onResourceId_eq hid)

theorem exec_unlock (hid : resourceOfId id = some r) : exec (.unlock id) s = conclude s (unlockOp r s) :=
  congrArg (conclude s) (onResourceId_eq hid)

end

/-- Settles O45: every id that names a resource is `lockOp` of it, whose checks are those of R182 in order. -/
theorem lockRaisesToTheCeiling : Obligations.LockRaisesToTheCeiling := by
  intro s
  refine ⟨fun id => ?_, fun x hx => ?_⟩
  · have hword : pack 3 0 (id.setWidth 24) = 0x30000000#32 ||| id.setWidth 32 := pack_operand (by decide) 3 0 id
    exact ⟨hword, fun hid => ⟨conclude_onReservedId _ hid, hword ▸ decodeWord_pack_pcl_reserved 0 hid⟩⟩
  · have named : ∀ x ∈ [(0#3, Resource.mode, (3 : Prio)), (1, .cmdmb, 3), (2, .distmb, 4), (3, .ovfcnt, 5), (4, .captmr, 5)],
        resourceOfId x.1 = some x.2.1 ∧ ceil x.2.1 = x.2.2 := by decide
    obtain ⟨hid, hceil⟩ := named x hx
    rw [exec_lock hid, ← hceil]
    exact ⟨fun hfree hle hnone => congrArg (conclude s) (lockOp_ok hfree hle hnone),
      fun hfree hlt => congrArg (conclude s) (lockOp_above_ceiling hfree hlt),
      fun hfree hle hheld => congrArg (conclude s) (lockOp_held hfree hle hheld),
      fun hheld => conclude_notEnabled (asRunning_heldOff hheld)⟩

/-- Settles O46: every id that names a resource is `unlockOp` of it, which looks at the top of LCKSTK only. -/
theorem unlockRestoresTheSavedPriority : Obligations.UnlockRestoresTheSavedPriority := by
  intro s
  refine ⟨fun id => ?_, fun x hx => ?_⟩
  · have hword : pack 3 1 (id.setWidth 24) = 0x31000000#32 ||| id.setWidth 32 := pack_operand (by decide) 3 1 id
    exact ⟨hword, fun hid => ⟨conclude_onReservedId _ hid, hword ▸ decodeWord_pack_pcl_reserved 1 hid⟩⟩
  · have named : ∀ x ∈ [(0#3, Resource.mode), (1, .cmdmb), (2, .distmb), (3, .ovfcnt), (4, .captmr)],
        resourceOfId x.1 = some x.2 := by decide
    rw [exec_unlock (named x hx)]
    exact ⟨fun _ _ hfree htop => congrArg (conclude s) (unlockOp_ok hfree htop),
      fun hfree hne => congrArg (conclude s) (unlockOp_not_top hfree hne),
      fun hheld => conclude_notEnabled (asRunning_heldOff hheld)⟩

end Sys2Proof.Machine
end

section
/-! PROOF. NAV's turns at the shared resources and in the Manual branch (42_lock_arbiter.md R189; 43_host_clients.md R221 to R223,
R227): each turn is one block operation or one guarded host access (log 12). -/

namespace Sys2Proof.Machine

variable {s t : State} {a : NavAct} {rest : List NavAct}

/-! ### One turn (R220) -/

/-- NAV's turn within an iteration is the first of its remaining actions. -/
theorem navTurnStep_head (hrun : run s = .nav) (hnav : s.host.nav = a :: rest) :
    navTurnStep s = conclude s (navDo Config.params a rest s) := by
  rw [navTurnStep_nav hrun, navNext, hnav]

/-- At the head of the loop it is the lock of MODE (R221). -/
theorem navTurnStep_start (hrun : run s = .nav) (hnav : s.host.nav = []) :
    navTurnStep s = conclude s (navIssue [.readMode] (lockOp .mode s)) := by
  rw [navTurnStep_nav hrun, navNext, hnav]; rfl

theorem conclude_navIssue_ok {k : Except RefusalCode State} (h : k = .ok t) :
    conclude s (navIssue rest k) = .next (navGo rest t) := by
  rw [h]; rfl

theorem conclude_navIssue_error {k : Except RefusalCode State} {c : RefusalCode} (h : k = .error c) :
    conclude s (navIssue rest k) = .next (refuse c s) := by
  rw [h]; rfl

/-- NAV's priority is below every ceiling (R181), so its lock of a free resource is never refused. -/
theorem navLock_ok {r : Resource} (hrun : run s = .nav) (hfree : agentFree s) (hnone : heldBy s r = none) :
    lockOp r s = .ok { s with pcl := { s.pcl with
      lckstk := ⟨.nav, r, s.pcl.epri⟩ :: s.pcl.lckstk, epri := raise s.pcl.epri (ceil r) } } := by
  have hceil : prio (run s) ≤ ceil r := by
    rw [hrun]; exact le_trans (by decide) (three_le_ceil r)
  rw [lockOp_ok hfree hceil hnone, hrun]

/-- What a read of the mode leaves to do (R221 to R223). -/
theorem navBranch_eq (m : OpMode) :
    navBranch m = if m = .manual then [.lock .cmdmb, .readCmd]
      else [.request, .lock .distmb, .distRd, .unlock .distmb, .takeReading] := by
  cases m <;> rfl

/-- What a command in the mailbox leaves to do: the debounce flag is for every command but Forward (R222). -/
theorem navManual_some (k : Command) :
    navManual false (some k) = [.unlock .cmdmb, .exec k, .encRun] ++ (if k = .forward then [] else [.setDeb false]) ++
      [.lock .cmdmb, .clearCmd, .unlock .cmdmb] := by
  simp [navManual, navRunCommand, navExec]

/-! ### The accesses that need a lock (R189) -/

/-- The accesses of NAV to MODE, CMDMB and DISTMB, each with its resource. -/
def navAccesses : List (NavAct × Resource) :=
  [(.readMode, .mode), (.readCmd, .cmdmb), (.clearCmd, .cmdmb), (.distRd, .distmb), (.distClr, .distmb)]

theorem navAccess_notHolder (hrun : run s = .nav) (hfree : agentFree s) {x : NavAct × Resource} (hx : x ∈ navAccesses)
    (hnav : s.host.nav = x.1 :: rest) (hheld : ¬ holds s x.2) : navTurnStep s = .next (refusedWith 6 s) := by
  rw [navTurnStep_head hrun hnav]
  simp only [navAccesses, List.mem_cons, List.not_mem_nil, or_false] at hx
  rcases hx with rfl | rfl | rfl | rfl | rfl
  · exact conclude_onShared_notHolder hfree hheld
  · exact conclude_onShared_notHolder hfree hheld
  · exact conclude_onShared_notHolder hfree hheld
  · exact conclude_navIssue_error (onShared_notHolder hfree hheld)
  · exact conclude_navIssue_error (onShared_notHolder hfree hheld)

/-- Settles O33: NAV's accesses are `onShared` of their resources; the overflow service is not. -/
theorem sharedAccessNeedsTheLock : Obligations.SharedAccessNeedsTheLock := by
  intro s
  refine ⟨fun hrun hfree => ⟨fun hnav hnone => ?_, fun x hx _ => navAccess_notHolder hrun hfree hx, fun rest => ⟨?_, ?_, ?_⟩⟩,
    fun htake hlock _ _ => congrArg (conclude s) (serviceOverflow_ok htake hlock)⟩
  · rw [navTurnStep_start hrun hnav]
    exact conclude_navIssue_ok (navLock_ok hrun hfree hnone)
  · intro hnav hheld
    rw [navTurnStep_head hrun hnav, ← navBranch_eq]
    exact conclude_onShared hfree hheld
  · intro hnav hheld
    rw [navTurnStep_head hrun hnav]
    exact conclude_navIssue_ok (onShared_ok hfree hheld)
  · intro hnav hheld
    rw [navTurnStep_head hrun hnav]
    exact conclude_navIssue_ok (onShared_ok hfree hheld)

/-! ### The Manual branch (R222) -/

theorem navTurnStep_readCmd (hrun : run s = .nav) (hnav : s.host.nav = .readCmd :: rest) (hfree : agentFree s)
    (hheld : holds s .cmdmb) : navTurnStep s = .next (navGo (navManual false s.host.cmdmb ++ rest) s) := by
  rw [navTurnStep_head hrun hnav]
  exact conclude_onShared hfree hheld

/-- NAV's turn while its operation is in progress is the `ENC.STEP`, and when that ends the operation NAV goes on; a refused
`ENC.STEP` leaves the encoder busy. -/
theorem navTurnStep_encRun (hrun : run s = .nav) (hnav : s.host.nav = .encRun :: rest) (hbusy : s.mpe.busy = true)
    (howner : s.mpe.owner = .nav) (hstep : exec .encStep s = .next t) :
    navTurnStep s = .next (if t.mpe.busy then t else navGo rest t) := by
  have hblocked : ownerBlocked s = true := ownerBlocked_of_busy hbusy (howner.trans hrun.symm)
  rw [navTurnStep_head hrun hnav]
  simp only [navDo, hblocked, if_true]
  rcases conclude_next_iff.1 hstep with hok | ⟨c, herror, rfl⟩
  · rw [hok]; rfl
  · rw [herror, refuse_mpe, hbusy]; rfl

/-- When the encoder is not NAV's, NAV goes on (log 30). -/
theorem navTurnStep_encRun_over (hrun : run s = .nav) (hnav : s.host.nav = .encRun :: rest) (hfree : agentFree s) :
    navTurnStep s = .next (navGo rest s) := by
  rw [navTurnStep_head hrun hnav, navDo, if_neg (Bool.eq_false_iff.1 hfree.2), asRunning_free hfree.1 hfree.2, conclude_ok]

/-- Settles O56: each clause is one turn, at the action that NAV has next. -/
theorem navigationDrainsTheMailbox : Obligations.NavigationDrainsTheMailbox := by
  refine fun s rest hrun => ⟨fun hnav hfree => ⟨fun hheld => ?_, fun hheld hempty => ?_, fun k hheld hfull => ?_⟩,
    fun c hnav hfree => ⟨fun hidle => ?_, fun hbusy => ?_⟩,
    fun hnav hbusy howner t hstep => ?_, navTurnStep_encRun_over hrun, fun hnav hfree hheld => ?_,
    fun r hnav hfree hnone => ?_, fun r e locks hnav hfree htop => ?_⟩
  · exact navAccess_notHolder hrun hfree (x := (.readCmd, .cmdmb)) (by simp [navAccesses]) hnav hheld
  · rw [navTurnStep_readCmd hrun hnav hfree hheld, hempty]; rfl
  · rw [navTurnStep_readCmd hrun hnav hfree hheld, hfull, navManual_some]; rfl
  · rw [navTurnStep_head hrun hnav, ← hrun]
    exact conclude_navIssue_ok (commandOp_ok c hfree hidle)
  · rw [navTurnStep_head hrun hnav]
    exact conclude_navIssue_error (acceptOp_busy hfree hbusy)
  · rw [navTurnStep_encRun hrun hnav hbusy howner hstep]
    refine ⟨fun hsame => ?_, fun _ hmore => ?_, fun _ hover => ?_⟩
    · rw [hsame, hbusy]; rfl
    · rw [hmore]; rfl
    · rw [hover]; rfl
  · rw [navTurnStep_head hrun hnav]
    exact conclude_onShared hfree hheld
  · rw [navTurnStep_head hrun hnav]
    exact conclude_navIssue_ok (navLock_ok hrun hfree hnone)
  · rw [navTurnStep_head hrun hnav]
    exact conclude_navIssue_ok (unlockOp_ok hfree (hrun ▸ htop))

end Sys2Proof.Machine
end

section
/-! PROOF. The operator's bytes (43_host_clients.md R210 to R217; 30_encoding.md R94): their arrival, their table, and the handler
that echoes and decodes them. -/

namespace Sys2Proof.Machine

variable {s u : State} {t : OpenBytes} {b : Byte}

/-! ### The arrival of a byte (R210) -/

/-- Settles O12: the byte is the operand of the word, and the event has no condition. -/
theorem receivedByteReplacesTheEarlier : Obligations.ReceivedByteReplacesTheEarlier := fun b _ =>
  ⟨pack_operand (by decide) 0 4 b, rfl⟩

/-! ### The table of the operator bytes (R94) -/

/-- R94 as a table: the bytes of `OpenBytes.all`, in its order, each with its meaning. -/
def operatorTable (t : OpenBytes) : List (Byte × ByteClass) :=
  [(0x42#8, .command .forward), (0x43#8, .command .reverse), (t.toggle, .toggle), (t.right, .command .rightTurn),
    (t.left, .command .leftTurn), (t.brake, .command .brake), (t.stop, .command .stop), (t.donut, .command .donut)]

/-- One entry of the search in a table. -/
theorem getD_lookup_cons {k : Byte} {v d : ByteClass} {l : List (Byte × ByteClass)} :
    (((k, v) :: l).lookup b).getD d = if b = k then v else (l.lookup b).getD d := by
  by_cases hb : b = k
  · rw [if_pos hb, hb, List.lookup_cons_self, Option.getD_some]
  · rw [if_neg hb, List.lookup_cons, beq_false_of_ne hb]

theorem classifyByte_eq_lookup (t : OpenBytes) (b : Byte) :
    classifyByte t b = ((operatorTable t).lookup b).getD .unmapped := by
  simp only [operatorTable, getD_lookup_cons]
  rfl

/-- With distinct keys every entry of a table is found, wherever it stands (log 24). -/
theorem lookup_of_mem {k : Byte} {v : ByteClass} {l : List (Byte × ByteClass)} (hkeys : (l.map Prod.fst).Nodup)
    (hmem : (k, v) ∈ l) : l.lookup k = some v := by
  obtain ⟨before, after, rfl⟩ := List.append_of_mem hmem
  refine List.lookup_eq_some_iff.2 ⟨before, after, rfl, fun x hx => bne_iff_ne.2 fun hk => ?_⟩
  rw [List.map_append, List.map_cons] at hkeys
  obtain ⟨-, -, hdisjoint⟩ := List.nodup_append.1 hkeys
  exact hdisjoint x.1 (List.mem_map_of_mem hx) k List.mem_cons_self hk.symm

theorem classifyByte_of_mem {k : ByteClass} (ht : t.all.Nodup) (hmem : (b, k) ∈ operatorTable t) :
    classifyByte t b = k := by
  rw [classifyByte_eq_lookup, lookup_of_mem (l := operatorTable t) ht hmem, Option.getD_some]

theorem classifyByte_unmapped (hb : b ∉ t.all) : classifyByte t b = .unmapped := by
  have hnone : (operatorTable t).lookup b = none := List.lookup_eq_none_iff.2 fun x hx =>
    bne_iff_ne.2 fun hbx => hb (hbx ▸ List.mem_map_of_mem (f := Prod.fst) hx)
  rw [classifyByte_eq_lookup, hnone, Option.getD_none]

/-! ### The decode of each class (R212, R214, R215) -/

theorem decodeOperator_toggle_auto (hclass : classifyByte t b = .toggle) (hmode : s.host.mode = .auto) :
    decodeOperator t b s = { s with host := { s.host with mode := .manual, cmdmb := some .brake, ind := false } } := by
  simp only [decodeOperator, hclass, hmode, memWrite_mode, memWrite_cmdmb]

theorem decodeOperator_toggle_manual (hclass : classifyByte t b = .toggle) (hmode : s.host.mode = .manual) :
    decodeOperator t b s = { s with host := { s.host with mode := .auto, ind := true } } := by
  simp only [decodeOperator, hclass, hmode, memWrite_mode]

theorem decodeOperator_command_manual {c : Command} (hclass : classifyByte t b = .command c)
    (hmode : s.host.mode = .manual) : decodeOperator t b s = { s with host := { s.host with cmdmb := some c } } := by
  simp only [decodeOperator, hclass, hmode, memWrite_cmdmb]

theorem decodeOperator_command_auto {c : Command} (hclass : classifyByte t b = .command c) (hmode : s.host.mode = .auto) :
    decodeOperator t b s = s := by
  simp only [decodeOperator, hclass, hmode]

theorem decodeOperator_unmapped (hclass : classifyByte t b = .unmapped) : decodeOperator t b s = s := by
  simp only [decodeOperator, hclass]

/-! ### The handler (R211, R213) -/

/-- Where the UART interrupts, no lock is held: EPRI is below its priority, which is at most every ceiling (R181, R185). -/
theorem lckstk_of_takeable_uart (htake : takeable s .uart = true) (hs : arbiterOk s = true) : s.pcl.lckstk = [] := by
  obtain ⟨-, hchain, -⟩ := arbiterOk_iff.1 hs
  exact lockChain_eq_nil_of_lt hchain (takeable_epri htake)

/-- In a state of the arbiter's invariant the handler is never refused. -/
theorem exec_svcRx (htake : takeable s .uart = true) (hs : arbiterOk s = true)
    (hdecode : decodeOperator Config.openBytes s.host.rxbyte (receiveByte s) = u) :
    exec .svcRx s = .next { u with host := { u.host with rxie := true } } := by
  subst hdecode
  have hnone := lckstk_of_takeable_uart htake hs
  have unheld : ∀ r, heldBy s r = none := fun r => by rw [heldBy, hnone]; rfl
  have hany : holdsAny s .uart = false := by rw [holdsAny, hnone]; rfl
  exact congrArg (conclude s) (serviceUart_default_ok_iff.2 ⟨htake, hany, unheld .mode, unheld .cmdmb, rfl⟩)

/-- Settles O53: what the handler decodes is the class of the byte, which the distinct bytes decide. -/
theorem commandIngestEchoesAndDecodes : Obligations.CommandIngestEchoesAndDecodes := by
  intro s htake hs b _
  have hdistinct : Config.openBytes.all.Nodup := operatorBytesAreDistinct.1
  have toggles (hb : b = Config.openBytes.toggle) : classifyByte Config.openBytes b = .toggle :=
    classifyByte_of_mem hdistinct (by simp [operatorTable, hb])
  refine ⟨fun hb hmode => exec_svcRx htake hs (decodeOperator_toggle_auto (toggles hb) hmode),
    fun hb hmode => exec_svcRx htake hs (decodeOperator_toggle_manual (toggles hb) hmode), fun c hc => ?_,
    fun hb => exec_svcRx htake hs (decodeOperator_unmapped (classifyByte_unmapped hb))⟩
  have hclass : classifyByte Config.openBytes b = .command c :=
    classifyByte_of_mem hdistinct (by simpa [operatorTable] using hc)
  exact ⟨fun hmode => exec_svcRx htake hs (decodeOperator_command_manual hclass hmode),
    fun hmode => exec_svcRx htake hs (decodeOperator_command_auto hclass hmode)⟩

end Sys2Proof.Machine
end

section
/-! PROOF. NAV's turns with a reading (43_host_clients.md R223 to R229): the branch of the scan, the decision by clearance, and the
host writes, each one access of NAV's own (log 12). -/

namespace Sys2Proof.Machine

variable {s u : State} {a : NavAct} {rest : List NavAct}

/-- An access of NAV's own needs no lock: it waits only for NAV to be free (R186). -/
theorem navTurnStep_access (hrun : run s = .nav) (hfree : agentFree s) (hnav : s.host.nav = a :: rest)
    (haccess : navDo Config.params a rest s = asRunning s (.ok u)) : navTurnStep s = .next u := by
  rw [navTurnStep_head hrun hnav, haccess, asRunning_free hfree.1 hfree.2, conclude_ok]

theorem navTurnStep_takeReading (hrun : run s = .nav) (hfree : agentFree s) (hnav : s.host.nav = .takeReading :: rest)
    {r : Option Nat} (hres : s.res = r) :
    navTurnStep s = .next (navGo (navReading true s.host.deb s.host.scan r ++ rest) s) := by
  rw [← hres]
  exact navTurnStep_access hrun hfree hnav rfl

/-- After the branch of the scan comes the clear of R227. -/
theorem navReading_some_append (deb : Bool) (p : ScanPos) (d : Nat) (rest : List NavAct) :
    navReading true deb p (some d) ++ rest =
      navScan deb d p ++ (.lock .distmb :: .distClr :: .unlock .distmb :: rest) :=
  List.append_assoc _ _ _

/-- The larger clearance is above the threshold when one of the two is (R225). -/
theorem navTurn_eq (dr dl : Nat) :
    navTurn dr dl = (if 20 < dr ∨ 20 < dl then
        (if dl < dr then [.exec .rightTurn, .encRun] else [.exec .leftTurn, .encRun])
      else [.exec .reverse, .encRun, .exec .rightTurn, .encRun]) ++ [.setDeb false, .delay 500000] :=
  congrArg (· ++ _) (if_congr lt_max_iff rfl rfl)

/-- Settles O55: each clause is one access of NAV's own, at the action that NAV has next. -/
theorem navigationDecidesByClearance : Obligations.NavigationDecidesByClearance := by
  intro s rest hrun hfree goesOn clearing
  refine ⟨fun hnav => ⟨fun hnone => ?_, fun d hd => ?_⟩, fun hnav => ?_,
    fun d hnav => navTurnStep_access hrun hfree hnav rfl, fun d hnav => navTurnStep_access hrun hfree hnav rfl,
    fun b hnav => navTurnStep_access hrun hfree hnav rfl, fun p hnav => navTurnStep_access hrun hfree hnav rfl,
    fun x hx hnav => ?_, fun n hnav => navTurnStep_access hrun hfree hnav rfl⟩
  · exact navTurnStep_takeReading hrun hfree hnav hnone
  · have branch : ∀ p, s.host.scan = p → goesOn (navScan s.host.deb d p ++ clearing) := by
      rintro _ rfl
      rw [← navReading_some_append]
      exact navTurnStep_takeReading hrun hfree hnav hd
    exact ⟨branch .right, branch .left, branch .middle⟩
  · rw [← navTurn_eq]
    exact navTurnStep_access hrun hfree hnav rfl
  · have duties : ∀ x ∈ [(ScanPos.right, Config.scannerDutyRight), (.middle, Config.scannerDutyMiddle),
        (.left, Config.scannerDutyLeft)], scannerDuty x.1 = x.2 := by
      simp only [List.forall_mem_cons]
      exact ⟨rfl, rfl, rfl, List.forall_mem_nil _⟩
    rw [← duties x hx]
    exact navTurnStep_access hrun hfree hnav rfl

end Sys2Proof.Machine
end

section
/-! PROOF. What one step does with what the port presents (60_exceptions.md R262), and that no step stops (R240, R244). -/

namespace Sys2Proof.Machine

variable {s : State} {i : Instr} {w : Word} {rest : List PortItem}

/-! ### One equation for each thing the port can present (logs 1, 2 and 12); for a reserved word it is `step_unreadable_word` -/

theorem presented_cons {x : PortItem} (hs : s.stream = x :: rest) :
    presented s = some (x, { s with stream := rest }) := by
  rw [presented, hs]

theorem presented_nil (hs : s.stream = []) : presented s = none := by
  rw [presented, hs]

theorem step_word (hs : s.stream = .word w :: rest) (hw : decodeWord w = .ok i) :
    step s = exec i { s with stream := rest } := by
  simp only [step, presented_cons hs, hw]

theorem step_navTurn (hs : s.stream = .navTurn :: rest) : step s = navTurnStep { s with stream := rest } := by
  rw [step, presented_cons hs]

theorem step_nothing (hs : s.stream = []) : step s = .next s := by
  rw [step, presented_nil hs]

/-- Settles O6: each clause is the equation of what is presented. -/
theorem stepRunsWhatThePortPresents : Obligations.StepRunsWhatThePortPresents := fun _ _ =>
  ⟨fun _ _ hs hw => step_word hs hw, step_navTurn, step_nothing⟩

/-! ### A word presented next -/

/-- A word of R81 has 32 bits, so presenting all of them presents the word itself. -/
theorem tableWord_toNat (w : Word) : tableWord 32 w.toNat = w := by
  rw [tableWord, Nat.mod_eq_of_lt w.isLt, BitVec.ofNat_toNat, BitVec.setWidth_eq]

theorem withFetchWord_stream (s : State) (w : Word) : (s.withFetchWord 32 w.toNat).stream = .word w :: s.stream :=
  congrArg (PortItem.word · :: s.stream) (tableWord_toNat w)

/-- Settles O7: the word presented is the operation's own, from which the decoder reads the operation back, and taking it
leaves the state as it was. -/
theorem presentedOperationRunsNext : Obligations.PresentedOperationRunsNext := fun i s hi =>
  step_word (withFetchWord_stream s (encode i)) (decodeWord_encode hi)

/-! ### No step stops -/

/-- A refusal is a next state too (R240). -/
theorem conclude_answers_next (s : State) (r : Except RefusalCode State) : ∃ t, conclude s r = .next t := by
  cases r with
  | ok u => exact ⟨u, conclude_ok s u⟩
  | error c => exact ⟨refuse c s, conclude_error s c⟩

/-- `TICK` and `RX` are never refused (R110, R210); every other operation ends in `conclude`. -/
theorem exec_answers_next (i : Instr) (s : State) : ∃ t, exec i s = .next t := by
  cases i with
  | tick n => exact ⟨elapse n.toNat s, rfl⟩
  | rx b => exact ⟨{ s with host := { s.host with rxbyte := b, rxf := true } }, rfl⟩
  | _ => exact conclude_answers_next s _

/-- Settles O8, by what the port presents: nothing, a turn of NAV, the word of an operation, or a reserved word. -/
theorem stepNeverStops : Obligations.StepNeverStops := by
  intro s
  match hs : s.stream with
  | [] => exact ⟨s, step_nothing hs⟩
  | .navTurn :: rest =>
    rw [step_navTurn hs]
    exact conclude_answers_next _ _
  | .word w :: rest =>
    by_cases hw : ∃ i, decodeWord w = .ok i
    · obtain ⟨i, hi⟩ := hw
      rw [step_word hs hi]
      exact exec_answers_next i _
    · exact ⟨_, step_unreadable_word hs (not_exists.1 hw)⟩

end Sys2Proof.Machine
end

section
/-! PROOF. Startup (70_reset_and_hazards.md R270, R271): the values that the spec states, and the invariant, which holds there
whatever the values are that R271 leaves open (log 3). -/

namespace Sys2Proof.Machine

variable {s : State} {P : Params}

/-! ### Nothing is pending at startup (R44, R185) -/

theorem anyTakeable_of_nothing_pending (h : ∀ b, pending s b = false) : anyTakeable s P = false := by
  rw [Bool.eq_false_iff, Ne, anyTakeable_iff]
  rintro ⟨b, htake⟩
  exact Bool.eq_false_iff.1 (h b) (takeable_pending htake)

/-- The flags are clear, no byte has arrived, and the emitter is off (R271). -/
theorem pending_reset (b : Agent) : pending State.reset b = false := by
  cases b <;> rfl

/-- Settles O60: the values are those of the table, and nothing is takeable because nothing is pending. -/
theorem startupStateIsTheSpecs : Obligations.StartupStateIsTheSpecs := by
  iterate 32 refine And.intro rfl ?_
  exact anyTakeable_of_nothing_pending pending_reset

/-! ### The invariant at every startup that R271 allows -/

/-- The values that R271 leaves open. The defaults are the choice of `State.reset` (log 3). -/
structure OpenStart where
  t1 : BitVec 16 := 0
  t2 : BitVec 16 := 0
  trigPin : Bool := false
  trigDl : Nat := 0
  data : Bool := false
  latch : Bool := false
  owner : Agent := .nav
  pat : Byte := 0
  phase : EncPhase := .main
  encDl : Nat := 0
  rxbyte : Byte := 0
  dr : BitVec 32 := 0
  dl : BitVec 32 := 0
  scanDuty : Fin 101 := 0

/-- Startup with any choice of the open values. -/
def State.startup (o : OpenStart) : State :=
  { State.reset with
    ecu := { State.reset.ecu with t1 := o.t1, t2 := o.t2, trigPin := o.trigPin, trigDl := o.trigDl }
    mpe := { State.reset.mpe with
      data := o.data, latch := o.latch, owner := o.owner, pat := o.pat, phase := o.phase, dl := o.encDl }
    host := { State.reset.host with rxbyte := o.rxbyte, dr := o.dr.toNat, dl := o.dl.toNat, scanDuty := o.scanDuty } }

theorem startup_default : State.startup {} = State.reset := rfl

/-- NAV alone on the context stack, at its own priority, with no lock held. -/
theorem arbiterOk_startup (o : OpenStart) : arbiterOk (State.startup o) = true :=
  arbiterOk_iff.2 ⟨contextOk_iff.2 (.inl ⟨rfl, rfl⟩), lockChain_nil_iff.2 rfl, List.nodup_nil⟩

/-- The encoder is idle, and an idle encoder leaves DATA, LATCH and its scratch unread. -/
theorem mpeOk_startup (o : OpenStart) : (State.startup o).mpe.Ok :=
  Mpe.ok_idle rfl rfl rfl rfl

/-- OVF is zero and the mailbox empty. -/
theorem ecuFits_startup (o : OpenStart) : (State.startup o).ecu.Fits :=
  ⟨show 0 < 65535 by decide, nofun⟩

theorem blockOk_startup (o : OpenStart) : BlockOk (State.startup o) where
  arbiter := arbiterOk_startup o
  encoder := mpeOk_startup o
  err := Nat.zero_le 8
  ecu := ecuFits_startup o
  res := nofun

/-- The open H.DR and H.DL are of DIST_WIDTH, and NAV stands at the head of its loop. -/
theorem hostFits_startup (o : OpenStart) : (State.startup o).host.Fits :=
  ⟨o.dr.isLt, o.dl.isLt, nofun⟩

theorem stateOk_startup (o : OpenStart) : stateOk (State.startup o) = true :=
  stateOk_iff.2 ⟨blockOk_startup o, hostFits_startup o⟩

/-- Settles O50: `State.reset` is one startup among those of `stateOk_startup`. -/
theorem startupSatisfiesTheInvariant : Obligations.StartupSatisfiesTheInvariant := by
  rw [Obligations.StartupSatisfiesTheInvariant, ← startup_default]
  exact stateOk_startup {}

end Sys2Proof.Machine
end
